-- ==== Sys2Proof/Word.lean ====
section
/-! DEFINITION. The word types of N3PC (00_scope.md R5): a command word is 32 bits, a counting
register 24 bits, the status register 8 bits, and a memory cell one bit. -/

namespace Sys2Proof

/-- A command word, and the 32-bit view in which the host reads a register (R5, R50). -/
abbrev Word := BitVec 32

/-- The width of D, MLEN, CLEN, LOC and NCAND (R5). -/
abbrev Reg24 := BitVec 24

/-- One memory cell, and one element of a message or a code: 0 is `false`, 1 is `true` (R5). -/
abbrev Bit := Bool

end Sys2Proof
end

