-- ==== Sys2Proof/Syntax.lean ====
section
/-! DEFINITION. The twelve commands of N3PC (30_encoding.md R54), one constructor for each row of
spec/opcode_table.json. The one operand form is the immediate, a natural (R52). -/

namespace Sys2Proof

/-- A command of the N3PC command set version 1. The argument is the 24-bit immediate of R52 read as
a natural; `Instr.wf` says that it fits. -/
inductive Instr where
  /-- `NOP` (R120). -/
  | nop
  /-- `SETD imm`: `imm` is the code parameter `d` (R121). -/
  | setd (d : Nat)
  /-- `SETLEN imm`: `imm` is a message length in bits (R122). -/
  | setlen (len : Nat)
  /-- `SETCLEN imm`: `imm` is a code length in bits (R123). -/
  | setclen (len : Nat)
  /-- `FLIP imm`: `imm` is a CODE bit address (R124). -/
  | flip (a : Nat)
  /-- `CLRERR` (R125). -/
  | clrerr
  /-- `ENC.PB` (R71). -/
  | encPb
  /-- `ENC.PM` (R83). -/
  | encPm
  /-- `CHK.PB imm`: `imm` is a block index (R91). -/
  | chkPb (n : Nat)
  /-- `CHK.PM imm`: `imm` is a matrix index (R104). -/
  | chkPm (n : Nat)
  /-- `CHKALL.PB` (R93). -/
  | chkallPb
  /-- `CHKALL.PM` (R105). -/
  | chkallPm
  deriving DecidableEq, Repr

end Sys2Proof
end

