-- ==== Sys2Proof/WellFormed.lean ====
section
/-! DEFINITION. Which commands can be written at all: an immediate is below 2^24 (30_encoding.md
R52, R58: a larger one is an assembly error, not a command; log 11). -/

namespace Sys2Proof

/-- R52: the immediate is a natural from 0 to 2^24 - 1. -/
def immFits (n : Nat) : Bool := decide (n < 2 ^ 24)

/-- A command whose immediate, if it has one, fits its 24 bits (R52, R58). -/
def Instr.wf : Instr → Bool
  | .nop       => true
  | .setd d    => immFits d
  | .setlen n  => immFits n
  | .setclen n => immFits n
  | .flip a    => immFits a
  | .clrerr    => true
  | .encPb     => true
  | .encPm     => true
  | .chkPb n   => immFits n
  | .chkPm n   => immFits n
  | .chkallPb  => true
  | .chkallPm  => true

end Sys2Proof
end

