-- ==== Sys2Proof/Decode.lean ====
section
/-! DEFINITION. Reading a command word and writing one (30_encoding.md R50 to R57), total on every
32-bit word. A word that is no command is rejected by a name that says why. -/

namespace Sys2Proof

/-- R51: the opcode of a word is its bits 31 to 24. -/
def opcodeOf (w : Word) : BitVec 8 := w.extractLsb' 24 8

/-- R52: the immediate of a word is its bits 23 to 0, read as a natural, never sign extended. -/
def immOf (w : Word) : Nat := (w.extractLsb' 0 24).toNat

/-- R58: the word of an opcode and an immediate is `(opcode << 24) | imm`. -/
def wordOf (op : BitVec 8) (imm : Nat) : Word :=
  (op.setWidth 32 <<< 24) ||| BitVec.setWidth 32 (BitVec.ofNat 24 imm)

/-- Why a word is no command (R56). Raised by `decode`; the engine turns either into the error
`ILLEGAL_COMMAND` (60_exceptions.md R132), so nothing here stops the machine: safe. -/
inductive DecodeError where
  /-- The opcode is one of the 244 unassigned ones (R56). -/
  | reservedOpcode (op : BitVec 8)
  /-- The opcode belongs to a command without an operand and the immediate is not zero (R55). -/
  | nonzeroImmediate (op : BitVec 8) (imm : Nat)
  deriving DecidableEq, Repr

/-- R55: a command without an operand requires a zero immediate. -/
def withoutOperand (i : Instr) (op : BitVec 8) (imm : Nat) : Except DecodeError Instr :=
  if imm = 0 then .ok i else .error (.nonzeroImmediate op imm)

/-- The opcode map of R54 read from opcode and immediate. Every opcode it does not name is reserved
(R56). -/
def decodeFields (op : BitVec 8) (imm : Nat) : Except DecodeError Instr :=
  if op = 0x00#8 then withoutOperand .nop op imm
  else if op = 0x01#8 then .ok (.setd imm)
  else if op = 0x02#8 then .ok (.setlen imm)
  else if op = 0x03#8 then .ok (.setclen imm)
  else if op = 0x04#8 then .ok (.flip imm)
  else if op = 0x05#8 then withoutOperand .clrerr op imm
  else if op = 0x10#8 then withoutOperand .encPb op imm
  else if op = 0x11#8 then withoutOperand .encPm op imm
  else if op = 0x20#8 then .ok (.chkPb imm)
  else if op = 0x21#8 then .ok (.chkPm imm)
  else if op = 0x30#8 then withoutOperand .chkallPb op imm
  else if op = 0x31#8 then withoutOperand .chkallPm op imm
  else .error (.reservedOpcode op)

/-- The command of a word, or why it is none. It depends on the word alone (R57). -/
def decode (w : Word) : Except DecodeError Instr := decodeFields (opcodeOf w) (immOf w)

/-- The opcode of a command (R54). -/
def Instr.opcode : Instr → BitVec 8
  | .nop       => 0x00#8
  | .setd _    => 0x01#8
  | .setlen _  => 0x02#8
  | .setclen _ => 0x03#8
  | .flip _    => 0x04#8
  | .clrerr    => 0x05#8
  | .encPb     => 0x10#8
  | .encPm     => 0x11#8
  | .chkPb _   => 0x20#8
  | .chkPm _   => 0x21#8
  | .chkallPb  => 0x30#8
  | .chkallPm  => 0x31#8

/-- The immediate of a command; 0 where it has no operand (R55). -/
def Instr.imm : Instr → Nat
  | .nop       => 0
  | .setd d    => d
  | .setlen n  => n
  | .setclen n => n
  | .flip a    => a
  | .clrerr    => 0
  | .encPb     => 0
  | .encPm     => 0
  | .chkPb n   => n
  | .chkPm n   => n
  | .chkallPb  => 0
  | .chkallPm  => 0

/-- The one word of a well-formed command (R58; log 11). -/
def encode (i : Instr) : Word := wordOf i.opcode i.imm

/-- One row of the opcode map: a word `w` is the command exactly when `w &&& mask = code` (R54; the
column the spec calls `match`). -/
structure OpcodeRow where
  mnemonic : String
  code     : Word
  mask     : Word
  deriving DecidableEq, Repr

/-- The row of a command in the opcode map, as R54 prints it. -/
def Instr.row : Instr → OpcodeRow
  | .nop       => { mnemonic := "NOP",       code := 0x00000000#32, mask := 0xFFFFFFFF#32 }
  | .setd _    => { mnemonic := "SETD",      code := 0x01000000#32, mask := 0xFF000000#32 }
  | .setlen _  => { mnemonic := "SETLEN",    code := 0x02000000#32, mask := 0xFF000000#32 }
  | .setclen _ => { mnemonic := "SETCLEN",   code := 0x03000000#32, mask := 0xFF000000#32 }
  | .flip _    => { mnemonic := "FLIP",      code := 0x04000000#32, mask := 0xFF000000#32 }
  | .clrerr    => { mnemonic := "CLRERR",    code := 0x05000000#32, mask := 0xFFFFFFFF#32 }
  | .encPb     => { mnemonic := "ENC.PB",    code := 0x10000000#32, mask := 0xFFFFFFFF#32 }
  | .encPm     => { mnemonic := "ENC.PM",    code := 0x11000000#32, mask := 0xFFFFFFFF#32 }
  | .chkPb _   => { mnemonic := "CHK.PB",    code := 0x20000000#32, mask := 0xFF000000#32 }
  | .chkPm _   => { mnemonic := "CHK.PM",    code := 0x21000000#32, mask := 0xFF000000#32 }
  | .chkallPb  => { mnemonic := "CHKALL.PB", code := 0x30000000#32, mask := 0xFFFFFFFF#32 }
  | .chkallPm  => { mnemonic := "CHKALL.PM", code := 0x31000000#32, mask := 0xFFFFFFFF#32 }

/-- The twelve rows of R54 in the table's order (the operand given here plays no part in a row). -/
def opcodeMap : List OpcodeRow :=
  [Instr.nop.row, (Instr.setd 0).row, (Instr.setlen 0).row, (Instr.setclen 0).row,
   (Instr.flip 0).row, Instr.clrerr.row, Instr.encPb.row, Instr.encPm.row,
   (Instr.chkPb 0).row, (Instr.chkPm 0).row, Instr.chkallPb.row, Instr.chkallPm.row]

/-- The word of a row of spec/opcode_table.json: the bits of `w` below `nbits`, every bit above zero.
A command is one 32-bit word (R50) that the host hands over whole, so there is no byte order
(log 10). -/
def tableWord (nbits w : Nat) : Word := BitVec.ofNat 32 (w % 2 ^ nbits)

/-- The command this decoder reads from a row's word. -/
def decodeTableWord (nbits w : Nat) : Option Instr :=
  match decode (tableWord nbits w) with
  | .ok i => some i
  | .error _ => none

end Sys2Proof
end

