-- ==== Sys2Proof/Config.lean ====
section
/-! DEFINITION. The two parameters of an implementation (00_scope.md R4; 92_eei_decisions.md D4,
OPEN): the capacities of the two memories. The step of the model reads them from the state, so a
statement over every state is a statement over every implementation (log 2). -/

namespace Sys2Proof

/-- R4: `MSG_CAP` is the number of bits of MSG and `CODE_CAP` the number of bits of CODE. -/
structure Config where
  msgCap  : Nat
  codeCap : Nat
  deriving DecidableEq, Repr

/-- R4: both capacities lie between 1 and 2^24 - 1. -/
abbrev Config.legal (c : Config) : Prop :=
  (1 ≤ c.msgCap ∧ c.msgCap ≤ 2 ^ 24 - 1) ∧ (1 ≤ c.codeCap ∧ c.codeCap ≤ 2 ^ 24 - 1)

/-- The values R4 names for every vector and program of the spec.
DESIGN CHOICE (log 2): `State.reset` uses them; the spec leaves the capacities to the implementation. -/
def Config.specDefault : Config := { msgCap := 4096, codeCap := 16384 }

end Sys2Proof
end

