-- ==== Sys2Proof/Machine/State.lean ====
section
/-! DEFINITION. The state of N3PC (10_state.md), plain data: the seven registers, the two bit
memories, the parameters of the implementation, and the host's side of the ports. -/

namespace Sys2Proof.Machine

open Sys2Proof

/-- The two memory spaces (20_memory.md R30). -/
inductive Space where
  /-- MSG, the message: read by the encoders, written by the host only. -/
  | msg
  /-- CODE, the encoded message: read and written by the engine and by the host. -/
  | code
  deriving DecidableEq, Repr

/-- One listed cell of a memory: a bit address and its bit. The addressed unit is the bit, not the
byte (20_memory.md R34; log 9). -/
abbrev Cell := Nat × Bit

/-- A memory: its listed cells, addresses strictly rising, none equal to what an unlisted address
reads as (`Memory.wf`). -/
abbrev Memory := List Cell

/-- A step the host, or the reset input, takes (20_memory.md R36 to R39, 70_reset_and_hazards.md R150
to R152). The widths are those of the ports (R46). -/
inductive HostStep where
  /-- The host gives the engine one command word; the engine executes it to completion (R39). -/
  | command (w : Word)
  /-- The host reads a register by its number (R36). -/
  | readReg (n : BitVec 3)
  /-- The host reads one bit of a memory (R37, R38). -/
  | readMem (sp : Space) (a : BitVec 24)
  /-- The host writes one bit of a memory (R37, R38). -/
  | writeMem (sp : Space) (a : BitVec 24) (b : Bit)
  /-- Reset between commands (R150). -/
  | reset
  /-- Reset while the command `w` executes (R152). `bits` is what the range the command could write
  holds afterwards, which the spec leaves open: a free input (log 7). -/
  | resetDuring (w : Word) (bits : List Bit)
  deriving DecidableEq, Repr

/-- What a read port answered (R36 to R38, the ports `reg_rdata` and `mem_rdata` of R46). -/
inductive Answer where
  /-- Register number `n` was read as `v`. -/
  | reg (n : BitVec 3) (v : Word)
  /-- The bit at address `a` of a memory was read as `b`. -/
  | bit (sp : Space) (a : BitVec 24) (b : Bit)
  deriving DecidableEq, Repr

/-- The state of the machine. The first nine fields are the hardware's (10_state.md R12, R25); the
last four are the model's own: the parameters of R4 and the host's side of the ports (R11, R26). -/
structure State where
  /-- STATUS, register 0 (R16). -/
  status  : BitVec 8
  /-- D, register 1: the code parameter (R13). -/
  d       : Reg24
  /-- MLEN, register 2: the message length in bits (R14). -/
  mlen    : Reg24
  /-- CLEN, register 3: the code length in bits (R15). -/
  clen    : Reg24
  /-- LOC, register 4: row and column of the last corrected bit (R20). -/
  loc     : Reg24
  /-- NCAND, register 5: the number of candidates of the last matrix checked (R21). -/
  ncand   : Reg24
  /-- ERRCMD, register 6: the word that raised the latched error (R22). -/
  errcmd  : Word
  /-- The MSG memory (R25). -/
  msg     : Memory
  /-- The CODE memory (R25). -/
  code    : Memory
  /-- MSG_CAP and CODE_CAP (00_scope.md R4); no step changes them (log 2). -/
  config  : Config
  /-- The host steps not yet taken, the next one first (log 3). -/
  pending : List HostStep
  /-- The index of the next command in the host's command list (R11). -/
  pos     : Nat
  /-- What the read ports answered so far, the newest first (log 5). -/
  answers : List Answer
  deriving DecidableEq, Repr

/-- Why the machine stops. No command of the spec stops the machine: an error is latched and the run
goes on (60_exceptions.md R131). -/
inductive Fault where
  /-- The engine would touch the bits `a` to `a + n - 1` of a memory and they do not all exist (R9:
  MemRead and MemWrite require `a + n` to be at most the capacity). Raised by `fetchBits` and
  `storeBits`, only in a state where MLEN or CLEN exceeds its capacity, which no run reaches. Safe:
  the model stops and proves nothing (log 6). -/
  | outsideMemory (sp : Space) (a n : Nat)
  deriving DecidableEq, Repr

/-- Why the model gives a step no meaning. -/
inductive Refusal where
  /-- An instruction that has no meaning yet; raised by `exec` only. Safe. -/
  | notModelled (mnemonic : String)
  /-- A host access at or above the capacity of its memory (20_memory.md R41: it is refused, not
  answered). Raised by the host steps `readMem` and `writeMem`. Safe. -/
  | hostAddress (sp : Space) (a : BitVec 24)
  deriving DecidableEq, Repr

/-- The state after reset of an implementation with the parameters `c` whose memories hold `m` and
`k`: every register 0 (10_state.md R28). The spec takes the memory contents at the start of a run as
a free input (70_reset_and_hazards.md R151), so they are arguments here. -/
def State.launch (c : Config) (m k : Memory) : State where
  status  := 0
  d       := 0
  mlen    := 0
  clen    := 0
  loc     := 0
  ncand   := 0
  errcmd  := 0
  msg     := m
  code    := k
  config  := c
  pending := []
  pos     := 0
  answers := []

/-- The machine right after reset (R28), with no host step pending.
DESIGN CHOICE (log 1): the memories, whose content the spec leaves unspecified, list nothing, so
every bit reads as 0. DESIGN CHOICE (log 2): the capacities are the spec's default values. -/
def State.reset : State := State.launch Config.specDefault [] []

end Sys2Proof.Machine
end

