-- ==== Sys2Proof/Machine/Flags.lean ====
section
/-! DEFINITION. The fields of STATUS and everything that writes them (10_state.md R16 to R19), and
the six error codes (60_exceptions.md R130). -/

namespace Sys2Proof.Machine

open Sys2Proof

/-- The six errors (R130). -/
inductive ErrorCode where
  /-- R132: the word is not one of the twelve commands. -/
  | illegalCommand
  /-- R133: D is not legal for the scheme of the command. -/
  | badD
  /-- R134: the length the command works on is zero. -/
  | badLength
  /-- R135: the code is not a whole number of matrices. -/
  | badFrame
  /-- R136: the immediate names something that does not exist. -/
  | outOfRange
  /-- R137: the code an encode command would write does not fit in CODE. -/
  | capacity
  deriving DecidableEq, Repr

/-- The value written to ERRCODE (R130). -/
def ErrorCode.code : ErrorCode → BitVec 4
  | .illegalCommand => 1
  | .badD           => 2
  | .badLength      => 3
  | .badFrame       => 4
  | .outOfRange     => 5
  | .capacity       => 6

/-- VALID, STATUS bit 0 (R17). -/
def statusValid (st : BitVec 8) : Bool := st.getLsbD 0

/-- CORR, STATUS bit 1 (R18). -/
def statusCorr (st : BitVec 8) : Bool := st.getLsbD 1

/-- ERR, STATUS bit 2 (R19). -/
def statusErr (st : BitVec 8) : Bool := st.getLsbD 2

/-- The reserved STATUS bit 3 (R16). -/
def statusReserved (st : BitVec 8) : Bool := st.getLsbD 3

/-- ERRCODE, STATUS bits 7 to 4 (R19). -/
def statusErrcode (st : BitVec 8) : BitVec 4 := st.extractLsb' 4 4

/-- A flag in bit position 0 of an 8-bit word. -/
def flagBit (b : Bool) : BitVec 8 := if b then 1#8 else 0#8

/-- STATUS with VALID and CORR written and every other bit kept (R17, R18). -/
def statusWithVerdict (valid corr : Bool) (st : BitVec 8) : BitVec 8 :=
  (st &&& 0xFC#8) ||| flagBit valid ||| (flagBit corr <<< 1)

/-- STATUS with ERR set and ERRCODE written, VALID and CORR kept (R19, R131). -/
def statusWithError (e : ErrorCode) (st : BitVec 8) : BitVec 8 :=
  (st &&& 0x0B#8) ||| 0x04#8 ||| (e.code.setWidth 8 <<< 4)

/-- STATUS with ERR and ERRCODE cleared, VALID and CORR kept (R19, R125). -/
def statusWithoutError (st : BitVec 8) : BitVec 8 := st &&& 0x0B#8

/-- The flag VALID of a state (R17). -/
def State.valid (s : State) : Bool := statusValid s.status

/-- The flag CORR of a state (R18). -/
def State.corr (s : State) : Bool := statusCorr s.status

/-- The flag ERR of a state (R19): the engine is frozen while it is set (R139). -/
def State.err (s : State) : Bool := statusErr s.status

/-- The field ERRCODE of a state (R19). -/
def State.errcode (s : State) : BitVec 4 := statusErrcode s.status

/-- Write the verdict of a check command (R17, R18). -/
def State.setVerdict (valid corr : Bool) (s : State) : State :=
  { s with status := statusWithVerdict valid corr s.status }

end Sys2Proof.Machine
end

