-- ==== Sys2Proof/Machine/Ops.lean ====
section
/-! DEFINITION. The named operations over memories and registers (00_scope.md R9, 20_memory.md), the
entry into the frozen state when a command raises an error and the return from it (60_exceptions.md
R131, R140), and the frame every command runs in. -/

namespace Sys2Proof.Machine

open Sys2Proof

/-! ### One memory -/

/-- What an address that is not listed reads as. DESIGN CHOICE (log 1): the spec leaves the content
of an unwritten cell open; a memory of any content is written as a list all the same. -/
def unlistedBit : Bit := false

/-- The canonical form: addresses strictly rising, no listed bit equal to the unlisted one. -/
def Memory.wf : Memory → Bool
  | [] => true
  | (a, v) :: t => (v != unlistedBit) && t.all (fun c => decide (a < c.1)) && Memory.wf t

/-- Every listed address exists: it is below the capacity (20_memory.md R30). -/
def Memory.below (cap : Nat) (m : Memory) : Bool := m.all (fun c => decide (c.1 < cap))

/-- The bit at address `a` (R9: `MSG[a]`, `CODE[a]`). -/
def Memory.read : Memory → Nat → Bit
  | [], _ => unlistedBit
  | (b, v) :: t, a => if a = b then v else Memory.read t a

/-- Put the cell `(a, v)` in front, unless it says what an unlisted address says already. -/
def Memory.cons (a : Nat) (v : Bit) (t : Memory) : Memory :=
  if v = unlistedBit then t else (a, v) :: t

/-- Write the bit at address `a`, every other bit kept, in canonical form (R42: a write has no effect
beyond the cell written). -/
def Memory.write : Memory → Nat → Bit → Memory
  | [], a, v => Memory.cons a v []
  | (b, w) :: t, a, v =>
    if a < b then Memory.cons a v ((b, w) :: t)
    else if a = b then Memory.cons a v t
    else (b, w) :: Memory.write t a v

/-- `MemRead`: the `n` bits from address `a` up, the lowest first (R9, R34). -/
def Memory.readRun (m : Memory) (a : Nat) : Nat → List Bit
  | 0 => []
  | n + 1 => m.read a :: Memory.readRun m (a + 1) n

/-- `MemWrite`: the bits of a sequence to address `a` and up, the first one lowest (R9, R34). -/
def Memory.writeRun (m : Memory) (a : Nat) : List Bit → Memory
  | [] => m
  | b :: bs => Memory.writeRun (m.write a b) (a + 1) bs

/-! ### The memories of a state -/

/-- The memory of a space (R30). -/
def State.mem (s : State) : Space → Memory
  | .msg => s.msg
  | .code => s.code

/-- The capacity of a space (R30). -/
def State.cap (s : State) : Space → Nat
  | .msg => s.config.msgCap
  | .code => s.config.codeCap

/-- The state with one memory replaced. -/
def State.setMem (s : State) : Space → Memory → State
  | .msg, m => { s with msg := m }
  | .code, m => { s with code := m }

/-- `MemRead(space, a, n)` by the engine (R9): it requires the whole run to lie below the capacity. -/
def fetchBits (s : State) (sp : Space) (a n : Nat) : Except Fault (List Bit) :=
  if a + n ≤ s.cap sp then .ok ((s.mem sp).readRun a n) else .error (.outsideMemory sp a n)

/-- `MemWrite(CODE, a, len, bits)` by the engine (R9: only CODE is ever written by a command). -/
def storeBits (s : State) (a : Nat) (bits : List Bit) : Except Fault State :=
  if a + bits.length ≤ s.config.codeCap then .ok { s with code := s.code.writeRun a bits }
  else .error (.outsideMemory .code a bits.length)

/-! ### The registers -/

/-- The 32-bit view of register number `n` (10_state.md R12): upper bits zero, number 7 reads 0
(R23). -/
def State.readReg (s : State) (n : BitVec 3) : Word :=
  if n = 0 then s.status.setWidth 32
  else if n = 1 then s.d.setWidth 32
  else if n = 2 then s.mlen.setWidth 32
  else if n = 3 then s.clen.setWidth 32
  else if n = 4 then s.loc.setWidth 32
  else if n = 5 then s.ncand.setWidth 32
  else if n = 6 then s.errcmd
  else 0

/-- R150, R28: every register takes its reset value 0; the memories keep what they hold (R151), and
`pos` is not touched (R11). -/
def State.resetRegisters (s : State) : State :=
  { s with status := 0, d := 0, mlen := 0, clen := 0, loc := 0, ncand := 0, errcmd := 0 }

/-- `pos <- pos + 1`, implicit at the end of every command (R9, R11). -/
def State.advance (s : State) : State := { s with pos := s.pos + 1 }

/-! ### The error latch -/

/-- Error entry (60_exceptions.md R131): ERR set, ERRCODE and ERRCMD written, nothing else. -/
def raiseError (e : ErrorCode) (w : Word) (s : State) : State :=
  { s with status := statusWithError e s.status, errcmd := w }

/-- The return (60_exceptions.md R140, 44_housekeeping.md R125): ERR, ERRCODE and ERRCMD cleared,
nothing else restored. -/
def clearError (s : State) : State :=
  { s with status := statusWithoutError s.status, errcmd := 0 }

/-! ### The frame of a command -/

/-- Every command but `CLRERR` runs in this frame. A frozen engine drops it (60_exceptions.md R139);
otherwise the first check that fails raises its error and the command has no other effect (R131,
R138, R141); otherwise it has its effect. In every case `pos` advances by one (R11). `w` is the
command's word. -/
def runCommand (w : Word) (check : State → Option ErrorCode) (effect : State → Except Fault State)
    (s : State) : Host.Outcome State Fault Refusal :=
  if s.err then .next s.advance
  else match check s with
    | some e => .next (raiseError e w s).advance
    | none => match effect s with
      | .ok t => .next t.advance
      | .error f => .fault f

/-- A word that is no command (30_encoding.md R56): `ILLEGAL_COMMAND`, or dropped by a frozen
engine. -/
def rejectWord (w : Word) (s : State) : Host.Outcome State Fault Refusal :=
  runCommand w (fun _ => some .illegalCommand) (fun t => .ok t) s

end Sys2Proof.Machine
end

