-- ==== Sys2Proof/Machine/Operands.lean ====
section
/-! DEFINITION. What a command takes from the registers: the one operand form of a command is its
immediate, a natural (30_encoding.md R52); the counting registers are read as naturals, all
arithmetic is on naturals (00_scope.md R8), and the values of 10_state.md R26 are computed anew by
every command. -/

namespace Sys2Proof.Machine

open Sys2Proof

/-- `ceil(a / b) = (a + b - 1) div b` (00_scope.md section 6.1). -/
def ceilDiv (a b : Nat) : Nat := (a + b - 1) / b

/-- Build the square root bit by bit: with `b` bit positions left and `r` fixed so far, set each bit,
from the top, that keeps the square at most `n`. -/
def isqrtFrom (n : Nat) : Nat → Nat → Nat
  | 0, r => r
  | b + 1, r =>
    if (r + 2 ^ b) * (r + 2 ^ b) ≤ n then isqrtFrom n b (r + 2 ^ b) else isqrtFrom n b r

/-- `isqrt(n)`, the largest `s` with `s * s ≤ n` (R7), computed exactly on naturals. -/
def isqrt (n : Nat) : Nat := isqrtFrom n (n.log2 / 2 + 1) 0

/-- R3: the parity-bit scheme takes every `d ≥ 2`. -/
abbrev pbLegal (d : Nat) : Prop := 2 ≤ d

/-- R3: the parity-matrix scheme takes every perfect square whose root is at least 2. -/
abbrev pmLegal (d : Nat) : Prop := isqrt d * isqrt d = d ∧ 2 ≤ isqrt d

/-- `k = (dim-1)^2`, the data bits of a matrix of side `dim` (R26). -/
def matrixData (dim : Nat) : Nat := (dim - 1) * (dim - 1)

/-- The immediate written to a 24-bit register (R52: zero extended, never scaled). -/
def immReg (imm : Nat) : Reg24 := BitVec.ofNat 24 imm

/-- A count written to a 24-bit register; every rule writes one that fits (R8). -/
def countReg (n : Nat) : Reg24 := BitVec.ofNat 24 n

/-- D as a natural (R13). -/
def State.dVal (s : State) : Nat := s.d.toNat

/-- MLEN as a natural (R14). -/
def State.mlenVal (s : State) : Nat := s.mlen.toNat

/-- CLEN as a natural (R15). -/
def State.clenVal (s : State) : Nat := s.clen.toNat

/-- `dim = isqrt(D)` (R26). -/
def State.dim (s : State) : Nat := isqrt s.dVal

/-- The number of blocks of the code, `nb = ceil(CLEN / D)` (R26). -/
def State.blocks (s : State) : Nat := ceilDiv s.clenVal s.dVal

/-- The number of matrices of the code, `nm = CLEN div D` (R26). -/
def State.matrices (s : State) : Nat := s.clenVal / s.dVal

/-- `(ROW << 12) | COL`, the layout of LOC (R20). -/
def locReg (r c : Nat) : Reg24 :=
  ((BitVec.ofNat 12 r).setWidth 24 <<< 12) ||| (BitVec.ofNat 12 c).setWidth 24

/-- ROW, `LOC[23:12]` (R20). -/
def State.row (s : State) : Nat := (s.loc.extractLsb' 12 12).toNat

/-- COL, `LOC[11:0]` (R20). -/
def State.col (s : State) : Nat := (s.loc.extractLsb' 0 12).toNat

end Sys2Proof.Machine
end

