-- ==== Sys2Proof/Machine/Housekeeping.lean ====
section
/-! DEFINITION. The housekeeping commands (44_housekeeping.md R120 to R125). The check `imm ≠ 0` of
`NOP` and `CLRERR` is the decoder's (30_encoding.md R55). -/

namespace Sys2Proof.Machine

open Sys2Proof

/-- `NOP` does nothing (R120). -/
def execNop (s : State) : Host.Outcome State Fault Refusal :=
  runCommand (encode .nop) (fun _ => none) (fun t => .ok t) s

/-- `SETD imm`: `D <- imm`, no check (R121). -/
def execSetd (d : Nat) (s : State) : Host.Outcome State Fault Refusal :=
  runCommand (encode (.setd d)) (fun _ => none) (fun t => .ok { t with d := immReg d }) s

/-- R122: `imm > MSG_CAP` raises `OUT_OF_RANGE`. -/
def setlenCheck (len : Nat) (s : State) : Option ErrorCode :=
  if s.config.msgCap < len then some .outOfRange else none

/-- `SETLEN imm`: `MLEN <- imm` (R122). -/
def execSetlen (len : Nat) (s : State) : Host.Outcome State Fault Refusal :=
  runCommand (encode (.setlen len)) (setlenCheck len) (fun t => .ok { t with mlen := immReg len }) s

/-- R123: `imm > CODE_CAP` raises `OUT_OF_RANGE`. -/
def setclenCheck (len : Nat) (s : State) : Option ErrorCode :=
  if s.config.codeCap < len then some .outOfRange else none

/-- `SETCLEN imm`: `CLEN <- imm` (R123). -/
def execSetclen (len : Nat) (s : State) : Host.Outcome State Fault Refusal :=
  runCommand (encode (.setclen len)) (setclenCheck len) (fun t => .ok { t with clen := immReg len }) s

/-- R124: `a ≥ CLEN` raises `OUT_OF_RANGE`. -/
def flipCheck (a : Nat) (s : State) : Option ErrorCode :=
  if s.clenVal ≤ a then some .outOfRange else none

/-- `CODE[a] <- not CODE[a]` (R124). -/
def flipBit (a : Nat) (s : State) : Except Fault State := do
  let b ← fetchBits s .code a 1
  storeBits s a (b.map (!·))

/-- `FLIP imm` inverts one bit of the code (R124). -/
def execFlip (a : Nat) (s : State) : Host.Outcome State Fault Refusal :=
  runCommand (encode (.flip a)) (flipCheck a) (flipBit a) s

/-- `CLRERR` clears the latch (R125). It is the one command a frozen engine executes (60_exceptions.md
R139), so it does not run in the frame of the others. -/
def execClrerr (s : State) : Host.Outcome State Fault Refusal := .next (clearError s).advance

end Sys2Proof.Machine
end

