-- ==== Sys2Proof/Machine/PbCodec.lean ====
section
/-! DEFINITION. Parity (00_scope.md R6) and the two functions of the parity-bit scheme: the encoder
(40_pb_encode.md R70) and the validator (42_pb_check.md R90, R92). -/

namespace Sys2Proof.Machine

open Sys2Proof

/-- `par(s)`: the sum of the elements modulo 2, which is their xor; `par([]) = 0` (R6). -/
def par : List Bit → Bit
  | [] => false
  | b :: s => xor b (par s)

/-- `s[lo..hi)` (00_scope.md section 6.1). -/
def slice (s : List Bit) (lo hi : Nat) : List Bit := (s.drop lo).take (hi - lo)

/-- R60: a block is its data bits followed by their parity. -/
def pbBlock (chunk : List Bit) : List Bit := chunk ++ [par chunk]

/-- Chunk `b` of the message: its data bits `b*k` to `min(b*k + k, len) - 1` (R70). -/
def pbChunk (m : List Bit) (k b : Nat) : List Bit := slice m (b * k) (min (b * k + k) m.length)

/-- `PBEncode(m, d)` (R70). -/
def pbEncode (m : List Bit) (d : Nat) : List Bit :=
  (List.range (ceilDiv m.length (d - 1))).flatMap fun b => pbBlock (pbChunk m (d - 1) b)

/-- `PBValid(b)`: the parity of all but the last element equals the last element (R90, R92). The spec
does not define it on the empty sequence and no command applies it there. -/
def pbValid (b : List Bit) : Bool := par b.dropLast == b.getLastD false

/-- Block `n` of a code framed by `d`: `CODE[n*d .. min((n+1)*d, len))` (30_encoding.md R61). -/
def pbBlockAt (code : List Bit) (d n : Nat) : List Bit :=
  slice code (n * d) (min (n * d + d) code.length)

end Sys2Proof.Machine
end

