-- ==== Sys2Proof/Machine/PbCheck.lean ====
section
/-! DEFINITION. `CHK.PB` and `CHKALL.PB` (42_pb_check.md R91, R93). -/

namespace Sys2Proof.Machine

open Sys2Proof

/-- The checks of `CHKALL.PB` in their order (R93; `imm ≠ 0` is the decoder's, R55). -/
def chkallPbCheck (s : State) : Option ErrorCode :=
  if s.dVal < 2 then some .badD
  else if s.clenVal = 0 then some .badLength
  else none

/-- The checks of `CHK.PB n` in their order (R91). -/
def chkPbCheck (n : Nat) (s : State) : Option ErrorCode :=
  if s.dVal < 2 then some .badD
  else if s.clenVal = 0 then some .badLength
  else if s.blocks ≤ n then some .outOfRange
  else none

/-- The effect of `CHK.PB n`: VALID is the verdict of block `n`, CORR is cleared (R91). -/
def chkPbEffect (n : Nat) (s : State) : Except Fault State := do
  let lo := n * s.dVal
  let hi := min (lo + s.dVal) s.clenVal
  let b ← fetchBits s .code lo (hi - lo)
  return s.setVerdict (pbValid b) false

/-- `CHK.PB n` validates one block (R91). -/
def execChkPb (n : Nat) (s : State) : Host.Outcome State Fault Refusal :=
  runCommand (encode (.chkPb n)) (chkPbCheck n) (chkPbEffect n) s

/-- The effect of `CHKALL.PB`: VALID is the conjunction over every block, no early exit, CORR is
cleared (R93). -/
def chkallPbEffect (s : State) : Except Fault State := do
  let code ← fetchBits s .code 0 s.clenVal
  let v := (List.range s.blocks).all fun n => pbValid (pbBlockAt code s.dVal n)
  return s.setVerdict v false

/-- `CHKALL.PB` validates every block of the code (R93). -/
def execChkallPb (s : State) : Host.Outcome State Fault Refusal :=
  runCommand (encode .chkallPb) chkallPbCheck chkallPbEffect s

end Sys2Proof.Machine
end

