-- ==== Sys2Proof/Machine/PbEncode.lean ====
section
/-! DEFINITION. `ENC.PB` (40_pb_encode.md R71). The check `imm ≠ 0` is the decoder's (R55). -/

namespace Sys2Proof.Machine

open Sys2Proof

/-- The length of the code `ENC.PB` writes, `MLEN + ceil(MLEN / (D-1))` (R71). -/
def encPbLength (s : State) : Nat := s.mlenVal + ceilDiv s.mlenVal (s.dVal - 1)

/-- The checks of `ENC.PB` in their order (R71). -/
def encPbCheck (s : State) : Option ErrorCode :=
  if s.dVal < 2 then some .badD
  else if s.mlenVal = 0 then some .badLength
  else if s.config.codeCap < encPbLength s then some .capacity
  else none

/-- The effect of `ENC.PB`: `CODE[0..CLEN) = PBEncode(MSG[0..MLEN), D)` and the new CLEN (R71).
DEDUCED (log 13): the whole message is read before the code is written. -/
def encPbEffect (s : State) : Except Fault State := do
  let m ← fetchBits s .msg 0 s.mlenVal
  let t ← storeBits s 0 (pbEncode m s.dVal)
  return { t with clen := countReg (encPbLength s) }

/-- `ENC.PB` encodes the message with the parity-bit scheme (R71). -/
def execEncPb (s : State) : Host.Outcome State Fault Refusal :=
  runCommand (encode .encPb) encPbCheck encPbEffect s

end Sys2Proof.Machine
end

