-- ==== Sys2Proof/Machine/PmCodec.lean ====
section
/-! DEFINITION. The functions of the parity-matrix scheme: padding, one matrix and the whole code
(41_pm_encode.md R80 to R82), and the syndromes, the candidates and the outcome of the validator and
corrector (43_pm_check.md R100 to R103). A grid lives inside one command only (10_state.md R27). -/

namespace Sys2Proof.Machine

open Sys2Proof

/-- A grid of bits: row, then column, both from 0 (30_encoding.md R62). -/
abbrev Grid := Nat → Nat → Bit

/-- The parity of the first `dim - 1` cells of row `r`. -/
def rowPar (dim : Nat) (g : Grid) (r : Nat) : Bit := par ((List.range (dim - 1)).map fun c => g r c)

/-- The parity of the first `dim - 1` cells of column `c`. -/
def colPar (dim : Nat) (g : Grid) (c : Nat) : Bit := par ((List.range (dim - 1)).map fun r => g r c)

/-- The cells of a grid row by row, row 0 first and column 0 first: `Flat(M)` (R81). -/
def flat (dim : Nat) (g : Grid) : List Bit :=
  (List.range dim).flatMap fun r => (List.range dim).map fun c => g r c

/-- The grid a flat sequence stands for: cell `(r, c)` is element `r * dim + c` (30_encoding.md
R63). -/
def gridOf (dim : Nat) (bits : List Bit) : Grid := fun r c => bits.getD (r * dim + c) false

/-! ### The encoder -/

/-- `Pad(m, k)` (R80): zero bits on the right up to a whole number of data regions. -/
def pad (m : List Bit) (k : Nat) : List Bit :=
  m ++ List.replicate (ceilDiv m.length k * k - m.length) false

/-- The data region of a matrix: `x[r * (dim-1) + c]` (R81). -/
def dataGrid (dim : Nat) (x : List Bit) : Grid := fun r c => x.getD (r * (dim - 1) + c) false

/-- The data rows of a matrix: data bits, then the row parity in column `dim - 1` (R81, step 3). -/
def dataRows (dim : Nat) (x : List Bit) : Grid := fun r c =>
  if c < dim - 1 then dataGrid dim x r c else rowPar dim (dataGrid dim x) r

/-- `PMMatrix(x, dim)` (R81): the data rows, and in row `dim - 1` the parity of every column, the
parity column included (step 4). -/
def pmMatrix (dim : Nat) (x : List Bit) : Grid := fun r c =>
  if r < dim - 1 then dataRows dim x r c else colPar dim (dataRows dim x) c

/-- The data bits of matrix `n`: `p[n*k .. (n+1)*k)` (R82). -/
def pmData (p : List Bit) (k n : Nat) : List Bit := slice p (n * k) ((n + 1) * k)

/-- `PMEncode(m, d)` (R82). -/
def pmEncode (m : List Bit) (d : Nat) : List Bit :=
  let dim := isqrt d
  let k := matrixData dim
  (List.range (ceilDiv m.length k)).flatMap fun n => flat dim (pmMatrix dim (pmData (pad m k) k n))

/-! ### The validator and corrector -/

/-- `rowbad(r)`: the parity of the data bits of row `r` against its row-parity bit (R101). -/
def rowBad (dim : Nat) (g : Grid) (r : Nat) : Bool := rowPar dim g r != g r (dim - 1)

/-- `colbad(c)`: the parity of column `c` of the data rows against the parity row (R101). -/
def colBad (dim : Nat) (g : Grid) (c : Nat) : Bool := colPar dim g c != g (dim - 1) c

/-- The mismatched data rows, ascending (R101, R106: the set `R`). The parity row is no data row. -/
def badRows (dim : Nat) (g : Grid) : List Nat := (List.range (dim - 1)).filter (rowBad dim g)

/-- The mismatched columns, ascending, the parity column among them (R101, R106: the set `C`). -/
def badCols (dim : Nat) (g : Grid) : List Nat := (List.range dim).filter (colBad dim g)

/-- The candidates in ascending row and, in a row, ascending column (R102). -/
def candidates (dim : Nat) (g : Grid) : List (Nat × Nat) :=
  (badRows dim g).flatMap fun r => (badCols dim g).map fun c => (r, c)

/-- What `PMCheck(m)` answers (R103). -/
structure PmResult where
  /-- The Boolean of N3's validator. -/
  verdict : Bool
  /-- The coordinate to invert, in the one-candidate case. -/
  flip    : Option (Nat × Nat)
  /-- The number of candidates. -/
  count   : Nat
  deriving DecidableEq, Repr

/-- `PMCheck(m)`: the outcome by the number of candidates (R103). -/
def pmCheck (dim : Nat) (g : Grid) : PmResult :=
  match candidates dim g with
  | []     => { verdict := true,  flip := none,   count := 0 }
  | [rc]   => { verdict := true,  flip := some rc, count := 1 }
  | c :: l => { verdict := false, flip := none,   count := (c :: l).length }

end Sys2Proof.Machine
end

