-- ==== Sys2Proof/Machine/PmCheck.lean ====
section
/-! DEFINITION. `CHK.PM` and `CHKALL.PM` (43_pm_check.md R104, R105). -/

namespace Sys2Proof.Machine

open Sys2Proof

/-- The checks of `CHKALL.PM` in their order (R105; `imm ≠ 0` is the decoder's, R55). -/
def chkallPmCheck (s : State) : Option ErrorCode :=
  if ¬ pmLegal s.dVal then some .badD
  else if s.clenVal = 0 then some .badLength
  else if s.clenVal % s.dVal ≠ 0 then some .badFrame
  else none

/-- The checks of `CHK.PM n` in their order (R104). -/
def chkPmCheck (n : Nat) (s : State) : Option ErrorCode :=
  if ¬ pmLegal s.dVal then some .badD
  else if s.clenVal = 0 then some .badLength
  else if s.clenVal % s.dVal ≠ 0 then some .badFrame
  else if s.matrices ≤ n then some .outOfRange
  else none

/-- Invert cell `(r, c)` of the matrix at `base` and write its coordinate to LOC; with no cell
located nothing is written (R103, R104). -/
def correctCell (base dim : Nat) (g : Grid) (s : State) : Option (Nat × Nat) → Except Fault State
  | none => .ok s
  | some (r, c) => do
    let t ← storeBits s (base + r * dim + c) [!(g r c)]
    return { t with loc := locReg r c }

/-- The effect of `CHK.PM n` (R104): the `D` bits of matrix `n` are checked as they stand (R101), the
one candidate, if there is exactly one, is inverted, and NCAND, VALID and CORR are written.
DEDUCED (log 13): the matrix is read whole before its one write. -/
def checkMatrix (n : Nat) (s : State) : Except Fault State := do
  let base := n * s.dVal
  let bits ← fetchBits s .code base s.dVal
  let g := gridOf s.dim bits
  let res := pmCheck s.dim g
  let t ← correctCell base s.dim g s res.flip
  return ({ t with ncand := countReg res.count }).setVerdict res.verdict res.flip.isSome

/-- `CHK.PM n` validates one matrix and corrects it when exactly one candidate is found (R104). -/
def execChkPm (n : Nat) (s : State) : Host.Outcome State Fault Refusal :=
  runCommand (encode (.chkPm n)) (chkPmCheck n) (checkMatrix n) s

/-- The loop of `CHKALL.PM` over the matrices of a list, in its order, with no early exit: `v` is the
conjunction of the verdicts so far and `k` the disjunction of the corrections; at the end VALID and
CORR are written (R105). -/
def checkMatrices : List Nat → Bool → Bool → State → Except Fault State
  | [], v, k, s => .ok (s.setVerdict v k)
  | n :: ns, v, k, s => do
    let t ← checkMatrix n s
    checkMatrices ns (v && t.valid) (k || t.corr) t

/-- The effect of `CHKALL.PM`: matrices 0 to `nm - 1` in ascending order (R105). -/
def chkallPmEffect (s : State) : Except Fault State :=
  checkMatrices (List.range s.matrices) true false s

/-- `CHKALL.PM` validates, and corrects where it can, every matrix of the code (R105). -/
def execChkallPm (s : State) : Host.Outcome State Fault Refusal :=
  runCommand (encode .chkallPm) chkallPmCheck chkallPmEffect s

end Sys2Proof.Machine
end

