-- ==== Sys2Proof/Machine/PmEncode.lean ====
section
/-! DEFINITION. `ENC.PM` (41_pm_encode.md R83). The check `imm ≠ 0` is the decoder's (R55). -/

namespace Sys2Proof.Machine

open Sys2Proof

/-- The length of the code `ENC.PM` writes, `ceil(MLEN / (dim-1)^2) * D` (R83). -/
def encPmLength (s : State) : Nat := ceilDiv s.mlenVal (matrixData s.dim) * s.dVal

/-- The checks of `ENC.PM` in their order (R83). -/
def encPmCheck (s : State) : Option ErrorCode :=
  if ¬ pmLegal s.dVal then some .badD
  else if s.mlenVal = 0 then some .badLength
  else if s.config.codeCap < encPmLength s then some .capacity
  else none

/-- The effect of `ENC.PM`: `CODE[0..CLEN) = PMEncode(MSG[0..MLEN), D)` and the new CLEN (R83).
DEDUCED (log 13): the whole message is read before the code is written. -/
def encPmEffect (s : State) : Except Fault State := do
  let m ← fetchBits s .msg 0 s.mlenVal
  let t ← storeBits s 0 (pmEncode m s.dVal)
  return { t with clen := countReg (encPmLength s) }

/-- `ENC.PM` encodes the message with the parity-matrix scheme (R83). -/
def execEncPm (s : State) : Host.Outcome State Fault Refusal :=
  runCommand (encode .encPm) encPmCheck encPmEffect s

end Sys2Proof.Machine
end

