-- ==== Sys2Proof/Machine/Dispatch.lean ====
section
/-! DEFINITION. One arm for each command of the opcode map (30_encoding.md R54). -/

namespace Sys2Proof.Machine

open Sys2Proof

/-- The whole effect of one command, `pos` advanced (20_memory.md R39, 10_state.md R11). -/
def exec (i : Instr) (s : State) : Host.Outcome State Fault Refusal :=
  match i with
  -- housekeeping (44_housekeeping.md)
  | .nop => Sys2Proof.Machine.execNop s
  | .setd d => Sys2Proof.Machine.execSetd d s
  | .setlen len => Sys2Proof.Machine.execSetlen len s
  | .setclen len => Sys2Proof.Machine.execSetclen len s
  | .flip a => Sys2Proof.Machine.execFlip a s
  | .clrerr => Sys2Proof.Machine.execClrerr s
  -- encoders (40_pb_encode.md, 41_pm_encode.md)
  | .encPb => Sys2Proof.Machine.execEncPb s
  | .encPm => Sys2Proof.Machine.execEncPm s
  -- validators (42_pb_check.md, 43_pm_check.md)
  | .chkPb n => Sys2Proof.Machine.execChkPb n s
  | .chkPm n => Sys2Proof.Machine.execChkPm n s
  | .chkallPb => Sys2Proof.Machine.execChkallPb s
  | .chkallPm => Sys2Proof.Machine.execChkallPm s

end Sys2Proof.Machine
end

