-- ==== Sys2Proof/Machine/HostPort.lean ====
section
/-! DEFINITION. What happens at the ports: a command word, a register read, a memory access, a reset
(20_memory.md R36 to R41, 70_reset_and_hazards.md R150 to R152). -/

namespace Sys2Proof.Machine

open Sys2Proof

/-- One command step: the word is decoded and its command executed; a word that is no command raises
`ILLEGAL_COMMAND` (30_encoding.md R56, R57). -/
def commandWord (w : Word) (s : State) : Host.Outcome State Fault Refusal :=
  match decode w with
  | .ok i => exec i s
  | .error _ => rejectWord w s

/-- A register read: the 32-bit view is answered, nothing else changes (R36). -/
def hostReadReg (n : BitVec 3) (s : State) : Host.Outcome State Fault Refusal :=
  .next { s with answers := .reg n (s.readReg n) :: s.answers }

/-- A memory read below the capacity: the bit is answered, nothing else changes (R37, R38); at or
above the capacity it is refused (R41; log 14). -/
def hostReadMem (sp : Space) (a : BitVec 24) (s : State) : Host.Outcome State Fault Refusal :=
  if a.toNat < s.cap sp then
    .next { s with answers := .bit sp a ((s.mem sp).read a.toNat) :: s.answers }
  else .refused (.hostAddress sp a)

/-- A memory write below the capacity (R37, R38); at or above the capacity it is refused (R41; log 14). -/
def hostWriteMem (sp : Space) (a : BitVec 24) (b : Bit) (s : State) :
    Host.Outcome State Fault Refusal :=
  if a.toNat < s.cap sp then .next (s.setMem sp ((s.mem sp).write a.toNat b))
  else .refused (.hostAddress sp a)

/-- Reset between commands (R150, R151). -/
def hostReset (s : State) : Host.Outcome State Fault Refusal := .next s.resetRegisters

/-- The checks of a command, in one place for R152. -/
def checkOf (s : State) : Instr → Option ErrorCode
  | .nop       => none
  | .setd _    => none
  | .setlen n  => setlenCheck n s
  | .setclen n => setclenCheck n s
  | .flip a    => flipCheck a s
  | .clrerr    => none
  | .encPb     => encPbCheck s
  | .encPm     => encPmCheck s
  | .chkPb n   => chkPbCheck n s
  | .chkPm n   => chkPmCheck n s
  | .chkallPb  => chkallPbCheck s
  | .chkallPm  => chkallPmCheck s

/-- The run of CODE a command could write, as address and length (R152). -/
def codeRange (s : State) : Instr → Nat × Nat
  | .nop       => (0, 0)
  | .setd _    => (0, 0)
  | .setlen _  => (0, 0)
  | .setclen _ => (0, 0)
  | .flip a    => (a, 1)
  | .clrerr    => (0, 0)
  | .encPb     => (0, s.config.codeCap)
  | .encPm     => (0, s.config.codeCap)
  | .chkPb _   => (0, 0)
  | .chkPm n   => (n * s.dVal, s.dVal)
  | .chkallPb  => (0, 0)
  | .chkallPm  => (0, s.clenVal)

/-- The run of CODE the word `w` could write in the state `s`: none when the engine is frozen
(60_exceptions.md R139), when the word is no command, or when a check fails (R141).
DEDUCED (log 7). -/
def writableRun (w : Word) (s : State) : Nat × Nat :=
  if s.err then (0, 0)
  else match decode w with
    | .error _ => (0, 0)
    | .ok i => if checkOf s i = none then codeRange s i else (0, 0)

/-- Reset while the command `w` executes (R152): the command is abandoned, the registers take their
reset values, the range the command could write holds the free bits `bits` (a shorter list leaves
the rest of the range as it was), and everything else in memory is unchanged.
DEDUCED (log 7): the abandoned command counts in `pos`, the host having handed it over. -/
def hostResetDuring (w : Word) (bits : List Bit) (s : State) : Host.Outcome State Fault Refusal :=
  match storeBits s (writableRun w s).1 (bits.take (writableRun w s).2) with
  | .ok t => .next t.resetRegisters.advance
  | .error f => .fault f

/-- One step of the host (R39). -/
def hostStep (e : HostStep) (s : State) : Host.Outcome State Fault Refusal :=
  match e with
  | .command w => commandWord w s
  | .readReg n => hostReadReg n s
  | .readMem sp a => hostReadMem sp a s
  | .writeMem sp a b => hostWriteMem sp a b s
  | .reset => hostReset s
  | .resetDuring w bits => hostResetDuring w bits s

/-- Nothing is offered: the engine waits (R150). DESIGN CHOICE (log 4): the step changes nothing. -/
def idleStep (s : State) : Host.Outcome State Fault Refusal := .next s

end Sys2Proof.Machine
end

