-- ==== Sys2Proof/Machine/Step.lean ====
section
/-! DEFINITION. One step of the machine: the next host step is taken from the list and carried out
(20_memory.md R39, R40; log 3). -/

namespace Sys2Proof.Machine

open Sys2Proof

/-- The state with the list of host steps replaced. -/
def State.withPending (s : State) (l : List HostStep) : State := { s with pending := l }

/-- One step: the first pending host step, or waiting when there is none (log 4). -/
def step (s : State) : Host.Outcome State Fault Refusal :=
  match s.pending with
  | [] => idleStep s
  | e :: rest => hostStep e (s.withPending rest)

/-- `s` with the word of a table row as the next command word the host offers. The machine fetches
from no memory (20_memory.md R44): its next command is the first one in the host's list (log 3). -/
def State.withFetchWord (s : State) (nbits w : Nat) : State :=
  s.withPending (.command (tableWord nbits w) :: s.pending)

end Sys2Proof.Machine
end

