-- ==== Sys2Proof/Safety.lean ====
section
/-! DEFINITION. What counts as a good state and a good run, in the terms the claims use: the
invariant of the machine, the meaning of a latched error, and a clean run. -/

namespace Sys2Proof.Machine

open Sys2Proof

/-- The invariant of N3PC: what the spec says always holds of the registers and the memories. -/
structure State.Inv (s : State) : Prop where
  /-- 00_scope.md R4. -/
  configLegal : s.config.legal
  /-- The canonical form of MSG, and no cell beyond its capacity (20_memory.md R30). -/
  msgWf : Memory.wf s.msg = true
  msgBelow : Memory.below s.config.msgCap s.msg = true
  /-- The canonical form of CODE, and no cell beyond its capacity (R30). -/
  codeWf : Memory.wf s.code = true
  codeBelow : Memory.below s.config.codeCap s.code = true
  /-- 10_state.md R14, 44_housekeeping.md R122: `SETLEN` checks it. -/
  mlenFits : s.mlenVal ≤ s.config.msgCap
  /-- 10_state.md R15: always `CLEN ≤ CODE_CAP`. -/
  clenFits : s.clenVal ≤ s.config.codeCap
  /-- 10_state.md R16, R23: the reserved bit reads 0. -/
  reservedZero : statusReserved s.status = false
  /-- 10_state.md R19: `ERRCODE = 0` exactly when `ERR = 0`. -/
  errcodeZero : s.errcode = 0 ↔ s.err = false
  /-- 60_exceptions.md R130: codes 7 to 15 are never written. -/
  errcodeKnown : s.errcode ≤ 6
  /-- 10_state.md R22: ERRCMD is 0 exactly when `ERR = 0`. -/
  errcmdZero : s.errcmd = 0 ↔ s.err = false
  /-- 10_state.md R20: `ROW ≤ dim - 2` and `COL ≤ dim - 1`, with `dim ≤ 4095`. -/
  rowFits : s.row ≤ 4093
  colFits : s.col ≤ 4094
  /-- 10_state.md R21: the count is at most 4094 * 4095. -/
  ncandFits : s.ncand.toNat ≤ 4094 * 4095

/-- Error entry as the spec describes it (60_exceptions.md R131), from the state `s` before the command
`w` to the state `t` after it: ERR and ERRCODE and ERRCMD are written, `pos` advances by one
(10_state.md R11), and every other bit of the state is as before. -/
structure Latched (e : ErrorCode) (w : Word) (s t : State) : Prop where
  errSet       : t.err = true
  errcodeIs    : t.errcode = e.code
  errcmdIs     : t.errcmd = w
  validKept    : t.valid = s.valid
  corrKept     : t.corr = s.corr
  reservedKept : statusReserved t.status = statusReserved s.status
  restKept     : t = { s with status := t.status, errcmd := t.errcmd, pos := s.pos + 1 }

/-- STATUS after a check command (10_state.md R17, R18): VALID and CORR written, every other bit of
STATUS as before. -/
structure Verdict (v k : Bool) (s t : State) : Prop where
  validIs      : t.valid = v
  corrIs       : t.corr = k
  errKept      : t.err = s.err
  errcodeKept  : t.errcode = s.errcode
  reservedKept : statusReserved t.status = statusReserved s.status

/-- The number of ones among `f 0` to `f (n-1)` is odd: `par` said by counting (00_scope.md R6). -/
def oddOnes (n : Nat) (f : Nat → Bit) : Bool := decide ((List.range n).countP f % 2 = 1)

/-- `Locates s n a`: `a` is the address of the cell that a check of matrix `n` in the state `s` inverts,
the one candidate of the matrix as CODE holds it, computed as `checkMatrix` does (43_pm_check.md R103,
R104). There is at most one such address. -/
def Locates (s : State) (n a : Nat) : Prop :=
  ∃ r c, (pmCheck s.dim (gridOf s.dim (s.code.readRun (n * s.dVal) s.dVal))).flip = some (r, c) ∧
    a = n * s.dVal + r * s.dim + c

/-- The errors a command can raise, the column "raised by" of the table of 60_exceptions.md R130.
`ILLEGAL_COMMAND` is raised by words that are no command. -/
def errorsOf : Instr → List ErrorCode
  | .nop       => []
  | .setd _    => []
  | .setlen _  => [.outOfRange]
  | .setclen _ => [.outOfRange]
  | .flip _    => [.outOfRange]
  | .clrerr    => []
  | .encPb     => [.badD, .badLength, .capacity]
  | .encPm     => [.badD, .badLength, .capacity]
  | .chkPb _   => [.badD, .badLength, .outOfRange]
  | .chkPm _   => [.badD, .badLength, .badFrame, .outOfRange]
  | .chkallPb  => [.badD, .badLength]
  | .chkallPm  => [.badD, .badLength, .badFrame]

/-- The word `w` can raise the error whose code is `c` (R130). -/
def wordRaises (w : Word) (c : BitVec 4) : Prop :=
  match decode w with
  | .ok i => ∃ e ∈ errorsOf i, e.code = c
  | .error _ => c = ErrorCode.illegalCommand.code

/-- A latched error is explained by the word in ERRCMD (R22, R130, R139: ERRCMD names the command). -/
def State.LatchExplained (s : State) : Prop := s.err = true → wordRaises s.errcmd s.errcode

/-- A state in which nothing has gone wrong so far (60_exceptions.md R139: a run in which ERR is ever
1 has gone wrong at that point). -/
abbrev State.Clean (s : State) : Prop := s.err = false

/-- The start states of a run (10_state.md R28, 70_reset_and_hazards.md R151): any implementation, any
memory contents in canonical form, any list of host steps. -/
def State.Start (s : State) : Prop :=
  ∃ (c : Config) (m k : Memory) (l : List HostStep), c.legal ∧ Memory.wf m = true ∧
    Memory.below c.msgCap m = true ∧ Memory.wf k = true ∧ Memory.below c.codeCap k = true ∧
    s = (State.launch c m k).withPending l

/-- The states a run reaches: from a start state by steps that answer a next state. -/
inductive State.Reached : State → Prop where
  | base (s : State) : s.Start → State.Reached s
  | tail (s t : State) : State.Reached s → step s = .next t → State.Reached t

end Sys2Proof.Machine
end

