-- ==== Sys2Proof/Certificates/Slice0/Obligations.lean ====
section
/-! DEFINITION. The statements for the provers. Each docstring names the rule of spec/ it formalises. -/

open Sys2Proof Sys2Proof.Machine

/-! ### Encoding and decoding -/

/-- 30_encoding.md R54, R58: the word of every well-formed command decodes to that command, with the
immediate at every value of its 24 bits. -/
def Obligations.DecodeOfEncodeIsTheCommand : Prop :=
  ∀ i : Instr, i.wf = true → decode (encode i) = .ok i

/-- 30_encoding.md R57, R59: every word that is a command is the word of exactly that command. -/
def Obligations.EncodeOfDecodeIsTheWord : Prop :=
  ∀ (w : Word) (i : Instr), decode w = .ok i → i.wf = true ∧ encode i = w

/-- 30_encoding.md R54: a word is a command exactly when it matches the command's row under the
row's mask; the immediate is bits 23 to 0. -/
def Obligations.OpcodeMapDecidesTheCommand : Prop :=
  ∀ w : Word,
    (w &&& 0xFFFFFFFF#32 = 0x00000000#32 ↔ decode w = .ok .nop) ∧
    (w &&& 0xFF000000#32 = 0x01000000#32 ↔ decode w = .ok (.setd (w.toNat % 2 ^ 24))) ∧
    (w &&& 0xFF000000#32 = 0x02000000#32 ↔ decode w = .ok (.setlen (w.toNat % 2 ^ 24))) ∧
    (w &&& 0xFF000000#32 = 0x03000000#32 ↔ decode w = .ok (.setclen (w.toNat % 2 ^ 24))) ∧
    (w &&& 0xFF000000#32 = 0x04000000#32 ↔ decode w = .ok (.flip (w.toNat % 2 ^ 24))) ∧
    (w &&& 0xFFFFFFFF#32 = 0x05000000#32 ↔ decode w = .ok .clrerr) ∧
    (w &&& 0xFFFFFFFF#32 = 0x10000000#32 ↔ decode w = .ok .encPb) ∧
    (w &&& 0xFFFFFFFF#32 = 0x11000000#32 ↔ decode w = .ok .encPm) ∧
    (w &&& 0xFF000000#32 = 0x20000000#32 ↔ decode w = .ok (.chkPb (w.toNat % 2 ^ 24))) ∧
    (w &&& 0xFF000000#32 = 0x21000000#32 ↔ decode w = .ok (.chkPm (w.toNat % 2 ^ 24))) ∧
    (w &&& 0xFFFFFFFF#32 = 0x30000000#32 ↔ decode w = .ok .chkallPb) ∧
    (w &&& 0xFFFFFFFF#32 = 0x31000000#32 ↔ decode w = .ok .chkallPm)

/-- 30_encoding.md R55, R56: which words are illegal (an unassigned opcode, or a nonzero immediate in
a command without an operand), which the 244 reserved opcodes are, what an illegal word does (it
raises `ILLEGAL_COMMAND` and changes nothing else when the engine is not frozen), and that the word 0
is the only no-op. -/
def Obligations.ReservedWordsRaiseIllegalCommand : Prop :=
  ((List.range 256).filter fun op =>
    op ∉ [0x00, 0x01, 0x02, 0x03, 0x04, 0x05, 0x10, 0x11, 0x20, 0x21, 0x30, 0x31]) =
    List.range' 0x06 10 ++ List.range' 0x12 14 ++ List.range' 0x22 14 ++ List.range' 0x32 206 ∧
  10 + 14 + 14 + 206 = 244 ∧
  ∀ w : Word,
    ((∃ e, decode w = .error e) ↔
      w.toNat / 2 ^ 24 ∉ [0x00, 0x01, 0x02, 0x03, 0x04, 0x05, 0x10, 0x11, 0x20, 0x21, 0x30, 0x31] ∨
      (w.toNat / 2 ^ 24 ∈ [0x00, 0x05, 0x10, 0x11, 0x30, 0x31] ∧ w.toNat % 2 ^ 24 ≠ 0)) ∧
    (decode w = .ok .nop ↔ w = 0x00000000#32) ∧
    ∀ (s : State) (rest : List HostStep), s.pending = .command w :: rest → s.err = false →
      (∃ e, decode w = .error e) →
      ∃ t, step s = .next t ∧ Latched .illegalCommand w { s with pending := rest } t

/-- 30_encoding.md R58 and the map R54: words the spec writes out, one of each family and more. -/
def Obligations.WordsOfTheSpecDecode : Prop :=
  decode 0x00000000#32 = .ok .nop ∧ decode 0x01000010#32 = .ok (.setd 16) ∧
  decode 0x020001F4#32 = .ok (.setlen 500) ∧ decode 0x03000012#32 = .ok (.setclen 18) ∧
  decode 0x04000012#32 = .ok (.flip 0x12) ∧ decode 0x05000000#32 = .ok .clrerr ∧
  decode 0x10000000#32 = .ok .encPb ∧ decode 0x11000000#32 = .ok .encPm ∧
  decode 0x20000002#32 = .ok (.chkPb 2) ∧ decode 0x21000003#32 = .ok (.chkPm 3) ∧
  decode 0x30000000#32 = .ok .chkallPb ∧ decode 0x31000000#32 = .ok .chkallPm

/-! ### The step and the host -/

/-- 20_memory.md R39: when the next host step gives a word that decodes to a command, the step is
that command's meaning on the state in which the host step is taken. `exec` itself advances `pos`. -/
def Obligations.StepRunsTheDecodedCommand : Prop :=
  ∀ (s : State) (rest : List HostStep) (w : Word) (i : Instr),
    s.pending = .command w :: rest → decode w = .ok i → step s = exec i { s with pending := rest }

/-- The model's own choice (log 4; 70_reset_and_hazards.md R150 says that the engine waits for the
first command): with nothing offered a step changes nothing. -/
def Obligations.StepWithNothingOfferedWaits : Prop :=
  ∀ s : State, s.pending = [] → step s = .next s

/-- 20_memory.md R36, 10_state.md R12, R23: a register read answers the 32-bit view of the register
with the upper bits zero, number 7 reads 0, and nothing of the hardware changes. That the answer is
kept in `answers` is the model's choice (log 5). -/
def Obligations.HostReadsTheRegisterView : Prop :=
  ∀ (s : State) (rest : List HostStep) (n : BitVec 3), s.pending = .readReg n :: rest →
    ∃ v : Word, step s = .next { s with pending := rest, answers := .reg n v :: s.answers } ∧
      (n = 0 → v.toNat = s.status.toNat) ∧ (n = 1 → v.toNat = s.d.toNat) ∧
      (n = 2 → v.toNat = s.mlen.toNat) ∧ (n = 3 → v.toNat = s.clen.toNat) ∧
      (n = 4 → v.toNat = s.loc.toNat) ∧ (n = 5 → v.toNat = s.ncand.toNat) ∧
      (n = 6 → v = s.errcmd) ∧ (n = 7 → v = 0)

/-- 20_memory.md R37, R38, R41: below the capacity of its memory a host read answers the bit and a
host write changes exactly that bit; at or above the capacity there is no answer. The model's choices:
the answer of a read is kept in `answers` (log 5), and an access without one is a refusal (log 14). -/
def Obligations.HostReachesExactlyTheMemories : Prop :=
  ∀ (s : State) (rest : List HostStep) (sp : Space) (a : BitVec 24), s.Inv →
    (s.pending = .readMem sp a :: rest → a.toNat < s.cap sp →
      step s = .next { s with pending := rest,
                              answers := .bit sp a ((s.mem sp).read a.toNat) :: s.answers }) ∧
    (∀ b, s.pending = .writeMem sp a b :: rest → a.toNat < s.cap sp →
      ∃ t, step s = .next t ∧ t = { s.setMem sp (t.mem sp) with pending := rest } ∧
        ∀ x, (t.mem sp).read x = if x = a.toNat then b else (s.mem sp).read x) ∧
    (s.cap sp ≤ a.toNat →
      (s.pending = .readMem sp a :: rest ∨ ∃ b, s.pending = .writeMem sp a b :: rest) →
      step s = .refused (.hostAddress sp a))

/-- 70_reset_and_hazards.md R150, R151, 10_state.md R28: reset between commands writes every register
its reset value 0 and leaves both memories and `pos` as they were. -/
def Obligations.ResetClearsTheRegistersOnly : Prop :=
  ∀ (s : State) (rest : List HostStep), s.pending = .reset :: rest →
    step s = .next { s with status := 0, d := 0, mlen := 0, clen := 0, loc := 0, ncand := 0,
                            errcmd := 0, pending := rest }

/-- 70_reset_and_hazards.md R152: a reset during a command gives the registers their reset values and
can change CODE only in the range the command could write; MSG is unchanged. The model's reading
(log 7): the abandoned command counts in `pos`, and the range is empty for a word a frozen engine
drops, for an illegal word and for a command one of whose checks fails. -/
def Obligations.ResetDuringACommandTouchesItsRangeOnly : Prop :=
  ∀ (s : State) (rest : List HostStep) (w : Word) (bits : List Bit), s.Inv →
    s.pending = .resetDuring w bits :: rest →
    ∃ t, step s = .next t ∧
      t = { s with status := 0, d := 0, mlen := 0, clen := 0, loc := 0, ncand := 0, errcmd := 0,
                   code := t.code, pending := rest, pos := s.pos + 1 } ∧
      ∀ a, t.code.read a ≠ s.code.read a →
        s.err = false ∧
        ((decode w = .ok .encPb ∧ 2 ≤ s.d.toNat ∧ 0 < s.mlen.toNat ∧
            s.mlen.toNat + ceilDiv s.mlen.toNat (s.d.toNat - 1) ≤ s.config.codeCap ∧
            a < s.config.codeCap) ∨
         (decode w = .ok .encPm ∧ pmLegal s.d.toNat ∧ 0 < s.mlen.toNat ∧
            ceilDiv s.mlen.toNat (matrixData (isqrt s.d.toNat)) * s.d.toNat ≤ s.config.codeCap ∧
            a < s.config.codeCap) ∨
         (decode w = .ok .chkallPm ∧ pmLegal s.d.toNat ∧ s.clen.toNat % s.d.toNat = 0 ∧
            a < s.clen.toNat) ∨
         (∃ n, decode w = .ok (.chkPm n) ∧ pmLegal s.d.toNat ∧ s.clen.toNat % s.d.toNat = 0 ∧
            n < s.clen.toNat / s.d.toNat ∧ n * s.d.toNat ≤ a ∧ a < (n + 1) * s.d.toNat) ∨
         (decode w = .ok (.flip a) ∧ a < s.clen.toNat))

/-- 70_reset_and_hazards.md R152, 93_implementation_defined.md V2: every content of the range is
possible after a reset during an encode, a matrix check or a flip that would have written. -/
def Obligations.ResetDuringACommandAllowsEveryContent : Prop :=
  ∀ (s : State) (rest : List HostStep) (w : Word) (content : Nat → Bit), s.Inv → s.err = false →
    ∃ (bits : List Bit) (t : State),
      step { s with pending := .resetDuring w bits :: rest } = .next t ∧
      (decode w = .ok .encPb → 2 ≤ s.d.toNat → 0 < s.mlen.toNat →
        s.mlen.toNat + ceilDiv s.mlen.toNat (s.d.toNat - 1) ≤ s.config.codeCap →
        ∀ a < s.config.codeCap, t.code.read a = content a) ∧
      (decode w = .ok .encPm → pmLegal s.d.toNat → 0 < s.mlen.toNat →
        ceilDiv s.mlen.toNat (matrixData (isqrt s.d.toNat)) * s.d.toNat ≤ s.config.codeCap →
        ∀ a < s.config.codeCap, t.code.read a = content a) ∧
      (decode w = .ok .chkallPm → pmLegal s.d.toNat → 0 < s.clen.toNat →
        s.clen.toNat % s.d.toNat = 0 → ∀ a < s.clen.toNat, t.code.read a = content a) ∧
      (∀ n, decode w = .ok (.chkPm n) → pmLegal s.d.toNat → 0 < s.clen.toNat →
        s.clen.toNat % s.d.toNat = 0 → n < s.clen.toNat / s.d.toNat →
        ∀ a, n * s.d.toNat ≤ a → a < (n + 1) * s.d.toNat → t.code.read a = content a) ∧
      (∀ a, decode w = .ok (.flip a) → a < s.clen.toNat → t.code.read a = content a)

/-! ### Housekeeping commands -/

/-- 44_housekeeping.md R120: `NOP` is the word 0 and no other, it does nothing but advance `pos`, and a word with
its opcode and a nonzero immediate is `ILLEGAL_COMMAND`. -/
def Obligations.NopChangesNothing : Prop :=
  (∀ w, decode w = .ok .nop ↔ w = 0x00000000#32) ∧ encode .nop = 0x00000000#32 ∧
  (∀ s : State, s.err = false → exec .nop s = .next { s with pos := s.pos + 1 }) ∧
  ∀ (s : State) (rest : List HostStep) (w : Word), s.err = false →
    w.toNat / 2 ^ 24 = 0 → w ≠ 0 → s.pending = .command w :: rest →
    ∃ t, step s = .next t ∧ Latched .illegalCommand w { s with pending := rest } t

/-- 44_housekeeping.md R121: `SETD imm` is the word `0x01000000 | d`, it accepts every 24-bit value and
writes D and nothing else. -/
def Obligations.SetdWritesD : Prop :=
  ∀ (d : Nat) (s : State), d < 2 ^ 24 → s.err = false →
    encode (.setd d) = 0x01000000#32 ||| BitVec.ofNat 32 d ∧
    ∃ t, exec (.setd d) s = .next t ∧ t.d.toNat = d ∧ t = { s with d := t.d, pos := s.pos + 1 }

/-- 44_housekeeping.md R122: `SETLEN imm` writes MLEN when `imm ≤ MSG_CAP`, and raises `OUT_OF_RANGE`,
MLEN kept, when `imm > MSG_CAP`; a length of 0 is accepted, and an encode then raises `BAD_LENGTH`. -/
def Obligations.SetlenWritesMlenOrRaises : Prop :=
  ∀ (n : Nat) (s : State), n < 2 ^ 24 → s.err = false →
    encode (.setlen n) = 0x02000000#32 ||| BitVec.ofNat 32 n ∧
    (n ≤ s.config.msgCap → ∃ t, exec (.setlen n) s = .next t ∧ t.mlen.toNat = n ∧
      t = { s with mlen := t.mlen, pos := s.pos + 1 } ∧
      (n = 0 → 2 ≤ s.d.toNat →
        ∃ u, exec .encPb t = .next u ∧ Latched .badLength 0x10000000#32 t u) ∧
      (n = 0 → pmLegal s.d.toNat →
        ∃ u, exec .encPm t = .next u ∧ Latched .badLength 0x11000000#32 t u)) ∧
    (s.config.msgCap < n → ∃ t, exec (.setlen n) s = .next t ∧
      Latched .outOfRange (encode (.setlen n)) s t)

/-- 44_housekeeping.md R123: `SETCLEN imm` writes CLEN when `imm ≤ CODE_CAP`, and raises
`OUT_OF_RANGE`, CLEN kept, when `imm > CODE_CAP`; a length of 0 is accepted, and then every check
command raises `BAD_LENGTH` and `FLIP` raises `OUT_OF_RANGE`. -/
def Obligations.SetclenWritesClenOrRaises : Prop :=
  ∀ (n : Nat) (s : State), n < 2 ^ 24 → s.err = false →
    encode (.setclen n) = 0x03000000#32 ||| BitVec.ofNat 32 n ∧
    (n ≤ s.config.codeCap → ∃ t, exec (.setclen n) s = .next t ∧ t.clen.toNat = n ∧
      t = { s with clen := t.clen, pos := s.pos + 1 } ∧
      (n = 0 → ∀ i : Instr,
        (2 ≤ s.d.toNat ∧ (i = .chkallPb ∨ ∃ k, i = .chkPb k)) ∨
        (pmLegal s.d.toNat ∧ (i = .chkallPm ∨ ∃ k, i = .chkPm k)) →
        ∃ u, exec i t = .next u ∧ Latched .badLength (encode i) t u) ∧
      (n = 0 → ∀ a, ∃ u, exec (.flip a) t = .next u ∧ Latched .outOfRange (encode (.flip a)) t u)) ∧
    (s.config.codeCap < n → ∃ t, exec (.setclen n) s = .next t ∧
      Latched .outOfRange (encode (.setclen n)) s t)

/-- 44_housekeeping.md R124: `FLIP a` inverts the bit `CODE[a]` and nothing else when `a < CLEN`,
whatever D is; twice it restores CODE; on CODE it is the same as the host writing the inverse of the
bit it read. It raises `OUT_OF_RANGE`, CODE unchanged, when `a ≥ CLEN`. -/
def Obligations.FlipInvertsOneCodeBit : Prop :=
  ∀ (a : Nat) (s : State), a < 2 ^ 24 → s.Inv → s.err = false →
    encode (.flip a) = 0x04000000#32 ||| BitVec.ofNat 32 a ∧
    (a < s.clen.toNat → ∃ t, exec (.flip a) s = .next t ∧
      t = { s with code := t.code, pos := s.pos + 1 } ∧
      (∀ x, t.code.read x = if x = a then !s.code.read a else s.code.read x) ∧
      (∃ u, exec (.flip a) t = .next u ∧ u.code = s.code) ∧
      ∃ v, hostWriteMem .code (BitVec.ofNat 24 a) (!s.code.read a) s = .next v ∧ v.code = t.code) ∧
    (s.clen.toNat ≤ a → ∃ t, exec (.flip a) s = .next t ∧
      Latched .outOfRange (encode (.flip a)) s t)

/-- 44_housekeeping.md R125, 60_exceptions.md R140: `CLRERR`, in every state, clears ERR, ERRCODE and
ERRCMD and restores nothing else; with no error latched it changes nothing; with a nonzero immediate
it is `ILLEGAL_COMMAND`, or dropped when the engine is frozen. -/
def Obligations.ClrerrClearsTheLatchOnly : Prop :=
  encode .clrerr = 0x05000000#32 ∧
  (∀ s : State, ∃ t, exec .clrerr s = .next t ∧
    t.err = false ∧ t.errcode = 0 ∧ t.errcmd = 0 ∧ t.valid = s.valid ∧ t.corr = s.corr ∧
    statusReserved t.status = statusReserved s.status ∧
    t = { s with status := t.status, errcmd := t.errcmd, pos := s.pos + 1 } ∧
    (s.Inv → s.err = false → t = { s with pos := s.pos + 1 })) ∧
  ∀ (s : State) (rest : List HostStep) (w : Word), w.toNat / 2 ^ 24 = 5 → w ≠ 0x05000000#32 →
    s.pending = .command w :: rest →
    (s.err = false →
      ∃ t, step s = .next t ∧ Latched .illegalCommand w { s with pending := rest } t) ∧
    (s.err = true → step s = .next { s with pending := rest, pos := s.pos + 1 })

/-! ### The encoders -/

/-- 40_pb_encode.md R71: when no check fails `ENC.PB` completes; CODE then holds the encoding of the
message from address 0, CLEN its length, and everything else is as before. -/
def Obligations.EncPbWritesTheCode : Prop :=
  ∀ s : State, s.Inv → s.err = false → 2 ≤ s.d.toNat → 0 < s.mlen.toNat →
    s.mlen.toNat + ceilDiv s.mlen.toNat (s.d.toNat - 1) ≤ s.config.codeCap →
    ∃ t, exec .encPb s = .next t ∧
      t = { s with code := t.code, clen := t.clen, pos := s.pos + 1 } ∧
      t.clen.toNat = s.mlen.toNat + ceilDiv s.mlen.toNat (s.d.toNat - 1) ∧
      t.code.readRun 0 t.clen.toNat = pbEncode (s.msg.readRun 0 s.mlen.toNat) s.d.toNat ∧
      ∀ a, t.clen.toNat ≤ a → t.code.read a = s.code.read a

/-- 30_encoding.md R60, R61, 40_pb_encode.md R70: where `ENC.PB` puts every bit. Message bit `j` lies
in block `j div (D-1)` behind the bits before it, and the last bit of every block is the parity of
the block's data bits. -/
def Obligations.EncPbLaysOutBlocks : Prop :=
  ∀ s t : State, s.Inv → s.err = false → exec .encPb s = .next t → t.err = false →
    (∀ j < s.mlen.toNat,
      t.code.read (j / (s.d.toNat - 1) * s.d.toNat + j % (s.d.toNat - 1)) = s.msg.read j) ∧
    ∀ b < ceilDiv s.mlen.toNat (s.d.toNat - 1),
      t.code.read (min ((b + 1) * s.d.toNat) t.clen.toNat - 1) =
        oddOnes (min ((b + 1) * (s.d.toNat - 1)) s.mlen.toNat - b * (s.d.toNat - 1))
          fun i => s.msg.read (b * (s.d.toNat - 1) + i)

/-- 41_pm_encode.md R83: when no check fails `ENC.PM` completes; CODE then holds the encoding of the
message from address 0, CLEN its length, and everything else is as before. -/
def Obligations.EncPmWritesTheCode : Prop :=
  ∀ s : State, s.Inv → s.err = false → ∀ dim, 2 ≤ dim → s.d.toNat = dim * dim →
    0 < s.mlen.toNat →
    ceilDiv s.mlen.toNat ((dim - 1) * (dim - 1)) * s.d.toNat ≤ s.config.codeCap →
    ∃ t, exec .encPm s = .next t ∧
      t = { s with code := t.code, clen := t.clen, pos := s.pos + 1 } ∧
      t.clen.toNat = ceilDiv s.mlen.toNat ((dim - 1) * (dim - 1)) * s.d.toNat ∧
      t.code.readRun 0 t.clen.toNat = pmEncode (s.msg.readRun 0 s.mlen.toNat) s.d.toNat ∧
      ∀ a, t.clen.toNat ≤ a → t.code.read a = s.code.read a

/-- 30_encoding.md R62, R63, 41_pm_encode.md R80 to R82: where `ENC.PM` puts every bit. The data cells
hold the message in order, then zeros; the last cell of a data row is the parity of the row's data
bits; each cell of the parity row, the corner too, is the parity of the data rows' cells above it. -/
def Obligations.EncPmLaysOutMatrices : Prop :=
  ∀ s t : State, s.Inv → s.err = false → exec .encPm s = .next t → t.err = false →
    ∀ dim, s.d.toNat = dim * dim →
    ∀ n < ceilDiv s.mlen.toNat ((dim - 1) * (dim - 1)),
      (∀ r < dim - 1, ∀ c < dim - 1,
        t.code.read (n * s.d.toNat + r * dim + c) =
          if n * ((dim - 1) * (dim - 1)) + r * (dim - 1) + c < s.mlen.toNat
          then s.msg.read (n * ((dim - 1) * (dim - 1)) + r * (dim - 1) + c) else false) ∧
      (∀ r < dim - 1,
        t.code.read (n * s.d.toNat + r * dim + (dim - 1)) =
          oddOnes (dim - 1) fun c => t.code.read (n * s.d.toNat + r * dim + c)) ∧
      ∀ c < dim,
        t.code.read (n * s.d.toNat + (dim - 1) * dim + c) =
          oddOnes (dim - 1) fun r => t.code.read (n * s.d.toNat + r * dim + c)

/-- 40_pb_encode.md R71, 60_exceptions.md R130, R138: `ENC.PB` raises the first cause that holds, in
the order of its checks, and changes nothing else. -/
def Obligations.EncPbRaisesItsFirstCause : Prop :=
  ∀ s : State, s.err = false →
    (s.d.toNat < 2 → ∃ t, exec .encPb s = .next t ∧ Latched .badD 0x10000000#32 s t) ∧
    (2 ≤ s.d.toNat → s.mlen.toNat = 0 →
      ∃ t, exec .encPb s = .next t ∧ Latched .badLength 0x10000000#32 s t) ∧
    (2 ≤ s.d.toNat → 0 < s.mlen.toNat →
      s.config.codeCap < s.mlen.toNat + ceilDiv s.mlen.toNat (s.d.toNat - 1) →
      ∃ t, exec .encPb s = .next t ∧ Latched .capacity 0x10000000#32 s t)

/-- 41_pm_encode.md R83, 60_exceptions.md R130, R138: `ENC.PM` raises the first cause that holds, in
the order of its checks, and changes nothing else. D is legal when it is the square of a `dim ≥ 2`. -/
def Obligations.EncPmRaisesItsFirstCause : Prop :=
  ∀ s : State, s.err = false →
    ((¬ ∃ dim, 2 ≤ dim ∧ dim * dim = s.d.toNat) →
      ∃ t, exec .encPm s = .next t ∧ Latched .badD 0x11000000#32 s t) ∧
    ∀ dim, 2 ≤ dim → dim * dim = s.d.toNat →
      (s.mlen.toNat = 0 → ∃ t, exec .encPm s = .next t ∧ Latched .badLength 0x11000000#32 s t) ∧
      (0 < s.mlen.toNat →
        s.config.codeCap < ceilDiv s.mlen.toNat ((dim - 1) * (dim - 1)) * s.d.toNat →
        ∃ t, exec .encPm s = .next t ∧ Latched .capacity 0x11000000#32 s t)

/-- 70_reset_and_hazards.md R158: encoding again, whatever CODE holds meanwhile, gives the same code
at the same length, for both schemes. -/
def Obligations.EncodeAgainGivesTheSameCode : Prop :=
  ∀ (i : Instr) (s t : State) (k : Memory), i = .encPb ∨ i = .encPm → s.Inv → s.err = false →
    exec i s = .next t → t.err = false → k.wf = true → k.below s.config.codeCap = true →
    ∃ u, exec i { t with code := k } = .next u ∧ u.clen = t.clen ∧
      ∀ a < t.clen.toNat, u.code.read a = t.code.read a

/-! ### The parity-bit validator -/

/-- 42_pb_check.md R90, R91, R94: when no check fails `CHK.PB n` completes; VALID says whether block
`n`, short or not, has an even number of ones, CORR is cleared, and nothing else is written. -/
def Obligations.ChkPbReportsBlockParity : Prop :=
  ∀ (n : Nat) (s : State), s.Inv → s.err = false → 2 ≤ s.d.toNat → 0 < s.clen.toNat →
    n < ceilDiv s.clen.toNat s.d.toNat →
    ∃ t, exec (.chkPb n) s = .next t ∧ t = { s with status := t.status, pos := s.pos + 1 } ∧
      Verdict (!oddOnes (min ((n + 1) * s.d.toNat) s.clen.toNat - n * s.d.toNat)
        fun i => s.code.read (n * s.d.toNat + i)) false s t

/-- 42_pb_check.md R93: when no check fails `CHKALL.PB` completes; VALID is the conjunction of what
`CHK.PB 0`, ..., `CHK.PB nb-1` would write, CORR is cleared, and nothing else is written. -/
def Obligations.ChkallPbIsTheConjunction : Prop :=
  ∀ s : State, s.Inv → s.err = false → 2 ≤ s.d.toNat → 0 < s.clen.toNat →
    ∃ t v, exec .chkallPb s = .next t ∧ t = { s with status := t.status, pos := s.pos + 1 } ∧
      Verdict v false s t ∧
      (v = true ↔ ∀ n < ceilDiv s.clen.toNat s.d.toNat,
        ∃ u, exec (.chkPb n) s = .next u ∧ u.valid = true)

/-- 42_pb_check.md R91, R93, 60_exceptions.md R130, R138: the two parity-bit checks raise the first
cause that holds, in the order of their checks, and change nothing else. -/
def Obligations.PbChecksRaiseTheirFirstCause : Prop :=
  ∀ (n : Nat) (s : State), n < 2 ^ 24 → s.err = false →
    (s.d.toNat < 2 →
      (∃ t, exec (.chkPb n) s = .next t ∧ Latched .badD (encode (.chkPb n)) s t) ∧
      ∃ t, exec .chkallPb s = .next t ∧ Latched .badD 0x30000000#32 s t) ∧
    (2 ≤ s.d.toNat → s.clen.toNat = 0 →
      (∃ t, exec (.chkPb n) s = .next t ∧ Latched .badLength (encode (.chkPb n)) s t) ∧
      ∃ t, exec .chkallPb s = .next t ∧ Latched .badLength 0x30000000#32 s t) ∧
    (2 ≤ s.d.toNat → 0 < s.clen.toNat → ceilDiv s.clen.toNat s.d.toNat ≤ n →
      ∃ t, exec (.chkPb n) s = .next t ∧ Latched .outOfRange (encode (.chkPb n)) s t)

/-! ### The parity-matrix validator and corrector -/

/-- 43_pm_check.md R101 to R104, R106: when no check fails `CHK.PM n` completes, and what it does goes
by the mismatched data rows and columns of matrix `n`. With none of one kind the verdict is true and
CODE and LOC are kept; with one of each the cell where they meet is inverted, LOC names it and the
verdict is true; otherwise the verdict is false and CODE and LOC are kept. NCAND is their product. -/
def Obligations.ChkPmLocatesAndCorrects : Prop :=
  ∀ (n : Nat) (s : State) (dim : Nat) (rows cols : List Nat), s.Inv → s.err = false →
    2 ≤ dim → s.d.toNat = dim * dim → 0 < s.clen.toNat → s.clen.toNat % s.d.toNat = 0 →
    n < s.clen.toNat / s.d.toNat →
    rows = (List.range (dim - 1)).filter (fun r =>
      oddOnes dim fun c => s.code.read (n * s.d.toNat + r * dim + c)) →
    cols = (List.range dim).filter (fun c =>
      oddOnes dim fun r => s.code.read (n * s.d.toNat + r * dim + c)) →
    ∃ t, exec (.chkPm n) s = .next t ∧ t.ncand.toNat = rows.length * cols.length ∧
      t = { s with status := t.status, loc := t.loc, ncand := t.ncand, code := t.code,
                   pos := s.pos + 1 } ∧
      ((rows = [] ∨ cols = []) → Verdict true false s t ∧ t.loc = s.loc ∧ t.code = s.code) ∧
      (∀ r c, rows = [r] → cols = [c] → Verdict true true s t ∧ t.row = r ∧ t.col = c ∧
        ∀ a, t.code.read a =
          if a = n * s.d.toNat + r * dim + c then !s.code.read a else s.code.read a) ∧
      (1 ≤ rows.length → 1 ≤ cols.length → 3 ≤ rows.length + cols.length →
        Verdict false false s t ∧ t.loc = s.loc ∧ t.code = s.code)

/-- 43_pm_check.md R105: when no check fails `CHKALL.PM` completes; its final state is the state after
`CHK.PM 0`, ..., `CHK.PM nm-1` in that order, except that VALID is the conjunction and CORR the
disjunction of theirs (and that `pos` counts one command). -/
def Obligations.ChkallPmIsTheSequenceOfChecks : Prop :=
  ∀ (s : State) (dim : Nat), s.Inv → s.err = false → 2 ≤ dim → s.d.toNat = dim * dim →
    0 < s.clen.toNat → s.clen.toNat % s.d.toNat = 0 →
    ∃ (u : Nat → State) (t : State), u 0 = s ∧
      (∀ n < s.clen.toNat / s.d.toNat, exec (.chkPm n) (u n) = .next (u (n + 1))) ∧
      exec .chkallPm s = .next t ∧
      t = { u (s.clen.toNat / s.d.toNat) with status := t.status, pos := s.pos + 1 } ∧
      Verdict t.valid t.corr s t ∧
      (t.valid = true ↔ ∀ n < s.clen.toNat / s.d.toNat, (u (n + 1)).valid = true) ∧
      (t.corr = true ↔ ∃ n < s.clen.toNat / s.d.toNat, (u (n + 1)).corr = true)

/-- 10_state.md R24, 20_memory.md R42, 43_pm_check.md R103: `CHKALL.PM` writes no register but STATUS,
LOC and NCAND, no bit at CLEN or above, at most one bit in each matrix, and none in a parity row. -/
def Obligations.ChkallPmChangesOneBitPerMatrix : Prop :=
  ∀ (s t : State) (dim : Nat), s.Inv → s.err = false → s.d.toNat = dim * dim →
    exec .chkallPm s = .next t → t.err = false →
    t = { s with status := t.status, loc := t.loc, ncand := t.ncand, code := t.code,
                 pos := s.pos + 1 } ∧
    (∀ a, s.clen.toNat ≤ a → t.code.read a = s.code.read a) ∧
    (∀ a b, a / s.d.toNat = b / s.d.toNat → t.code.read a ≠ s.code.read a →
      t.code.read b ≠ s.code.read b → a = b) ∧
    ∀ a, t.code.read a ≠ s.code.read a → a % s.d.toNat / dim < dim - 1

/-- 43_pm_check.md R104, R105, 60_exceptions.md R130, R138: the two matrix checks raise the first cause
that holds, in the order of their checks, and change nothing else. -/
def Obligations.PmChecksRaiseTheirFirstCause : Prop :=
  ∀ (n : Nat) (s : State), n < 2 ^ 24 → s.err = false →
    ((¬ ∃ dim, 2 ≤ dim ∧ dim * dim = s.d.toNat) →
      (∃ t, exec (.chkPm n) s = .next t ∧ Latched .badD (encode (.chkPm n)) s t) ∧
      ∃ t, exec .chkallPm s = .next t ∧ Latched .badD 0x31000000#32 s t) ∧
    ∀ dim, 2 ≤ dim → dim * dim = s.d.toNat →
      (s.clen.toNat = 0 →
        (∃ t, exec (.chkPm n) s = .next t ∧ Latched .badLength (encode (.chkPm n)) s t) ∧
        ∃ t, exec .chkallPm s = .next t ∧ Latched .badLength 0x31000000#32 s t) ∧
      (0 < s.clen.toNat → s.clen.toNat % s.d.toNat ≠ 0 →
        (∃ t, exec (.chkPm n) s = .next t ∧ Latched .badFrame (encode (.chkPm n)) s t) ∧
        ∃ t, exec .chkallPm s = .next t ∧ Latched .badFrame 0x31000000#32 s t) ∧
      (0 < s.clen.toNat → s.clen.toNat % s.d.toNat = 0 → s.clen.toNat / s.d.toNat ≤ n →
        ∃ t, exec (.chkPm n) s = .next t ∧ Latched .outOfRange (encode (.chkPm n)) s t)

/-- 43_pm_check.md R110: a second check of one matrix changes no bit of CODE and corrects nothing, its
verdict is that of the first, and after a false verdict NCAND is the same; `CHKALL.PM` twice gives
CORR = 0 the second time. -/
def Obligations.SecondCheckIsStable : Prop :=
  (∀ (n : Nat) (s t : State), s.Inv → s.err = false → exec (.chkPm n) s = .next t → t.err = false →
    ∃ u, exec (.chkPm n) t = .next u ∧ u.valid = t.valid ∧ u.corr = false ∧ u.code = t.code ∧
      (t.valid = false → u.ncand = t.ncand ∧ t.code = s.code)) ∧
  ∀ s t : State, s.Inv → s.err = false → exec .chkallPm s = .next t → t.err = false →
    ∃ u, exec .chkallPm t = .next u ∧ u.corr = false ∧ u.code = t.code

/-! ### Whole-machine rules -/

/-- 60_exceptions.md R139: while ERR = 1 every word other than exactly 0x05000000 is dropped and only
`pos` advances; the word 0x05000000 is executed; and host steps are not affected. That the answer of a read is kept in
`answers` is the model's choice (log 5). -/
def Obligations.FrozenEngineDropsAllButClrerr : Prop :=
  ∀ (s : State) (rest : List HostStep), s.err = true →
    (∀ w, w ≠ 0x05000000#32 → s.pending = .command w :: rest →
      step s = .next { s with pending := rest, pos := s.pos + 1 }) ∧
    (s.pending = .command 0x05000000#32 :: rest →
      step s = exec .clrerr { s with pending := rest } ∧ ∃ t, step s = .next t ∧ t.err = false) ∧
    (∀ n, s.pending = .readReg n :: rest →
      step s = .next { s with pending := rest, answers := .reg n (s.readReg n) :: s.answers }) ∧
    (∀ sp a, a.toNat < s.cap sp → s.pending = .readMem sp a :: rest →
      step s = .next { s with pending := rest,
                              answers := .bit sp a ((s.mem sp).read a.toNat) :: s.answers }) ∧
    (∀ sp a b, a.toNat < s.cap sp → s.pending = .writeMem sp a b :: rest →
      step s = .next { s.setMem sp ((s.mem sp).write a.toNat b) with pending := rest })

/-- 60_exceptions.md R131, R141: whenever a command word leaves an error latched that was not latched
before, it has done exactly the error entry: one of the errors the word can raise, its code, the word
itself, `pos` advanced, and every other bit of the state as before. The six codes are 1 to 6. -/
def Obligations.ErrorEntryIsPrecise : Prop :=
  ErrorCode.illegalCommand.code = 1 ∧ ErrorCode.badD.code = 2 ∧ ErrorCode.badLength.code = 3 ∧
  ErrorCode.badFrame.code = 4 ∧ ErrorCode.outOfRange.code = 5 ∧ ErrorCode.capacity.code = 6 ∧
  ∀ (w : Word) (s t : State), s.err = false → commandWord w s = .next t → t.err = true →
    ∃ e, Latched e w s t ∧ wordRaises w e.code

/-- 20_memory.md R47: the engine never writes MSG; after any command word MSG holds what it held
before. -/
def Obligations.NoCommandWritesMsg : Prop :=
  ∀ (w : Word) (s t : State), commandWord w s = .next t → t.msg = s.msg

/-- 10_state.md R24: what each command may write, register by register and bit by bit, and that it
writes only when it raises no error; everything a command does not list is as before. A frozen engine
writes nothing, an error writes ERR, ERRCODE and ERRCMD, and `pos` advances in every case. The one bit
of CODE that `FLIP` may write is its address; an encode writes below the new CLEN; a matrix check
writes the one cell it locates in a matrix of the code (`Locates`, computed as its meaning does). -/
def Obligations.CommandsWriteTheirTableRowOnly : Prop :=
  ∀ (i : Instr) (s t : State), exec i s = .next t →
    t.msg = s.msg ∧ t.config = s.config ∧ t.pending = s.pending ∧ t.answers = s.answers ∧
    t.pos = s.pos + 1 ∧
    (s.err = true → i ≠ .clrerr → t = { s with pos := s.pos + 1 }) ∧
    (s.err = false → t.err = true → ∃ e ∈ errorsOf i, Latched e (encode i) s t) ∧
    (t.d ≠ s.d → ∃ d, i = .setd d) ∧
    (t.mlen ≠ s.mlen → ∃ n, i = .setlen n) ∧
    (t.clen ≠ s.clen → (∃ n, i = .setclen n) ∨ i = .encPb ∨ i = .encPm) ∧
    (t.loc ≠ s.loc ∨ t.ncand ≠ s.ncand → (∃ n, i = .chkPm n) ∨ i = .chkallPm) ∧
    (t.loc ≠ s.loc → t.corr = true) ∧
    (t.valid ≠ s.valid ∨ t.corr ≠ s.corr →
      (∃ n, i = .chkPb n) ∨ (∃ n, i = .chkPm n) ∨ i = .chkallPb ∨ i = .chkallPm) ∧
    (t.err ≠ s.err ∨ t.errcode ≠ s.errcode ∨ t.errcmd ≠ s.errcmd → i = .clrerr ∨ t.err = true) ∧
    statusReserved t.status = statusReserved s.status ∧
    (t.code ≠ s.code →
      (∃ a, i = .flip a) ∨ i = .encPb ∨ i = .encPm ∨ (∃ n, i = .chkPm n) ∨ i = .chkallPm) ∧
    (s.Inv → ∀ a, t.code.read a ≠ s.code.read a →
      t.err = false ∧
      ((i = .flip a ∧ a < s.clenVal) ∨
       (i = .encPb ∧ t.clenVal = encPbLength s ∧ a < encPbLength s) ∨
       (i = .encPm ∧ t.clenVal = encPmLength s ∧ a < encPmLength s) ∨
       ∃ n, (i = .chkPm n ∨ i = .chkallPm) ∧ n < s.matrices ∧ Locates s n a ∧
         n * s.dVal ≤ a ∧ a < (n + 1) * s.dVal))

/-- 10_state.md R17, R18: VALID and CORR are written by the four check commands, when they raise no
error, and by reset, and by no other step of any kind. -/
def Obligations.VerdictsChangeByChecksAndResetOnly : Prop :=
  ∀ (s t : State) (e : HostStep) (rest : List HostStep), s.pending = e :: rest →
    step s = .next t → (t.valid ≠ s.valid ∨ t.corr ≠ s.corr) →
    e = .reset ∨ (∃ w bits, e = .resetDuring w bits) ∨
    ∃ w i, e = .command w ∧ decode w = .ok i ∧ t.err = false ∧
      ((∃ n, i = .chkPb n) ∨ (∃ n, i = .chkPm n) ∨ i = .chkallPb ∨ i = .chkallPm)

/-- 10_state.md R11: every command word advances `pos` by exactly one, when it succeeds, when it
raises an error and when it is dropped; no register read, memory access or reset between commands
touches it. The model's choices: a reset during a command counts the abandoned command (log 7), and a
step takes its host step from the list `pending` (log 3). -/
def Obligations.PosCountsTheCommands : Prop :=
  ∀ (s t : State) (e : HostStep) (rest : List HostStep), s.pending = e :: rest → step s = .next t →
    t.pending = rest ∧
    ((∃ w, e = .command w) → t.pos = s.pos + 1) ∧
    ((∃ n, e = .readReg n) ∨ (∃ sp a, e = .readMem sp a) ∨ (∃ sp a b, e = .writeMem sp a b) ∨
      e = .reset → t.pos = s.pos) ∧
    ((∃ w bits, e = .resetDuring w bits) → t.pos = s.pos + 1)

/-- 20_memory.md R31, R32, R42, 41_pm_encode.md R80: no command reads MSG at MLEN or above or CODE at
CLEN or above. Two states that differ only there end with the same registers and the same code, and
what lies beyond the code stays as it was. (`SETCLEN` may bring cells it did not read into the code.) -/
def Obligations.CommandsReadMessageAndCodeOnly : Prop :=
  ∀ (i : Instr) (s s' t : State), s.Inv → s'.Inv →
    s' = { s with msg := s'.msg, code := s'.code } →
    (∀ a < s.mlen.toNat, s'.msg.read a = s.msg.read a) →
    (∀ a < s.clen.toNat, s'.code.read a = s.code.read a) →
    exec i s = .next t →
    ∃ t', exec i s' = .next t' ∧ t' = { t with msg := s'.msg, code := t'.code } ∧
      ((∀ n, i ≠ .setclen n) → ∀ a < t.clen.toNat, t'.code.read a = t.code.read a) ∧
      ∀ a, s.clen.toNat ≤ a → t.clen.toNat ≤ a → t'.code.read a = s'.code.read a

/-- 70_reset_and_hazards.md R162, 00_scope.md R9, 20_memory.md R41: every command word given in a state
with the invariant completes, no step faults, and a step is refused only for a host access at or above
the capacity of its memory. That an engine access outside its memory would be a fault and such a host
access is a refusal are the model's choices (logs 6 and 14). -/
def Obligations.NoCommandStopsTheMachine : Prop :=
  ∀ s : State, s.Inv →
    (∀ w, ∃ t, commandWord w s = .next t) ∧ (∀ f, step s ≠ .fault f) ∧
    ∀ q, step s = .refused q → ∃ sp a rest, q = .hostAddress sp a ∧ s.cap sp ≤ a.toNat ∧
      (s.pending = .readMem sp a :: rest ∨ ∃ b, s.pending = .writeMem sp a b :: rest)

/-- The invariant of the machine (`State.Inv`: 10_state.md R14 to R16, R19 to R23, 20_memory.md R30, 00_scope.md R4) is
kept by every step, whatever the host does. -/
def Obligations.StepKeepsTheInvariant : Prop :=
  ∀ s t : State, s.Inv → step s = .next t → t.Inv

/-- The invariant holds at reset and at every start state: any capacities of 00_scope.md R4, any
memory contents (10_state.md R28, 70_reset_and_hazards.md R151), any list of host steps. -/
def Obligations.StartStatesHaveTheInvariant : Prop :=
  State.reset.Inv ∧ ∀ s : State, s.Start → s.Inv

/-- 10_state.md R22, 60_exceptions.md R130, R139: every step keeps this: a latched error is explained
by ERRCMD, which holds a word that can raise the error whose code is in ERRCODE. -/
def Obligations.LatchStaysExplained : Prop :=
  ∀ s t : State, s.LatchExplained → step s = .next t → t.LatchExplained

/-- 10_state.md R28, 70_reset_and_hazards.md R151, R162, 60_exceptions.md R139: every state a run
reaches from a start state has the invariant, has its latched error explained, and goes on: a further
step never faults, and a command offered in it completes. -/
def Obligations.ReachedStatesAreGoodAndGoOn : Prop :=
  ∀ s : State, s.Reached →
    s.Inv ∧ s.LatchExplained ∧ (∀ f, step s ≠ .fault f) ∧
    ∀ w rest, s.pending = .command w :: rest → ∃ t, step s = .next t ∧ t.Reached

/-! ### What the codes do -/

/-- 00_scope.md R7: `isqrt(n)` is the largest natural whose square is at most `n`, `n` is a perfect
square exactly when `isqrt(n) * isqrt(n) = n`, and the spec's examples. -/
def Obligations.IsqrtIsTheLargestRoot : Prop :=
  (∀ n, isqrt n * isqrt n ≤ n ∧ (∀ s, s * s ≤ n → s ≤ isqrt n) ∧
    ((∃ s, s * s = n) ↔ isqrt n * isqrt n = n)) ∧
  isqrt 0 = 0 ∧ isqrt 3 = 1 ∧ isqrt 4 = 2 ∧ isqrt 15 = 3 ∧ isqrt 16 = 4 ∧
  isqrt (2 ^ 24 - 1) = 4095

/-- 42_pb_check.md R92, R94: a block is valid exactly when it has an even number of ones, and a valid
block with any set of positions inverted, the parity position included, stays valid exactly when the
set has an even size. -/
def Obligations.BlockIsValidByEvenWeight : Prop :=
  ∀ b : List Bit, b ≠ [] →
    (pbValid b = true ↔ b.count true % 2 = 0) ∧
    ∀ flips : Nat → Bool, pbValid b = true →
      (pbValid (b.mapIdx fun i x => xor x (flips i)) = true ↔
        (List.range b.length).countP flips % 2 = 0)

/-- 30_encoding.md R61, R64, 42_pb_check.md R91: a reader who knows `d` and the code length finds
exactly the blocks the encoder wrote. -/
def Obligations.BlocksReadBackAsWritten : Prop :=
  ∀ (m : List Bit) (d : Nat), 2 ≤ d →
    (pbEncode m d).length = m.length + ceilDiv m.length (d - 1) ∧
    ceilDiv (pbEncode m d).length d = ceilDiv m.length (d - 1) ∧
    ∀ n < ceilDiv m.length (d - 1),
      pbBlockAt (pbEncode m d) d n = pbBlock (pbChunk m (d - 1) n)

/-- 40_pb_encode.md R72: after an `ENC.PB` that raised no error, `CHKALL.PB` and every `CHK.PB n` with
`n < ceil(CLEN / D)` report VALID = 1. -/
def Obligations.EncodedBlocksPass : Prop :=
  ∀ s t : State, s.Inv → s.err = false → exec .encPb s = .next t → t.err = false →
    (∃ u, exec .chkallPb t = .next u ∧ Verdict true false t u) ∧
    ∀ n < ceilDiv t.clen.toNat t.d.toNat, ∃ u, exec (.chkPb n) t = .next u ∧ Verdict true false t u

/-- 41_pm_encode.md R84: every row of an encoded matrix, the parity row included, and every column has
an even number of ones, so the corner is the parity of the row parities and of the column parities. -/
def Obligations.EncodedMatrixHasEvenRowsAndColumns : Prop :=
  ∀ (dim : Nat) (x : List Bit), 2 ≤ dim →
    (∀ r < dim, oddOnes dim (fun c => pmMatrix dim x r c) = false) ∧
    (∀ c < dim, oddOnes dim (fun r => pmMatrix dim x r c) = false) ∧
    pmMatrix dim x (dim - 1) (dim - 1) = oddOnes (dim - 1) (fun r => pmMatrix dim x r (dim - 1)) ∧
    pmMatrix dim x (dim - 1) (dim - 1) = oddOnes (dim - 1) (fun c => pmMatrix dim x (dim - 1) c)

/-- 41_pm_encode.md R84: after an `ENC.PM` that raised no error, every `CHK.PM n` and `CHKALL.PM` report
VALID = 1 with no candidate and leave CODE and LOC as they were. -/
def Obligations.EncodedMatricesPass : Prop :=
  ∀ s t : State, s.Inv → s.err = false → exec .encPm s = .next t → t.err = false →
    (∀ n < t.clen.toNat / t.d.toNat, ∃ u, exec (.chkPm n) t = .next u ∧ Verdict true false t u ∧
      u.ncand = 0 ∧ u.code = t.code ∧ u.loc = t.loc) ∧
    ∃ u, exec .chkallPm t = .next u ∧ Verdict true false t u ∧ u.ncand = 0 ∧ u.code = t.code ∧
      u.loc = t.loc

/-- 43_pm_check.md R103, R106: the outcome by the number of mismatched data rows and columns. The count
is their product; true with no flip exactly when one kind is absent; a flip exactly when there is one
of each, and then at their meeting; false exactly when both are present and there are at least three. -/
def Obligations.OutcomeByBadRowsAndColumns : Prop :=
  ∀ (dim : Nat) (g : Grid) (nr nc : Nat),
    nr = (badRows dim g).length → nc = (badCols dim g).length →
    (pmCheck dim g).count = nr * nc ∧
    ((pmCheck dim g).verdict = true ∧ (pmCheck dim g).flip = none ↔ nr = 0 ∨ nc = 0) ∧
    ((∃ rc, (pmCheck dim g).flip = some rc) ↔ nr = 1 ∧ nc = 1) ∧
    ((pmCheck dim g).verdict = false ↔ 1 ≤ nr ∧ 1 ≤ nc ∧ 3 ≤ nr + nc) ∧
    ∀ r c, (pmCheck dim g).flip = some (r, c) →
      (pmCheck dim g).verdict = true ∧ badRows dim g = [r] ∧ badCols dim g = [c]

/-- 43_pm_check.md section 3: in an encoded matrix with any set of cells inverted, a data row is
mismatched exactly when it holds an odd number of them, and a column exactly when it does, all `dim`
rows counted. -/
def Obligations.SyndromesOfFlips : Prop :=
  ∀ (dim : Nat) (x : List Bit) (flips : Grid), 2 ≤ dim →
    (∀ r < dim - 1, rowBad dim (fun r c => xor (pmMatrix dim x r c) (flips r c)) r =
      oddOnes dim (fun c => flips r c)) ∧
    ∀ c < dim, colBad dim (fun r c => xor (pmMatrix dim x r c) (flips r c)) c =
      oddOnes dim (fun r => flips r c)

/-- 43_pm_check.md R108: two flips of an encoded matrix are never miscorrected; they are detected
exactly when they share neither a row nor a column; and the number of candidates is 4, 2 or 0. -/
def Obligations.TwoFlipsAreNeverMiscorrected : Prop :=
  ∀ (dim : Nat) (x : List Bit) (r1 c1 r2 c2 : Nat) (m : Grid), 2 ≤ dim →
    r1 < dim → c1 < dim → r2 < dim → c2 < dim → (r1, c1) ≠ (r2, c2) →
    (∀ r c, m r c = if (r, c) = (r1, c1) ∨ (r, c) = (r2, c2) then !pmMatrix dim x r c
      else pmMatrix dim x r c) →
    (pmCheck dim m).flip = none ∧
    ((pmCheck dim m).verdict = false ↔ r1 ≠ r2 ∧ c1 ≠ c2) ∧
    (pmCheck dim m).count =
      if r1 ≠ r2 ∧ c1 ≠ c2 then (if r1 < dim - 1 ∧ r2 < dim - 1 then 4 else 2) else 0

/-- 43_pm_check.md R107, on the hardware: after an `ENC.PM` that raised no error, one `FLIP` of any cell
and a `CHK.PM` of its matrix always give VALID = 1. A cell of a data row is restored exactly, with its
coordinate in LOC; a cell of the parity row is not seen and stays inverted. -/
def Obligations.SingleFlipIsRestoredInDataRows : Prop :=
  ∀ (s t : State) (dim n r c : Nat), s.Inv → s.err = false → exec .encPm s = .next t →
    t.err = false → t.d.toNat = dim * dim → n < t.clen.toNat / t.d.toNat → r < dim → c < dim →
    ∃ u v, exec (.flip (n * t.d.toNat + r * dim + c)) t = .next u ∧
      exec (.chkPm n) u = .next v ∧
      (r < dim - 1 → Verdict true true t v ∧ v.code = t.code ∧ v.row = r ∧ v.col = c ∧
        v.ncand.toNat = 1) ∧
      (r = dim - 1 → Verdict true false t v ∧ v.code = u.code ∧ v.loc = t.loc ∧
        v.ncand.toNat = 0 ∧ v.code ≠ t.code)

/-- 43_pm_check.md R109, the spec's two smallest examples: an encoded matrix `m`, what three flips made
of it, and what the corrector leaves with a true verdict, which is the encoded matrix of other data.
For `dim = 3`: 101/110/011, received as 011/100/011, left as 011/000/011. For `dim = 2`: 11/11,
received as 01/00, left as 00/00. -/
def Obligations.ThreeFlipsCanBeMiscorrected : Prop :=
  (∃ m received left : List Bit,
    m = [true, false, true, true, true, false, false, true, true] ∧
    received = [false, true, true, true, false, false, false, true, true] ∧
    left = [false, true, true, false, false, false, false, true, true] ∧
    flat 3 (pmMatrix 3 [true, false, true, true]) = m ∧
    ((List.range 9).filter fun i => m.getD i false != received.getD i false) = [0, 1, 4] ∧
    pmCheck 3 (gridOf 3 received) = { verdict := true, flip := some (1, 0), count := 1 } ∧
    received.set (1 * 3 + 0) (!gridOf 3 received 1 0) = left ∧
    flat 3 (pmMatrix 3 [false, true, false, false]) = left ∧
    ((List.range 9).filter fun i => m.getD i false != left.getD i false).length = 4) ∧
  ∃ m received left : List Bit,
    m = [true, true, true, true] ∧ received = [false, true, false, false] ∧
    left = [false, false, false, false] ∧
    flat 2 (pmMatrix 2 [true]) = m ∧
    ((List.range 4).filter fun i => m.getD i false != received.getD i false) = [0, 2, 3] ∧
    pmCheck 2 (gridOf 2 received) = { verdict := true, flip := some (0, 1), count := 1 } ∧
    received.set (0 * 2 + 1) (!gridOf 2 received 0 1) = left ∧
    flat 2 (pmMatrix 2 [false]) = left
end

