-- ==== Sys2Proof/Laws/Arith.lean ====
section
/-! SUPPORT. The arithmetic of the rules: the bitwise square root, the rounded-up quotient, and what a
24-bit register gives back of a natural. -/

namespace Sys2Proof.Machine

open Sys2Proof

/-- The loop of `isqrt` keeps `r * r ≤ n < (r + 2^b)^2` and narrows it to one value. -/
theorem isqrtFrom_bounds (n : Nat) : ∀ b r, r * r ≤ n → n < (r + 2 ^ b) * (r + 2 ^ b) →
    isqrtFrom n b r * isqrtFrom n b r ≤ n ∧ n < (isqrtFrom n b r + 1) * (isqrtFrom n b r + 1) := by
  intro b
  induction b with
  | zero => intro r h1 h2; exact ⟨h1, by simpa [isqrtFrom] using h2⟩
  | succ b ih =>
    intro r h1 h2
    have hp : r + 2 ^ (b + 1) = r + 2 ^ b + 2 ^ b := by rw [Nat.pow_succ]; omega
    unfold isqrtFrom
    split
    · next h => exact ih _ h (hp ▸ h2)
    · next h => exact ih _ h1 (by omega)

/-- The start value of the loop is large enough. -/
theorem lt_isqrt_start (n : Nat) : n < (0 + 2 ^ (n.log2 / 2 + 1)) * (0 + 2 ^ (n.log2 / 2 + 1)) := by
  have h : n < 2 ^ (n.log2 + 1) := Nat.lt_log2_self
  refine Nat.lt_of_lt_of_le h ?_
  rw [Nat.zero_add, ← Nat.pow_add]
  exact Nat.pow_le_pow_right (by omega) (by omega)

/-- `isqrt n` is a root from below. -/
theorem isqrt_mul_le (n : Nat) : isqrt n * isqrt n ≤ n :=
  (isqrtFrom_bounds n _ 0 (by simp) (lt_isqrt_start n)).1

/-- The next natural is not. -/
theorem lt_succ_isqrt_mul (n : Nat) : n < (isqrt n + 1) * (isqrt n + 1) :=
  (isqrtFrom_bounds n _ 0 (by simp) (lt_isqrt_start n)).2

/-- The square root is the one value between its square and the next. -/
theorem isqrt_eq {n s : Nat} (h1 : s * s ≤ n) (h2 : n < (s + 1) * (s + 1)) : isqrt n = s := by
  have a := isqrt_mul_le n
  have b := lt_succ_isqrt_mul n
  rcases Nat.lt_trichotomy (isqrt n) s with h | h | h
  · have := Nat.mul_le_mul (Nat.succ_le_of_lt h) (Nat.succ_le_of_lt h)
    simp only [Nat.succ_eq_add_one] at this
    omega
  · exact h
  · have := Nat.mul_le_mul (Nat.succ_le_of_lt h) (Nat.succ_le_of_lt h)
    simp only [Nat.succ_eq_add_one] at this
    omega

@[simp] theorem isqrt_square (s : Nat) : isqrt (s * s) = s := by
  apply isqrt_eq (Nat.le_refl _)
  simp only [Nat.add_mul, Nat.mul_add]; omega

/-- R7, R20: the side of a matrix is at most 4095 when D has 24 bits. -/
theorem isqrt_le_of_lt {n : Nat} (h : n < 2 ^ 24) : isqrt n ≤ 4095 := by
  have := isqrt_mul_le n
  by_contra hc
  have := Nat.mul_le_mul (show 4096 ≤ isqrt n by omega) (show 4096 ≤ isqrt n by omega)
  omega

/-! ### `ceilDiv` -/

/-- `a` elements in chunks of `b`: chunk `n` is among the `ceil(a / b)` exactly when it begins before
the end. -/
theorem lt_ceilDiv {a b n : Nat} (hb : 0 < b) : n < ceilDiv a b ↔ n * b < a := by
  unfold ceilDiv
  rw [← Nat.succ_le_iff, Nat.le_div_iff_mul_le hb, Nat.succ_mul]
  omega

theorem ceilDiv_le {a b n : Nat} (hb : 0 < b) : ceilDiv a b ≤ n ↔ a ≤ n * b := by
  have := lt_ceilDiv (a := a) (n := n) hb
  omega

theorem ceilDiv_mul (n : Nat) {b : Nat} (hb : 0 < b) : ceilDiv (n * b) b = n := by
  apply Nat.le_antisymm
  · exact (ceilDiv_le hb).2 (Nat.le_refl _)
  · by_contra h
    have := (lt_ceilDiv (a := n * b) (n := ceilDiv (n * b) b) hb).2
      (Nat.mul_lt_mul_of_pos_right (by omega) hb)
    omega

theorem le_ceilDiv_mul (a : Nat) {b : Nat} (hb : 0 < b) : a ≤ ceilDiv a b * b :=
  (ceilDiv_le hb).1 (Nat.le_refl _)

/-! ### Registers -/

@[simp] theorem toNat_countReg {n : Nat} (h : n < 2 ^ 24) : (countReg n).toNat = n := by
  rw [countReg, BitVec.toNat_ofNat, Nat.mod_eq_of_lt h]

@[simp] theorem toNat_immReg {n : Nat} (h : n < 2 ^ 24) : (immReg n).toNat = n := by
  rw [immReg, BitVec.toNat_ofNat, Nat.mod_eq_of_lt h]

theorem dVal_lt (s : State) : s.dVal < 2 ^ 24 := s.d.isLt
theorem mlenVal_lt (s : State) : s.mlenVal < 2 ^ 24 := s.mlen.isLt
theorem clenVal_lt (s : State) : s.clenVal < 2 ^ 24 := s.clen.isLt

/-- ROW of LOC (R20). -/
theorem row_locReg (r c : Nat) : ((locReg r c).extractLsb' 12 12).toNat = r % 2 ^ 12 := by
  have h : (locReg r c).extractLsb' 12 12 = BitVec.ofNat 12 r := by
    ext i hi
    have h1 : 12 + i < 24 := by omega
    have h2 : ¬ 12 + i < 12 := by omega
    simp [locReg, h1, hi]
  rw [h, BitVec.toNat_ofNat]

/-- COL of LOC (R20). -/
theorem col_locReg (r c : Nat) : ((locReg r c).extractLsb' 0 12).toNat = c % 2 ^ 12 := by
  have h : (locReg r c).extractLsb' 0 12 = BitVec.ofNat 12 c := by
    ext i hi
    have h1 : i < 24 := by omega
    simp [locReg, h1, hi]
  rw [h, BitVec.toNat_ofNat]

end Sys2Proof.Machine
end

