-- ==== Sys2Proof/Laws/Codec.lean ====
section
/-! SUPPORT. Parity as a sum modulo 2, slices, and the lengths and elements of the two encodings. -/

namespace Sys2Proof.Machine

open Sys2Proof

/-! ### Parity -/

@[simp] theorem par_nil : par [] = false := rfl
@[simp] theorem par_cons (b : Bit) (s : List Bit) : par (b :: s) = xor b (par s) := rfl

/-- Parity is the number of ones modulo 2 (R6). -/
theorem par_eq_count (s : List Bit) : par s = decide (s.count true % 2 = 1) := by
  induction s with
  | nil => rfl
  | cons b s ih =>
    rw [par_cons, ih]
    cases b
    · simp
    · rw [List.count_cons_self, Bool.true_xor, ← decide_not]
      exact decide_eq_decide.2 (by omega)

theorem par_append (s t : List Bit) : par (s ++ t) = xor (par s) (par t) := by
  induction s with
  | nil => simp
  | cons b s ih => simp [ih]

/-- Parity is linear: the parity of an elementwise xor is the xor of the parities. -/
theorem par_map_xor {α : Type} (l : List α) (f g : α → Bit) :
    par (l.map fun x => xor (f x) (g x)) = xor (par (l.map f)) (par (l.map g)) := by
  induction l with
  | nil => rfl
  | cons x l ih =>
    simp only [List.map_cons, par_cons, ih]
    cases f x <;> cases g x <;> simp

/-- The order of summation does not matter. -/
theorem par_map_comm {α β : Type} (l : List α) (l' : List β) (f : α → β → Bit) :
    par (l.map fun x => par (l'.map fun y => f x y)) =
      par (l'.map fun y => par (l.map fun x => f x y)) := by
  induction l with
  | nil =>
    have : ∀ l' : List β, par (l'.map fun _ => false) = false := by
      intro l'; induction l' with
      | nil => rfl
      | cons y l' ih => simpa using ih
    exact (this l').symm
  | cons x l ih =>
    simp only [List.map_cons, par_cons, ih]
    rw [← par_map_xor]

theorem par_congr {n : Nat} {f g : Nat → Bit} (h : ∀ i < n, f i = g i) :
    par ((List.range n).map f) = par ((List.range n).map g) := by
  congr 1
  exact List.map_congr_left fun i hi => h i (List.mem_range.1 hi)

theorem par_range_succ (n : Nat) (f : Nat → Bit) :
    par ((List.range (n + 1)).map f) = xor (par ((List.range n).map f)) (f n) := by
  simp [List.range_succ, par_append]

/-- A validator on data bits and a last bit (R90). -/
@[simp] theorem pbValid_concat (s : List Bit) (b : Bit) : pbValid (s ++ [b]) = (par s == b) := by
  simp [pbValid]

/-! ### Slices -/

theorem length_slice (s : List Bit) (lo hi : Nat) :
    (slice s lo hi).length = min (hi - lo) (s.length - lo) := by simp [slice]

theorem getD_slice {s : List Bit} {lo hi i : Nat} (h : i < hi - lo) (d : Bit) :
    (slice s lo hi).getD i d = s.getD (lo + i) d := by
  simp [slice, List.getD_eq_getElem?_getD, h]

/-! ### Pieces laid back to back -/

theorem length_flatMap_range {α : Type} {f : Nat → List α} {L N : Nat}
    (h : ∀ n < N, (f n).length = L) : ((List.range N).flatMap f).length = N * L := by
  induction N with
  | zero => simp
  | succ N ih =>
    rw [List.range_succ, List.flatMap_append, List.length_append, ih fun n hn => h n (by omega)]
    simp [h N (by omega), Nat.succ_mul]

/-- Element `i` of piece `n`, when every piece but the last has `L` elements. -/
theorem getD_flatMap_range {α : Type} {f : Nat → List α} {L N : Nat}
    (h : ∀ n, n + 1 < N → (f n).length = L) {n i : Nat} (hn : n < N) (hi : i < (f n).length) (d : α) :
    ((List.range N).flatMap f).getD (n * L + i) d = (f n).getD i d := by
  induction N with
  | zero => omega
  | succ N ih =>
    have hlen : ((List.range N).flatMap f).length = N * L :=
      length_flatMap_range fun n hn => h n (by omega)
    rw [List.range_succ, List.flatMap_append, List.getD_eq_getElem?_getD]
    by_cases hN : n < N
    · have hL : (f n).length = L := h n (by omega)
      have hlt : n * L + i < N * L := by
        have := Nat.mul_le_mul_right L (Nat.succ_le_of_lt hN)
        rw [Nat.succ_mul] at this
        omega
      rw [List.getElem?_append_left (by rw [hlen]; exact hlt), ← List.getD_eq_getElem?_getD]
      exact ih (fun n hn => h n (by omega)) hN
    · have : n = N := by omega
      subst this
      rw [List.getElem?_append_right (by rw [hlen]; omega), hlen]
      simp [List.getD_eq_getElem?_getD]

/-! ### The parity-bit scheme -/

theorem length_pbChunk (m : List Bit) (k b : Nat) :
    (pbChunk m k b).length = min k (m.length - b * k) := by
  rw [pbChunk, length_slice]; omega

@[simp] theorem length_pbBlock (c : List Bit) : (pbBlock c).length = c.length + 1 := by
  simp [pbBlock]

/-- The length of a parity-bit code: a parity bit for each block (R70). -/
theorem length_pbEncode (m : List Bit) {d : Nat} (hd : 2 ≤ d) :
    (pbEncode m d).length = m.length + ceilDiv m.length (d - 1) := by
  have hk : 0 < d - 1 := by omega
  have key : ∀ N, ((List.range N).flatMap fun b => pbBlock (pbChunk m (d - 1) b)).length =
      min (N * (d - 1)) m.length + N := by
    intro N
    induction N with
    | zero => simp
    | succ N ih =>
      rw [List.range_succ, List.flatMap_append, List.length_append, ih]
      simp only [List.flatMap_cons, List.flatMap_nil, List.append_nil, length_pbBlock,
        length_pbChunk, Nat.succ_mul]
      omega
  rw [pbEncode, key, Nat.min_eq_right (le_ceilDiv_mul _ hk)]

/-- A block that is not the last one is full (R61). -/
theorem length_pbChunk_full {m : List Bit} {k b : Nat} (hk : 0 < k)
    (h : b + 1 < ceilDiv m.length k) : (pbChunk m k b).length = k := by
  have := (lt_ceilDiv hk).1 h
  rw [Nat.succ_mul] at this
  rw [length_pbChunk]; omega

/-- Every block holds at least one data bit (R70). -/
theorem length_pbChunk_pos {m : List Bit} {k b : Nat} (hk : 0 < k)
    (h : b < ceilDiv m.length k) : 0 < (pbChunk m k b).length := by
  have := (lt_ceilDiv hk).1 h
  rw [length_pbChunk]; omega

/-- Bit `i` of block `b` lies at `b * d + i` (R61). -/
theorem getD_pbEncode {m : List Bit} {d b i : Nat} (hd : 2 ≤ d)
    (hb : b < ceilDiv m.length (d - 1)) (hi : i < (pbChunk m (d - 1) b).length + 1) (x : Bit) :
    (pbEncode m d).getD (b * d + i) x = (pbBlock (pbChunk m (d - 1) b)).getD i x := by
  refine getD_flatMap_range (fun n hn => ?_) hb (by simpa using hi) x
  rw [length_pbBlock, length_pbChunk_full (by omega) hn]
  omega

theorem getD_pbBlock_data {c : List Bit} {i : Nat} (h : i < c.length) (x : Bit) :
    (pbBlock c).getD i x = c.getD i x := by
  simp [pbBlock, List.getD_eq_getElem?_getD, List.getElem?_append_left h]

theorem getD_pbBlock_parity (c : List Bit) (x : Bit) : (pbBlock c).getD c.length x = par c := by
  simp [pbBlock, List.getD_eq_getElem?_getD]

/-- Data bit `i` of block `b` is message bit `b * k + i` (R70). -/
theorem getD_pbChunk {m : List Bit} {k b i : Nat} (h : i < (pbChunk m k b).length) (x : Bit) :
    (pbChunk m k b).getD i x = m.getD (b * k + i) x := by
  rw [length_pbChunk] at h
  exact getD_slice (by omega) x

/-! ### The parity-matrix scheme -/

@[simp] theorem length_flat (dim : Nat) (g : Grid) : (flat dim g).length = dim * dim := by
  rw [flat, length_flatMap_range (L := dim)]; simp

/-- Cell `(r, c)` of a grid lies at `r * dim + c` (R63). -/
theorem getD_flat {dim r c : Nat} (g : Grid) (hr : r < dim) (hc : c < dim) (x : Bit) :
    (flat dim g).getD (r * dim + c) x = g r c := by
  rw [flat, getD_flatMap_range (by simp) hr (by simpa using hc)]
  simp [List.getD_eq_getElem?_getD, hc]

theorem length_pad {m : List Bit} {k : Nat} (hk : 0 < k) :
    (pad m k).length = ceilDiv m.length k * k := by
  have := le_ceilDiv_mul m.length hk
  simp [pad]; omega

/-- Padding adds zeros only (R80). -/
theorem getD_pad (m : List Bit) (k i : Nat) : (pad m k).getD i false = m.getD i false := by
  by_cases h : i < m.length
  · simp [pad, List.getD_eq_getElem?_getD, List.getElem?_append_left h]
  · rw [List.getD_eq_default (l := m) _ (by omega), pad, List.getD_eq_getElem?_getD,
      List.getElem?_append_right (by omega), List.getElem?_replicate]
    split <;> rfl

theorem length_pmEncode (m : List Bit) (d : Nat) :
    (pmEncode m d).length =
      ceilDiv m.length (matrixData (isqrt d)) * (isqrt d * isqrt d) := by
  rw [pmEncode, length_flatMap_range (L := isqrt d * isqrt d)]
  simp

/-- Cell `(r, c)` of matrix `n` lies at `n * d + r * dim + c` (R63, R82). -/
theorem getD_pmEncode {m : List Bit} {d n r c : Nat} (hd : isqrt d * isqrt d = d)
    (hn : n < ceilDiv m.length (matrixData (isqrt d))) (hr : r < isqrt d) (hc : c < isqrt d)
    (x : Bit) :
    (pmEncode m d).getD (n * d + (r * isqrt d + c)) x =
      pmMatrix (isqrt d) (pmData (pad m (matrixData (isqrt d))) (matrixData (isqrt d)) n) r c := by
  have hlt : r * isqrt d + c < isqrt d * isqrt d := by
    have := Nat.mul_le_mul_right (isqrt d) (Nat.succ_le_of_lt hr)
    rw [Nat.succ_mul] at this
    omega
  rw [pmEncode, ← getD_flat (pmMatrix (isqrt d) _) hr hc x]
  refine getD_flatMap_range (L := d) (fun k _ => ?_) hn ?_ x
  · rw [length_flat, hd]
  · rw [length_flat]; exact hlt

/-- Data cell `(r, c)` of matrix `n` is message bit `n*k + r*(dim-1) + c`, or a padding zero
(R80, R82). -/
theorem getD_pmData {m : List Bit} {k n i : Nat} (hi : i < k) :
    (pmData (pad m k) k n).getD i false = m.getD (n * k + i) false := by
  rw [pmData, getD_slice (by rw [Nat.succ_mul]; omega), getD_pad]

/-- An index inside the data region. -/
theorem dataIndex_lt {dim r c : Nat} (hr : r < dim - 1) (hc : c < dim - 1) :
    r * (dim - 1) + c < matrixData dim := by
  have := Nat.mul_le_mul_right (dim - 1) (Nat.succ_le_of_lt hr)
  rw [Nat.succ_mul] at this
  unfold matrixData
  omega

/-! ### Syndromes -/

theorem rowBad_congr {dim : Nat} {g h : Grid} {r : Nat} (e : ∀ c < dim, g r c = h r c)
    (hd : 0 < dim) : rowBad dim g r = rowBad dim h r := by
  unfold rowBad rowPar
  rw [par_congr fun c hc => e c (by omega), e (dim - 1) (by omega)]

theorem colBad_congr {dim : Nat} {g h : Grid} {c : Nat} (e : ∀ r < dim, g r c = h r c)
    (hd : 0 < dim) : colBad dim g c = colBad dim h c := by
  unfold colBad colPar
  rw [par_congr fun r hr => e r (by omega), e (dim - 1) (by omega)]

/-- The syndromes see the cells of the grid only. -/
theorem pmCheck_congr {dim : Nat} {g h : Grid} (e : ∀ r < dim, ∀ c < dim, g r c = h r c) :
    pmCheck dim g = pmCheck dim h := by
  have hr : badRows dim g = badRows dim h := List.filter_congr fun r hr => by
    have := List.mem_range.1 hr
    exact rowBad_congr (fun c hc => e r (by omega) c hc) (by omega)
  have hc : badCols dim g = badCols dim h := List.filter_congr fun c hc => by
    have := List.mem_range.1 hc
    exact colBad_congr (fun r hr => e r hr c this) (by omega)
  unfold pmCheck candidates
  rw [hr, hc]

/-- A located cell lies in a data row and in the matrix (R103). -/
theorem flip_bounds {dim : Nat} {g : Grid} {r c : Nat} (h : (pmCheck dim g).flip = some (r, c)) :
    r < dim - 1 ∧ c < dim := by
  unfold pmCheck at h
  split at h
  · cases h
  · next rc heq =>
    cases h
    have : (r, c) ∈ candidates dim g := by rw [heq]; simp
    simp only [candidates, badRows, badCols, List.mem_flatMap, List.mem_map, List.mem_filter,
      List.mem_range, Prod.mk.injEq] at this
    obtain ⟨_, ⟨h1, _⟩, _, ⟨h2, _⟩, rfl, rfl⟩ := this
    exact ⟨h1, h2⟩
  · cases h

/-- The count is the number of candidates (R103). -/
theorem pmCheck_count (dim : Nat) (g : Grid) : (pmCheck dim g).count = (candidates dim g).length := by
  unfold pmCheck
  split <;> simp_all

/-- The count is at most `(dim-1) * dim` (R21). -/
theorem pmCheck_count_le (dim : Nat) (g : Grid) : (pmCheck dim g).count ≤ (dim - 1) * dim := by
  have h1 : (badRows dim g).length ≤ dim - 1 := by
    simpa [badRows] using List.length_filter_le (rowBad dim g) (List.range (dim - 1))
  have h2 : (badCols dim g).length ≤ dim := by
    simpa [badCols] using List.length_filter_le (colBad dim g) (List.range dim)
  rw [pmCheck_count]
  have : (candidates dim g).length = (badRows dim g).length * (badCols dim g).length := by
    simp [candidates, List.length_flatMap]
  rw [this]
  exact Nat.mul_le_mul h1 h2

end Sys2Proof.Machine
end

