-- ==== Sys2Proof/Laws/Decode.lean ====
section
/-! SUPPORT. The two fields of a command word (30_encoding.md R50 to R52), and what the decoder
answers by opcode. -/

namespace Sys2Proof

/-- The opcode of a composed word. -/
@[simp] theorem opcodeOf_wordOf (op : BitVec 8) (imm : Nat) : opcodeOf (wordOf op imm) = op := by
  ext i hi
  have h1 : 24 + i < 32 := by omega
  have h2 : ¬ 24 + i < 24 := by omega
  simp [opcodeOf, wordOf, h1, hi, BitVec.getLsbD_eq_getElem]

/-- The immediate of a composed word: its low 24 bits. -/
theorem immOf_wordOf (op : BitVec 8) (imm : Nat) : immOf (wordOf op imm) = imm % 2 ^ 24 := by
  have h : (wordOf op imm).extractLsb' 0 24 = BitVec.ofNat 24 imm := by
    ext i hi
    have h1 : i < 32 := by omega
    simp [wordOf, h1, hi]
  rw [immOf, h, BitVec.toNat_ofNat]

/-- An immediate that fits is kept whole (R52). -/
theorem immOf_wordOf_of_fits {op : BitVec 8} {imm : Nat} (h : immFits imm = true) :
    immOf (wordOf op imm) = imm := by
  rw [immOf_wordOf, Nat.mod_eq_of_lt (by simpa [immFits] using h)]

/-- The immediate of a word fits (R52). -/
theorem immFits_immOf (w : Word) : immFits (immOf w) = true := by
  exact decide_eq_true (w.extractLsb' 0 24).isLt

/-- A word is its opcode and its immediate (R50). -/
theorem wordOf_fields (w : Word) : wordOf (opcodeOf w) (immOf w) = w := by
  rw [immOf, wordOf, BitVec.ofNat_toNat, BitVec.setWidth_eq]
  ext i hi
  by_cases h : i < 24
  · simp [h, BitVec.getLsbD_eq_getElem, hi]
  · have h1 : i - 24 < 8 := by omega
    have h2 : 24 + (i - 24) = i := by omega
    simp [opcodeOf, h, hi, h1, h2, BitVec.getLsbD_eq_getElem]

/-- The immediate of a word as a remainder of its value. -/
theorem immOf_eq_mod (w : Word) : immOf w = w.toNat % 2 ^ 24 := by
  simp [immOf]

/-- The opcode of a word as a quotient of its value. -/
theorem opcodeOf_toNat (w : Word) : (opcodeOf w).toNat = w.toNat / 2 ^ 24 := by
  have h : w.toNat < 2 ^ 32 := w.isLt
  simp only [opcodeOf, BitVec.extractLsb'_toNat, Nat.shiftRight_eq_div_pow]
  omega

/-- What `withoutOperand` answers. -/
theorem withoutOperand_eq_ok {i j : Instr} {op : BitVec 8} {imm : Nat} :
    withoutOperand i op imm = .ok j ↔ imm = 0 ∧ i = j := by
  unfold withoutOperand
  split <;> simp_all

/-- The decoder says which command a pair of fields is, opcode by opcode (R54). -/
theorem decodeFields_eq_ok {op : BitVec 8} {imm : Nat} {i : Instr}
    (h : decodeFields op imm = .ok i) : op = i.opcode ∧ imm = i.imm := by
  by_cases h0 : op = 0x00#8
  · subst h0
    obtain ⟨hz, rfl⟩ := withoutOperand_eq_ok.1 (show withoutOperand .nop 0x00#8 imm = .ok i from h)
    exact ⟨rfl, hz⟩
  by_cases h1 : op = 0x01#8
  · subst h1
    cases (show Except.ok (Instr.setd imm) = .ok i from h)
    exact ⟨rfl, rfl⟩
  by_cases h2 : op = 0x02#8
  · subst h2
    cases (show Except.ok (Instr.setlen imm) = .ok i from h)
    exact ⟨rfl, rfl⟩
  by_cases h3 : op = 0x03#8
  · subst h3
    cases (show Except.ok (Instr.setclen imm) = .ok i from h)
    exact ⟨rfl, rfl⟩
  by_cases h4 : op = 0x04#8
  · subst h4
    cases (show Except.ok (Instr.flip imm) = .ok i from h)
    exact ⟨rfl, rfl⟩
  by_cases h5 : op = 0x05#8
  · subst h5
    obtain ⟨hz, rfl⟩ := withoutOperand_eq_ok.1 (show withoutOperand .clrerr 0x05#8 imm = .ok i from h)
    exact ⟨rfl, hz⟩
  by_cases h6 : op = 0x10#8
  · subst h6
    obtain ⟨hz, rfl⟩ := withoutOperand_eq_ok.1 (show withoutOperand .encPb 0x10#8 imm = .ok i from h)
    exact ⟨rfl, hz⟩
  by_cases h7 : op = 0x11#8
  · subst h7
    obtain ⟨hz, rfl⟩ := withoutOperand_eq_ok.1 (show withoutOperand .encPm 0x11#8 imm = .ok i from h)
    exact ⟨rfl, hz⟩
  by_cases h8 : op = 0x20#8
  · subst h8
    cases (show Except.ok (Instr.chkPb imm) = .ok i from h)
    exact ⟨rfl, rfl⟩
  by_cases h9 : op = 0x21#8
  · subst h9
    cases (show Except.ok (Instr.chkPm imm) = .ok i from h)
    exact ⟨rfl, rfl⟩
  by_cases h10 : op = 0x30#8
  · subst h10
    obtain ⟨hz, rfl⟩ := withoutOperand_eq_ok.1 (show withoutOperand .chkallPb 0x30#8 imm = .ok i from h)
    exact ⟨rfl, hz⟩
  by_cases h11 : op = 0x31#8
  · subst h11
    obtain ⟨hz, rfl⟩ := withoutOperand_eq_ok.1 (show withoutOperand .chkallPm 0x31#8 imm = .ok i from h)
    exact ⟨rfl, hz⟩
  rw [decodeFields, if_neg h0, if_neg h1, if_neg h2, if_neg h3, if_neg h4, if_neg h5,
    if_neg h6, if_neg h7, if_neg h8, if_neg h9, if_neg h10, if_neg h11] at h
  cases h

/-- The fields of a well-formed command decode to it (R54). -/
theorem decodeFields_of_instr (i : Instr) : decodeFields i.opcode i.imm = .ok i := by
  cases i <;> rfl

/-- The immediate of a well-formed command fits (R52). -/
theorem immFits_imm {i : Instr} (h : i.wf = true) : immFits i.imm = true := by
  cases i <;> exact h

/-- An immediate that fits makes a command well formed (R52). -/
theorem wf_of_immFits {i : Instr} (h : immFits i.imm = true) : i.wf = true := by
  cases i <;> exact h

end Sys2Proof
end

