-- ==== Sys2Proof/Laws/State.lean ====
section
/-! SUPPORT. One lemma per field per update of the state, all true by unfolding, so that no later
proof unfolds a record update. Then the same for the views of the state that the rules use. -/

namespace Sys2Proof.Machine

open Sys2Proof

/-! ### `State.advance` -/

@[simp] theorem advance_status (s : State) : s.advance.status = s.status := rfl
@[simp] theorem advance_d (s : State) : s.advance.d = s.d := rfl
@[simp] theorem advance_mlen (s : State) : s.advance.mlen = s.mlen := rfl
@[simp] theorem advance_clen (s : State) : s.advance.clen = s.clen := rfl
@[simp] theorem advance_loc (s : State) : s.advance.loc = s.loc := rfl
@[simp] theorem advance_ncand (s : State) : s.advance.ncand = s.ncand := rfl
@[simp] theorem advance_errcmd (s : State) : s.advance.errcmd = s.errcmd := rfl
@[simp] theorem advance_msg (s : State) : s.advance.msg = s.msg := rfl
@[simp] theorem advance_code (s : State) : s.advance.code = s.code := rfl
@[simp] theorem advance_config (s : State) : s.advance.config = s.config := rfl
@[simp] theorem advance_pending (s : State) : s.advance.pending = s.pending := rfl
@[simp] theorem advance_pos (s : State) : s.advance.pos = s.pos + 1 := rfl
@[simp] theorem advance_answers (s : State) : s.advance.answers = s.answers := rfl

/-! ### `State.withPending` -/

@[simp] theorem withPending_status (s : State) (l : List HostStep) : (s.withPending l).status = s.status := rfl
@[simp] theorem withPending_d (s : State) (l : List HostStep) : (s.withPending l).d = s.d := rfl
@[simp] theorem withPending_mlen (s : State) (l : List HostStep) : (s.withPending l).mlen = s.mlen := rfl
@[simp] theorem withPending_clen (s : State) (l : List HostStep) : (s.withPending l).clen = s.clen := rfl
@[simp] theorem withPending_loc (s : State) (l : List HostStep) : (s.withPending l).loc = s.loc := rfl
@[simp] theorem withPending_ncand (s : State) (l : List HostStep) : (s.withPending l).ncand = s.ncand := rfl
@[simp] theorem withPending_errcmd (s : State) (l : List HostStep) : (s.withPending l).errcmd = s.errcmd := rfl
@[simp] theorem withPending_msg (s : State) (l : List HostStep) : (s.withPending l).msg = s.msg := rfl
@[simp] theorem withPending_code (s : State) (l : List HostStep) : (s.withPending l).code = s.code := rfl
@[simp] theorem withPending_config (s : State) (l : List HostStep) : (s.withPending l).config = s.config := rfl
@[simp] theorem withPending_pending (s : State) (l : List HostStep) : (s.withPending l).pending = l := rfl
@[simp] theorem withPending_pos (s : State) (l : List HostStep) : (s.withPending l).pos = s.pos := rfl
@[simp] theorem withPending_answers (s : State) (l : List HostStep) : (s.withPending l).answers = s.answers := rfl

/-! ### `State.setVerdict` -/

@[simp] theorem setVerdict_status (v k : Bool) (s : State) : (s.setVerdict v k).status = statusWithVerdict v k s.status := rfl
@[simp] theorem setVerdict_d (v k : Bool) (s : State) : (s.setVerdict v k).d = s.d := rfl
@[simp] theorem setVerdict_mlen (v k : Bool) (s : State) : (s.setVerdict v k).mlen = s.mlen := rfl
@[simp] theorem setVerdict_clen (v k : Bool) (s : State) : (s.setVerdict v k).clen = s.clen := rfl
@[simp] theorem setVerdict_loc (v k : Bool) (s : State) : (s.setVerdict v k).loc = s.loc := rfl
@[simp] theorem setVerdict_ncand (v k : Bool) (s : State) : (s.setVerdict v k).ncand = s.ncand := rfl
@[simp] theorem setVerdict_errcmd (v k : Bool) (s : State) : (s.setVerdict v k).errcmd = s.errcmd := rfl
@[simp] theorem setVerdict_msg (v k : Bool) (s : State) : (s.setVerdict v k).msg = s.msg := rfl
@[simp] theorem setVerdict_code (v k : Bool) (s : State) : (s.setVerdict v k).code = s.code := rfl
@[simp] theorem setVerdict_config (v k : Bool) (s : State) : (s.setVerdict v k).config = s.config := rfl
@[simp] theorem setVerdict_pending (v k : Bool) (s : State) : (s.setVerdict v k).pending = s.pending := rfl
@[simp] theorem setVerdict_pos (v k : Bool) (s : State) : (s.setVerdict v k).pos = s.pos := rfl
@[simp] theorem setVerdict_answers (v k : Bool) (s : State) : (s.setVerdict v k).answers = s.answers := rfl

/-! ### `raiseError` -/

@[simp] theorem raiseError_status (e : ErrorCode) (w : Word) (s : State) : (raiseError e w s).status = statusWithError e s.status := rfl
@[simp] theorem raiseError_d (e : ErrorCode) (w : Word) (s : State) : (raiseError e w s).d = s.d := rfl
@[simp] theorem raiseError_mlen (e : ErrorCode) (w : Word) (s : State) : (raiseError e w s).mlen = s.mlen := rfl
@[simp] theorem raiseError_clen (e : ErrorCode) (w : Word) (s : State) : (raiseError e w s).clen = s.clen := rfl
@[simp] theorem raiseError_loc (e : ErrorCode) (w : Word) (s : State) : (raiseError e w s).loc = s.loc := rfl
@[simp] theorem raiseError_ncand (e : ErrorCode) (w : Word) (s : State) : (raiseError e w s).ncand = s.ncand := rfl
@[simp] theorem raiseError_errcmd (e : ErrorCode) (w : Word) (s : State) : (raiseError e w s).errcmd = w := rfl
@[simp] theorem raiseError_msg (e : ErrorCode) (w : Word) (s : State) : (raiseError e w s).msg = s.msg := rfl
@[simp] theorem raiseError_code (e : ErrorCode) (w : Word) (s : State) : (raiseError e w s).code = s.code := rfl
@[simp] theorem raiseError_config (e : ErrorCode) (w : Word) (s : State) : (raiseError e w s).config = s.config := rfl
@[simp] theorem raiseError_pending (e : ErrorCode) (w : Word) (s : State) : (raiseError e w s).pending = s.pending := rfl
@[simp] theorem raiseError_pos (e : ErrorCode) (w : Word) (s : State) : (raiseError e w s).pos = s.pos := rfl
@[simp] theorem raiseError_answers (e : ErrorCode) (w : Word) (s : State) : (raiseError e w s).answers = s.answers := rfl

/-! ### `clearError` -/

@[simp] theorem clearError_status (s : State) : (clearError s).status = statusWithoutError s.status := rfl
@[simp] theorem clearError_d (s : State) : (clearError s).d = s.d := rfl
@[simp] theorem clearError_mlen (s : State) : (clearError s).mlen = s.mlen := rfl
@[simp] theorem clearError_clen (s : State) : (clearError s).clen = s.clen := rfl
@[simp] theorem clearError_loc (s : State) : (clearError s).loc = s.loc := rfl
@[simp] theorem clearError_ncand (s : State) : (clearError s).ncand = s.ncand := rfl
@[simp] theorem clearError_errcmd (s : State) : (clearError s).errcmd = 0 := rfl
@[simp] theorem clearError_msg (s : State) : (clearError s).msg = s.msg := rfl
@[simp] theorem clearError_code (s : State) : (clearError s).code = s.code := rfl
@[simp] theorem clearError_config (s : State) : (clearError s).config = s.config := rfl
@[simp] theorem clearError_pending (s : State) : (clearError s).pending = s.pending := rfl
@[simp] theorem clearError_pos (s : State) : (clearError s).pos = s.pos := rfl
@[simp] theorem clearError_answers (s : State) : (clearError s).answers = s.answers := rfl

/-! ### `State.resetRegisters` -/

@[simp] theorem resetRegisters_status (s : State) : s.resetRegisters.status = 0 := rfl
@[simp] theorem resetRegisters_d (s : State) : s.resetRegisters.d = 0 := rfl
@[simp] theorem resetRegisters_mlen (s : State) : s.resetRegisters.mlen = 0 := rfl
@[simp] theorem resetRegisters_clen (s : State) : s.resetRegisters.clen = 0 := rfl
@[simp] theorem resetRegisters_loc (s : State) : s.resetRegisters.loc = 0 := rfl
@[simp] theorem resetRegisters_ncand (s : State) : s.resetRegisters.ncand = 0 := rfl
@[simp] theorem resetRegisters_errcmd (s : State) : s.resetRegisters.errcmd = 0 := rfl
@[simp] theorem resetRegisters_msg (s : State) : s.resetRegisters.msg = s.msg := rfl
@[simp] theorem resetRegisters_code (s : State) : s.resetRegisters.code = s.code := rfl
@[simp] theorem resetRegisters_config (s : State) : s.resetRegisters.config = s.config := rfl
@[simp] theorem resetRegisters_pending (s : State) : s.resetRegisters.pending = s.pending := rfl
@[simp] theorem resetRegisters_pos (s : State) : s.resetRegisters.pos = s.pos := rfl
@[simp] theorem resetRegisters_answers (s : State) : s.resetRegisters.answers = s.answers := rfl

/-! ### `State.setMem` -/

@[simp] theorem setMem_status (s : State) (sp : Space) (m : Memory) : (s.setMem sp m).status = s.status := by
  cases sp <;> rfl
@[simp] theorem setMem_d (s : State) (sp : Space) (m : Memory) : (s.setMem sp m).d = s.d := by
  cases sp <;> rfl
@[simp] theorem setMem_mlen (s : State) (sp : Space) (m : Memory) : (s.setMem sp m).mlen = s.mlen := by
  cases sp <;> rfl
@[simp] theorem setMem_clen (s : State) (sp : Space) (m : Memory) : (s.setMem sp m).clen = s.clen := by
  cases sp <;> rfl
@[simp] theorem setMem_loc (s : State) (sp : Space) (m : Memory) : (s.setMem sp m).loc = s.loc := by
  cases sp <;> rfl
@[simp] theorem setMem_ncand (s : State) (sp : Space) (m : Memory) : (s.setMem sp m).ncand = s.ncand := by
  cases sp <;> rfl
@[simp] theorem setMem_errcmd (s : State) (sp : Space) (m : Memory) : (s.setMem sp m).errcmd = s.errcmd := by
  cases sp <;> rfl
@[simp] theorem setMem_config (s : State) (sp : Space) (m : Memory) : (s.setMem sp m).config = s.config := by
  cases sp <;> rfl
@[simp] theorem setMem_pending (s : State) (sp : Space) (m : Memory) : (s.setMem sp m).pending = s.pending := by
  cases sp <;> rfl
@[simp] theorem setMem_pos (s : State) (sp : Space) (m : Memory) : (s.setMem sp m).pos = s.pos := by
  cases sp <;> rfl
@[simp] theorem setMem_answers (s : State) (sp : Space) (m : Memory) : (s.setMem sp m).answers = s.answers := by
  cases sp <;> rfl
@[simp] theorem setMem_mem_same (s : State) (sp : Space) (m : Memory) : (s.setMem sp m).mem sp = m := by
  cases sp <;> rfl
@[simp] theorem setMem_msg_msg (s : State) (m : Memory) : (s.setMem .msg m).msg = m := rfl
@[simp] theorem setMem_msg_code (s : State) (m : Memory) : (s.setMem .msg m).code = s.code := rfl
@[simp] theorem setMem_code_msg (s : State) (m : Memory) : (s.setMem .code m).msg = s.msg := rfl
@[simp] theorem setMem_code_code (s : State) (m : Memory) : (s.setMem .code m).code = m := rfl
@[simp] theorem mem_msg (s : State) : s.mem .msg = s.msg := rfl
@[simp] theorem mem_code (s : State) : s.mem .code = s.code := rfl
@[simp] theorem cap_msg (s : State) : s.cap .msg = s.config.msgCap := rfl
@[simp] theorem cap_code (s : State) : s.cap .code = s.config.codeCap := rfl

/-! ### The views of a state under the updates that do not touch them -/

@[simp] theorem advance_valid (s : State) : s.advance.valid = s.valid := rfl
@[simp] theorem advance_corr (s : State) : s.advance.corr = s.corr := rfl
@[simp] theorem advance_err (s : State) : s.advance.err = s.err := rfl
@[simp] theorem advance_errcode (s : State) : s.advance.errcode = s.errcode := rfl
@[simp] theorem advance_dVal (s : State) : s.advance.dVal = s.dVal := rfl
@[simp] theorem advance_mlenVal (s : State) : s.advance.mlenVal = s.mlenVal := rfl
@[simp] theorem advance_clenVal (s : State) : s.advance.clenVal = s.clenVal := rfl
@[simp] theorem advance_dim (s : State) : s.advance.dim = s.dim := rfl
@[simp] theorem advance_blocks (s : State) : s.advance.blocks = s.blocks := rfl
@[simp] theorem advance_matrices (s : State) : s.advance.matrices = s.matrices := rfl
@[simp] theorem advance_row (s : State) : s.advance.row = s.row := rfl
@[simp] theorem advance_col (s : State) : s.advance.col = s.col := rfl

@[simp] theorem withPending_valid (s : State) (l : List HostStep) : (s.withPending l).valid = s.valid := rfl
@[simp] theorem withPending_corr (s : State) (l : List HostStep) : (s.withPending l).corr = s.corr := rfl
@[simp] theorem withPending_err (s : State) (l : List HostStep) : (s.withPending l).err = s.err := rfl
@[simp] theorem withPending_errcode (s : State) (l : List HostStep) : (s.withPending l).errcode = s.errcode := rfl
@[simp] theorem withPending_dVal (s : State) (l : List HostStep) : (s.withPending l).dVal = s.dVal := rfl
@[simp] theorem withPending_mlenVal (s : State) (l : List HostStep) : (s.withPending l).mlenVal = s.mlenVal := rfl
@[simp] theorem withPending_clenVal (s : State) (l : List HostStep) : (s.withPending l).clenVal = s.clenVal := rfl
@[simp] theorem withPending_dim (s : State) (l : List HostStep) : (s.withPending l).dim = s.dim := rfl
@[simp] theorem withPending_blocks (s : State) (l : List HostStep) : (s.withPending l).blocks = s.blocks := rfl
@[simp] theorem withPending_matrices (s : State) (l : List HostStep) : (s.withPending l).matrices = s.matrices := rfl
@[simp] theorem withPending_row (s : State) (l : List HostStep) : (s.withPending l).row = s.row := rfl
@[simp] theorem withPending_col (s : State) (l : List HostStep) : (s.withPending l).col = s.col := rfl

@[simp] theorem setVerdict_dVal (v k : Bool) (s : State) : (s.setVerdict v k).dVal = s.dVal := rfl
@[simp] theorem setVerdict_mlenVal (v k : Bool) (s : State) : (s.setVerdict v k).mlenVal = s.mlenVal := rfl
@[simp] theorem setVerdict_clenVal (v k : Bool) (s : State) : (s.setVerdict v k).clenVal = s.clenVal := rfl
@[simp] theorem setVerdict_dim (v k : Bool) (s : State) : (s.setVerdict v k).dim = s.dim := rfl
@[simp] theorem setVerdict_blocks (v k : Bool) (s : State) : (s.setVerdict v k).blocks = s.blocks := rfl
@[simp] theorem setVerdict_matrices (v k : Bool) (s : State) : (s.setVerdict v k).matrices = s.matrices := rfl
@[simp] theorem setVerdict_row (v k : Bool) (s : State) : (s.setVerdict v k).row = s.row := rfl
@[simp] theorem setVerdict_col (v k : Bool) (s : State) : (s.setVerdict v k).col = s.col := rfl

@[simp] theorem raiseError_dVal (e : ErrorCode) (w : Word) (s : State) : (raiseError e w s).dVal = s.dVal := rfl
@[simp] theorem raiseError_mlenVal (e : ErrorCode) (w : Word) (s : State) : (raiseError e w s).mlenVal = s.mlenVal := rfl
@[simp] theorem raiseError_clenVal (e : ErrorCode) (w : Word) (s : State) : (raiseError e w s).clenVal = s.clenVal := rfl
@[simp] theorem raiseError_dim (e : ErrorCode) (w : Word) (s : State) : (raiseError e w s).dim = s.dim := rfl
@[simp] theorem raiseError_blocks (e : ErrorCode) (w : Word) (s : State) : (raiseError e w s).blocks = s.blocks := rfl
@[simp] theorem raiseError_matrices (e : ErrorCode) (w : Word) (s : State) : (raiseError e w s).matrices = s.matrices := rfl
@[simp] theorem raiseError_row (e : ErrorCode) (w : Word) (s : State) : (raiseError e w s).row = s.row := rfl
@[simp] theorem raiseError_col (e : ErrorCode) (w : Word) (s : State) : (raiseError e w s).col = s.col := rfl

@[simp] theorem clearError_dVal (s : State) : (clearError s).dVal = s.dVal := rfl
@[simp] theorem clearError_mlenVal (s : State) : (clearError s).mlenVal = s.mlenVal := rfl
@[simp] theorem clearError_clenVal (s : State) : (clearError s).clenVal = s.clenVal := rfl
@[simp] theorem clearError_dim (s : State) : (clearError s).dim = s.dim := rfl
@[simp] theorem clearError_blocks (s : State) : (clearError s).blocks = s.blocks := rfl
@[simp] theorem clearError_matrices (s : State) : (clearError s).matrices = s.matrices := rfl
@[simp] theorem clearError_row (s : State) : (clearError s).row = s.row := rfl
@[simp] theorem clearError_col (s : State) : (clearError s).col = s.col := rfl


end Sys2Proof.Machine
end

