-- ==== Sys2Proof/Laws/Flags.lean ====
section
/-! SUPPORT. What each writer of STATUS does to each field (10_state.md R16 to R19). The words have
eight bits, so each fact is checked on all of them. -/

namespace Sys2Proof.Machine

open Sys2Proof

@[simp] theorem valid_statusWithVerdict :
    ∀ v k st, statusValid (statusWithVerdict v k st) = v := by decide +kernel
@[simp] theorem corr_statusWithVerdict :
    ∀ v k st, statusCorr (statusWithVerdict v k st) = k := by decide +kernel
@[simp] theorem err_statusWithVerdict :
    ∀ v k st, statusErr (statusWithVerdict v k st) = statusErr st := by decide +kernel
@[simp] theorem reserved_statusWithVerdict :
    ∀ v k st, statusReserved (statusWithVerdict v k st) = statusReserved st := by decide +kernel
@[simp] theorem errcode_statusWithVerdict :
    ∀ v k st, statusErrcode (statusWithVerdict v k st) = statusErrcode st := by decide +kernel

/-- Two verdicts in a row: the second stands. -/
@[simp] theorem statusWithVerdict_twice : ∀ v k v' k' st,
    statusWithVerdict v k (statusWithVerdict v' k' st) = statusWithVerdict v k st := by
  decide +kernel

@[simp] theorem valid_statusWithError (e : ErrorCode) :
    ∀ st, statusValid (statusWithError e st) = statusValid st := by cases e <;> decide +kernel
@[simp] theorem corr_statusWithError (e : ErrorCode) :
    ∀ st, statusCorr (statusWithError e st) = statusCorr st := by cases e <;> decide +kernel
@[simp] theorem err_statusWithError (e : ErrorCode) :
    ∀ st, statusErr (statusWithError e st) = true := by cases e <;> decide +kernel
@[simp] theorem reserved_statusWithError (e : ErrorCode) :
    ∀ st, statusReserved (statusWithError e st) = statusReserved st := by
  cases e <;> decide +kernel
@[simp] theorem errcode_statusWithError (e : ErrorCode) :
    ∀ st, statusErrcode (statusWithError e st) = e.code := by cases e <;> decide +kernel

@[simp] theorem valid_statusWithoutError :
    ∀ st, statusValid (statusWithoutError st) = statusValid st := by decide +kernel
@[simp] theorem corr_statusWithoutError :
    ∀ st, statusCorr (statusWithoutError st) = statusCorr st := by decide +kernel
@[simp] theorem err_statusWithoutError :
    ∀ st, statusErr (statusWithoutError st) = false := by decide +kernel
@[simp] theorem reserved_statusWithoutError :
    ∀ st, statusReserved (statusWithoutError st) = statusReserved st := by decide +kernel
@[simp] theorem errcode_statusWithoutError :
    ∀ st, statusErrcode (statusWithoutError st) = 0 := by decide +kernel

/-- STATUS is determined by its five fields (R16). -/
theorem status_ext (st st' : BitVec 8) (hv : statusValid st = statusValid st')
    (hk : statusCorr st = statusCorr st') (he : statusErr st = statusErr st')
    (hr : statusReserved st = statusReserved st') (hc : statusErrcode st = statusErrcode st') :
    st = st' := by
  have key : ∀ st : BitVec 8, st = statusErrcode st ++ (BitVec.ofBool (statusReserved st) ++
      (BitVec.ofBool (statusErr st) ++ (BitVec.ofBool (statusCorr st) ++
        BitVec.ofBool (statusValid st)))) := by decide +kernel
  rw [key st, key st', hv, hk, he, hr, hc]

/-- With no error latched, clearing the latch changes nothing (R125, the corner case). -/
theorem statusWithoutError_of_clear : ∀ st, statusErr st = false → statusErrcode st = 0 →
    statusWithoutError st = st := by decide +kernel

/-- The codes of the errors are 1 to 6 (R130). -/
theorem code_known (e : ErrorCode) : e.code ≠ 0 ∧ e.code ≤ 6 := by cases e <;> decide

/-- The errors have different codes (R130). -/
theorem code_inj {e f : ErrorCode} (h : e.code = f.code) : e = f := by
  cases e <;> cases f <;> first | rfl | exact absurd h (by decide)

@[simp] theorem setVerdict_valid (v k : Bool) (s : State) : (s.setVerdict v k).valid = v :=
  valid_statusWithVerdict v k s.status
@[simp] theorem setVerdict_corr (v k : Bool) (s : State) : (s.setVerdict v k).corr = k :=
  corr_statusWithVerdict v k s.status
@[simp] theorem setVerdict_err (v k : Bool) (s : State) : (s.setVerdict v k).err = s.err :=
  err_statusWithVerdict v k s.status
@[simp] theorem setVerdict_errcode (v k : Bool) (s : State) :
    (s.setVerdict v k).errcode = s.errcode := errcode_statusWithVerdict v k s.status

@[simp] theorem raiseError_valid (e : ErrorCode) (w : Word) (s : State) :
    (raiseError e w s).valid = s.valid := valid_statusWithError e s.status
@[simp] theorem raiseError_corr (e : ErrorCode) (w : Word) (s : State) :
    (raiseError e w s).corr = s.corr := corr_statusWithError e s.status
@[simp] theorem raiseError_err (e : ErrorCode) (w : Word) (s : State) :
    (raiseError e w s).err = true := err_statusWithError e s.status
@[simp] theorem raiseError_errcode (e : ErrorCode) (w : Word) (s : State) :
    (raiseError e w s).errcode = e.code := errcode_statusWithError e s.status

@[simp] theorem clearError_valid (s : State) : (clearError s).valid = s.valid :=
  valid_statusWithoutError s.status
@[simp] theorem clearError_corr (s : State) : (clearError s).corr = s.corr :=
  corr_statusWithoutError s.status
@[simp] theorem clearError_err (s : State) : (clearError s).err = false :=
  err_statusWithoutError s.status
@[simp] theorem clearError_errcode (s : State) : (clearError s).errcode = 0 :=
  errcode_statusWithoutError s.status

/-- After reset no field of STATUS is set (10_state.md R28). -/
@[simp] theorem resetRegisters_valid (s : State) : s.resetRegisters.valid = false := by
  simp [State.valid, statusValid]
@[simp] theorem resetRegisters_corr (s : State) : s.resetRegisters.corr = false := by
  simp [State.corr, statusCorr]
@[simp] theorem resetRegisters_err (s : State) : s.resetRegisters.err = false := by
  simp [State.err, statusErr]
@[simp] theorem resetRegisters_errcode (s : State) : s.resetRegisters.errcode = 0 := by
  simp [State.errcode, statusErrcode]

end Sys2Proof.Machine
end

