-- ==== Sys2Proof/Laws/Memory.lean ====
section
/-! SUPPORT. What the memory operations do, said once: each keeps the canonical form, a read after a
write, and equal readings mean equal memories. -/

namespace Sys2Proof.Machine

open Sys2Proof

/-! ### The canonical form -/

@[simp] theorem Memory.wf_nil : Memory.wf [] = true := rfl

theorem Memory.wf_cons {a : Nat} {v : Bit} {t : Memory} :
    Memory.wf ((a, v) :: t) = true ↔
      v ≠ unlistedBit ∧ (∀ c ∈ t, a < c.1) ∧ Memory.wf t = true := by
  simp [Memory.wf, and_assoc]

theorem Memory.below_cons {cap a : Nat} {v : Bit} {t : Memory} :
    Memory.below cap ((a, v) :: t) = true ↔ a < cap ∧ Memory.below cap t = true := by
  simp [Memory.below]

@[simp] theorem Memory.below_nil (cap : Nat) : Memory.below cap [] = true := rfl

/-- An address below every listed one reads as the unlisted bit. -/
theorem Memory.read_of_lt {m : Memory} {a : Nat} (h : ∀ c ∈ m, a < c.1) :
    m.read a = unlistedBit := by
  induction m with
  | nil => rfl
  | cons c t ih =>
    have hc : a ≠ c.1 := Nat.ne_of_lt (h c (by simp))
    simp [Memory.read, hc, ih (fun c' h' => h c' (by simp [h']))]

/-- An address at or above the capacity reads as the unlisted bit. -/
theorem Memory.read_of_below {m : Memory} {cap a : Nat} (h : m.below cap = true) (ha : cap ≤ a) :
    m.read a = unlistedBit := by
  induction m with
  | nil => rfl
  | cons c t ih =>
    obtain ⟨b, w⟩ := c
    obtain ⟨hb, ht⟩ := Memory.below_cons.1 h
    have hne : a ≠ b := by omega
    simp [Memory.read, hne, ih ht]

/-! ### `Memory.cons` -/

theorem Memory.read_cons {a : Nat} {v : Bit} {t : Memory} (h : ∀ c ∈ t, a < c.1) (b : Nat) :
    (Memory.cons a v t).read b = if b = a then v else t.read b := by
  unfold Memory.cons
  split
  · next hv =>
    subst hv
    split
    · next hb => subst hb; exact Memory.read_of_lt h
    · rfl
  · simp [Memory.read]

theorem Memory.wf_of_cons {a : Nat} {v : Bit} {t : Memory} (h : ∀ c ∈ t, a < c.1)
    (ht : t.wf = true) : (Memory.cons a v t).wf = true := by
  unfold Memory.cons
  split
  · exact ht
  · next hv => exact Memory.wf_cons.2 ⟨hv, h, ht⟩

theorem Memory.mem_cons {a : Nat} {v : Bit} {t : Memory} {c : Cell}
    (h : c ∈ Memory.cons a v t) : c.1 = a ∨ c ∈ t := by
  unfold Memory.cons at h
  split at h
  · exact .inr h
  · rcases List.mem_cons.1 h with h | h
    · exact .inl (by rw [h])
    · exact .inr h

theorem Memory.below_of_cons {cap a : Nat} {v : Bit} {t : Memory} (ha : a < cap)
    (ht : t.below cap = true) : (Memory.cons a v t).below cap = true := by
  unfold Memory.cons
  split
  · exact ht
  · exact Memory.below_cons.2 ⟨ha, ht⟩

/-! ### `Memory.write` -/

theorem Memory.mem_write {m : Memory} {a : Nat} {v : Bit} {c : Cell} (h : c ∈ m.write a v) :
    c.1 = a ∨ c ∈ m := by
  induction m with
  | nil => exact Memory.mem_cons h
  | cons d t ih =>
    obtain ⟨b, w⟩ := d
    unfold Memory.write at h
    split at h
    · exact Memory.mem_cons h
    · split at h
      · exact (Memory.mem_cons h).imp_right fun h => List.mem_cons_of_mem _ h
      · rcases List.mem_cons.1 h with h | h
        · exact .inr (by simp [h])
        · exact (ih h).imp_right fun h => List.mem_cons_of_mem _ h

/-- A write keeps the canonical form. -/
theorem Memory.wf_write {m : Memory} (hm : m.wf = true) (a : Nat) (v : Bit) :
    (m.write a v).wf = true := by
  induction m with
  | nil => exact Memory.wf_of_cons (by simp) rfl
  | cons d t ih =>
    obtain ⟨b, w⟩ := d
    obtain ⟨hw, hb, ht⟩ := Memory.wf_cons.1 hm
    unfold Memory.write
    split
    · next hab =>
      refine Memory.wf_of_cons (fun c hc => ?_) hm
      rcases List.mem_cons.1 hc with rfl | hc
      · exact hab
      · exact Nat.lt_trans hab (hb c hc)
    · split
      · next hab => exact Memory.wf_of_cons (hab ▸ hb) ht
      · next h1 h2 =>
        refine Memory.wf_cons.2 ⟨hw, fun c hc => ?_, ih ht⟩
        rcases Memory.mem_write hc with h | h
        · omega
        · exact hb c h

/-- A write below the capacity lists no address beyond it. -/
theorem Memory.below_write {m : Memory} {cap : Nat} (hm : m.below cap = true) {a : Nat}
    (ha : a < cap) (v : Bit) : (m.write a v).below cap = true := by
  induction m with
  | nil => exact Memory.below_of_cons ha rfl
  | cons d t ih =>
    obtain ⟨b, w⟩ := d
    obtain ⟨hb, ht⟩ := Memory.below_cons.1 hm
    unfold Memory.write
    split
    · exact Memory.below_of_cons ha hm
    · split
      · exact Memory.below_of_cons ha ht
      · exact Memory.below_cons.2 ⟨hb, ih ht⟩

/-- A read after a write: the written bit at its address, every other bit as before (R42). -/
theorem Memory.read_write {m : Memory} (hm : m.wf = true) (a : Nat) (v : Bit) (b : Nat) :
    (m.write a v).read b = if b = a then v else m.read b := by
  induction m with
  | nil => exact Memory.read_cons (by simp) b
  | cons d t ih =>
    obtain ⟨e, w⟩ := d
    obtain ⟨-, he, ht⟩ := Memory.wf_cons.1 hm
    unfold Memory.write
    split
    · next hae =>
      refine Memory.read_cons (fun c hc => ?_) b
      rcases List.mem_cons.1 hc with rfl | hc
      · exact hae
      · exact Nat.lt_trans hae (he c hc)
    · split
      · next hae =>
        subst hae
        rw [Memory.read_cons he]
        by_cases hb : b = a <;> simp [Memory.read, hb]
      · next h1 h2 =>
        by_cases hb : b = e
        · have : b ≠ a := by omega
          simp [Memory.read, hb]
          omega
        · simp [Memory.read, hb, ih ht]

/-! ### Runs of bits -/

@[simp] theorem Memory.length_readRun (m : Memory) (a n : Nat) : (m.readRun a n).length = n := by
  induction n generalizing a with
  | zero => rfl
  | succ n ih => simp [Memory.readRun, ih]

/-- Element `i` of a run is the bit at address `a + i` (R9, R34). -/
theorem Memory.getElem_readRun (m : Memory) (a n i : Nat) (h : i < (m.readRun a n).length) :
    (m.readRun a n)[i] = m.read (a + i) := by
  induction n generalizing a i with
  | zero => simp [Memory.readRun] at h
  | succ n ih =>
    cases i with
    | zero => rfl
    | succ i =>
      have := ih (a + 1) i (by simpa [Memory.readRun] using h)
      simpa [Memory.readRun, Nat.add_assoc, Nat.add_comm 1 i] using this

theorem Memory.getD_readRun (m : Memory) (a : Nat) {n i : Nat} (h : i < n) (d : Bit) :
    (m.readRun a n).getD i d = m.read (a + i) := by
  rw [List.getD_eq_getElem _ _ (by simpa using h), Memory.getElem_readRun]

theorem Memory.readRun_congr {m m' : Memory} {a n : Nat}
    (h : ∀ i < n, m.read (a + i) = m'.read (a + i)) : m.readRun a n = m'.readRun a n := by
  apply List.ext_getElem (by simp)
  intro i h1 h2
  rw [Memory.getElem_readRun, Memory.getElem_readRun]
  exact h i (by simpa using h1)

theorem Memory.wf_writeRun {m : Memory} (hm : m.wf = true) (a : Nat) (bits : List Bit) :
    (m.writeRun a bits).wf = true := by
  induction bits generalizing m a with
  | nil => exact hm
  | cons b bs ih => exact ih (Memory.wf_write hm a b) (a + 1)

theorem Memory.below_writeRun {m : Memory} {cap : Nat} (hm : m.below cap = true) {a : Nat}
    {bits : List Bit} (h : a + bits.length ≤ cap) : (m.writeRun a bits).below cap = true := by
  induction bits generalizing m a with
  | nil => exact hm
  | cons b bs ih =>
    simp only [List.length_cons] at h
    exact ih (Memory.below_write hm (by omega) b) (by omega)

/-- A read after a run of writes: the written bits in the run, every other bit as before. -/
theorem Memory.read_writeRun {m : Memory} (hm : m.wf = true) (a : Nat) (bits : List Bit) (b : Nat) :
    (m.writeRun a bits).read b =
      if a ≤ b ∧ b < a + bits.length then bits.getD (b - a) false else m.read b := by
  induction bits generalizing m a with
  | nil => simp [Memory.writeRun]; omega
  | cons v bs ih =>
    rw [Memory.writeRun, ih (Memory.wf_write hm a v), Memory.read_write hm, List.length_cons]
    by_cases h0 : b = a
    · subst h0; simp
    · by_cases h1 : a + 1 ≤ b ∧ b < a + 1 + bs.length
      · have h2 : a ≤ b ∧ b < a + (bs.length + 1) := by omega
        rw [if_pos h1, if_pos h2]
        have : b - a = (b - (a + 1)) + 1 := by omega
        rw [this, List.getD_cons_succ]
      · have h2 : ¬ (a ≤ b ∧ b < a + (bs.length + 1)) := by omega
        rw [if_neg h1, if_neg h2, if_neg h0]

/-- Reading back the run just written gives the bits written. -/
theorem Memory.readRun_writeRun {m : Memory} (hm : m.wf = true) (a : Nat) (bits : List Bit) :
    (m.writeRun a bits).readRun a bits.length = bits := by
  apply List.ext_getElem (by simp)
  intro i h1 h2
  rw [Memory.getElem_readRun, Memory.read_writeRun hm, if_pos (by omega), Nat.add_sub_cancel_left,
    List.getD_eq_getElem]

/-! ### Equal readings mean equal memories -/

theorem Memory.ext_read {m m' : Memory} (hm : m.wf = true) (hm' : m'.wf = true)
    (h : ∀ a, m.read a = m'.read a) : m = m' := by
  induction m generalizing m' with
  | nil =>
    cases m' with
    | nil => rfl
    | cons c t =>
      obtain ⟨a, v⟩ := c
      exact absurd (h a) (by
        simpa [Memory.read] using (Ne.symm (Memory.wf_cons.1 hm').1))
  | cons c t ih =>
    obtain ⟨a, v⟩ := c
    obtain ⟨hv, ha, ht⟩ := Memory.wf_cons.1 hm
    cases m' with
    | nil => exact absurd (h a) (by simpa [Memory.read] using hv)
    | cons c' t' =>
      obtain ⟨b, w⟩ := c'
      obtain ⟨hw, hb, ht'⟩ := Memory.wf_cons.1 hm'
      have hab : a = b := by
        rcases Nat.lt_trichotomy a b with hlt | heq | hlt
        · have h1 := h a
          rw [Memory.read_of_lt (m := (b, w) :: t') (by
            intro c hc
            rcases List.mem_cons.1 hc with rfl | hc
            · exact hlt
            · exact Nat.lt_trans hlt (hb c hc))] at h1
          exact absurd h1 (by simpa [Memory.read] using hv)
        · exact heq
        · have h1 := h b
          rw [Memory.read_of_lt (m := (a, v) :: t) (by
            intro c hc
            rcases List.mem_cons.1 hc with rfl | hc
            · exact hlt
            · exact Nat.lt_trans hlt (ha c hc))] at h1
          exact absurd h1.symm (by simpa [Memory.read] using hw)
      subst hab
      have hvw : v = w := by simpa [Memory.read] using h a
      subst hvw
      have : t = t' := by
        refine ih ht ht' fun x => ?_
        by_cases hx : x = a
        · subst hx
          rw [Memory.read_of_lt ha, Memory.read_of_lt hb]
        · simpa [Memory.read, hx] using h x
      rw [this]

end Sys2Proof.Machine
end

