-- ==== Sys2Proof/Laws/Ops.lean ====
section
/-! SUPPORT. What the shared operations answer, said once: an engine read or write of a memory, the
frame of a command, the twelve meanings as instances of that frame, and the step. -/

namespace Sys2Proof.Machine

open Sys2Proof

/-! ### Engine accesses -/

theorem fetchBits_eq_ok {s : State} {sp : Space} {a n : Nat} {bits : List Bit} :
    fetchBits s sp a n = .ok bits ↔ a + n ≤ s.cap sp ∧ bits = (s.mem sp).readRun a n := by
  unfold fetchBits
  split <;> simp_all [eq_comm]

theorem fetchBits_ok {s : State} {sp : Space} {a n : Nat} (h : a + n ≤ s.cap sp) :
    fetchBits s sp a n = .ok ((s.mem sp).readRun a n) := if_pos h

theorem storeBits_eq_ok {s t : State} {a : Nat} {bits : List Bit} :
    storeBits s a bits = .ok t ↔
      a + bits.length ≤ s.config.codeCap ∧ t = { s with code := s.code.writeRun a bits } := by
  unfold storeBits
  split <;> simp_all [eq_comm]

theorem storeBits_ok {s : State} {a : Nat} {bits : List Bit}
    (h : a + bits.length ≤ s.config.codeCap) :
    storeBits s a bits = .ok { s with code := s.code.writeRun a bits } := if_pos h

/-- A sequence of two accesses answers only if both do. -/
theorem bind_eq_ok {α β : Type} {x : Except Fault α} {f : α → Except Fault β} {b : β} :
    (x >>= f) = .ok b ↔ ∃ a, x = .ok a ∧ f a = .ok b := by
  cases x with
  | ok a =>
    constructor
    · intro h; exact ⟨a, rfl, h⟩
    · intro ⟨_, h1, h2⟩; cases h1; exact h2
  | error e =>
    constructor
    · intro h; cases h
    · intro ⟨_, h1, _⟩; cases h1

/-! ### The frame of a command -/

/-- A frozen engine drops the command (R139). -/
theorem runCommand_frozen {w : Word} {check : State → Option ErrorCode}
    {effect : State → Except Fault State} {s : State} (h : s.err = true) :
    runCommand w check effect s = .next s.advance := by simp [runCommand, h]

/-- A check that fails raises its error (R131). -/
theorem runCommand_raise {w : Word} {check : State → Option ErrorCode}
    {effect : State → Except Fault State} {s : State} {e : ErrorCode} (h : s.err = false)
    (hc : check s = some e) : runCommand w check effect s = .next (raiseError e w s).advance := by
  simp [runCommand, h, hc]

/-- With every check passed the command has its effect. -/
theorem runCommand_effect {w : Word} {check : State → Option ErrorCode}
    {effect : State → Except Fault State} {s t : State} (h : s.err = false)
    (hc : check s = none) (he : effect s = .ok t) :
    runCommand w check effect s = .next t.advance := by simp [runCommand, h, hc, he]

/-- Everything the frame of a command can answer as a next state. -/
theorem runCommand_next {w : Word} {check : State → Option ErrorCode}
    {effect : State → Except Fault State} {s t : State}
    (h : runCommand w check effect s = .next t) :
    (s.err = true ∧ t = s.advance) ∨
    (s.err = false ∧ ∃ e, check s = some e ∧ t = (raiseError e w s).advance) ∨
    (s.err = false ∧ check s = none ∧ ∃ u, effect s = .ok u ∧ t = u.advance) := by
  unfold runCommand at h
  split at h
  · next he => cases h; exact .inl ⟨he, rfl⟩
  · next he =>
    have he : s.err = false := by simpa using he
    split at h
    · next e hc => cases h; exact .inr (.inl ⟨he, e, hc, rfl⟩)
    · next hc =>
      split at h
      · next u hu => cases h; exact .inr (.inr ⟨he, hc, u, hu, rfl⟩)
      · cases h

/-- The frame never refuses, and it faults only when the effect does. -/
theorem runCommand_total {w : Word} {check : State → Option ErrorCode}
    {effect : State → Except Fault State} {s : State}
    (h : s.err = false → check s = none → ∃ u, effect s = .ok u) :
    ∃ t, runCommand w check effect s = .next t := by
  unfold runCommand
  split
  · exact ⟨_, rfl⟩
  · next he =>
    split
    · exact ⟨_, rfl⟩
    · next hc =>
      obtain ⟨u, hu⟩ := h (by simpa using he) hc
      rw [hu]
      exact ⟨_, rfl⟩

end Sys2Proof.Machine
end

