-- ==== Sys2Proof/Laws/Effects.lean ====
section
/-! SUPPORT. The effect of each command beside its meaning, the twelve meanings as instances of one
frame, and what each effect answers. -/

namespace Sys2Proof.Machine

open Sys2Proof

/-- The effect of a command once every check has passed. -/
def effectOf : Instr → State → Except Fault State
  | .nop       => fun t => .ok t
  | .setd d    => fun t => .ok { t with d := immReg d }
  | .setlen n  => fun t => .ok { t with mlen := immReg n }
  | .setclen n => fun t => .ok { t with clen := immReg n }
  | .flip a    => flipBit a
  | .clrerr    => fun t => .ok (clearError t)
  | .encPb     => encPbEffect
  | .encPm     => encPmEffect
  | .chkPb n   => chkPbEffect n
  | .chkPm n   => checkMatrix n
  | .chkallPb  => chkallPbEffect
  | .chkallPm  => chkallPmEffect

/-- Every command but `CLRERR` runs in the frame (R139). -/
theorem exec_eq_runCommand {i : Instr} (h : i ≠ .clrerr) (s : State) :
    exec i s = runCommand (encode i) (fun u => checkOf u i) (effectOf i) s := by
  cases i <;> first | rfl | exact absurd rfl h

/-- `CLRERR` is executed by the frozen engine too (R125, R139). -/
theorem exec_clrerr (s : State) : exec .clrerr s = .next (clearError s).advance := rfl

/-- Everything a command can answer as a next state. -/
theorem exec_next {i : Instr} {s t : State} (h : exec i s = .next t) :
    (i = .clrerr ∧ t = (clearError s).advance) ∨
    (i ≠ .clrerr ∧ s.err = true ∧ t = s.advance) ∨
    (i ≠ .clrerr ∧ s.err = false ∧ ∃ e, checkOf s i = some e ∧
      t = (raiseError e (encode i) s).advance) ∨
    (i ≠ .clrerr ∧ s.err = false ∧ checkOf s i = none ∧ ∃ u, effectOf i s = .ok u ∧
      t = u.advance) := by
  by_cases hi : i = .clrerr
  · subst hi
    rw [exec_clrerr] at h
    cases h
    exact .inl ⟨rfl, rfl⟩
  · rw [exec_eq_runCommand hi] at h
    rcases runCommand_next h with ⟨a, b⟩ | ⟨a, e, b, c⟩ | ⟨a, b, u, c, d⟩
    · exact .inr (.inl ⟨hi, a, b⟩)
    · exact .inr (.inr (.inl ⟨hi, a, e, b, c⟩))
    · exact .inr (.inr (.inr ⟨hi, a, b, u, c, d⟩))

/-! ### The housekeeping effects -/

/-- `FLIP` inverts the one bit (R124). -/
theorem flipBit_ok {a : Nat} {s : State} (h : a < s.config.codeCap) :
    flipBit a s = .ok { s with code := s.code.write a (!s.code.read a) } := by
  have h1 : fetchBits s .code a 1 = .ok [s.code.read a] := fetchBits_ok (sp := .code) h
  have h2 : storeBits s a [!s.code.read a] = .ok _ := storeBits_ok (by simpa using h)
  simp only [flipBit, h1]
  exact h2

/-! ### The encoders -/

/-- The effect of `ENC.PB` when the message and the code fit (R71). -/
theorem encPbEffect_ok {s : State} (hd : 2 ≤ s.dVal) (hm : s.mlenVal ≤ s.config.msgCap)
    (hc : encPbLength s ≤ s.config.codeCap) :
    encPbEffect s = .ok
      { s with code := s.code.writeRun 0 (pbEncode (s.msg.readRun 0 s.mlenVal) s.dVal),
               clen := countReg (encPbLength s) } := by
  have h1 : fetchBits s .msg 0 s.mlenVal = .ok (s.msg.readRun 0 s.mlenVal) :=
    fetchBits_ok (sp := .msg) (by simpa using hm)
  have h2 : storeBits s 0 (pbEncode (s.msg.readRun 0 s.mlenVal) s.dVal) = .ok _ :=
    storeBits_ok (by simpa [length_pbEncode _ hd, encPbLength] using hc)
  simp only [encPbEffect, h1]
  change (storeBits s 0 _ >>= _) = _
  rw [h2]; rfl

/-- The effect of `ENC.PM` when the message and the code fit (R83). -/
theorem encPmEffect_ok {s : State} (hd : pmLegal s.dVal) (hm : s.mlenVal ≤ s.config.msgCap)
    (hc : encPmLength s ≤ s.config.codeCap) :
    encPmEffect s = .ok
      { s with code := s.code.writeRun 0 (pmEncode (s.msg.readRun 0 s.mlenVal) s.dVal),
               clen := countReg (encPmLength s) } := by
  have h1 : fetchBits s .msg 0 s.mlenVal = .ok (s.msg.readRun 0 s.mlenVal) :=
    fetchBits_ok (sp := .msg) (by simpa using hm)
  have h2 : storeBits s 0 (pmEncode (s.msg.readRun 0 s.mlenVal) s.dVal) = .ok _ :=
    storeBits_ok (by
      rw [length_pmEncode, hd.1]
      simpa [encPmLength, State.dim] using hc)
  simp only [encPmEffect, h1]
  change (storeBits s 0 _ >>= _) = _
  rw [h2]; rfl

/-! ### The parity-bit validator -/

/-- The effect of `CHK.PB n` when the code lies in CODE (R91). -/
theorem chkPbEffect_ok {n : Nat} {s : State} (hc : s.clenVal ≤ s.config.codeCap)
    (hn : n * s.dVal ≤ s.clenVal) :
    chkPbEffect n s = .ok (s.setVerdict (pbValid (s.code.readRun (n * s.dVal)
      (min (n * s.dVal + s.dVal) s.clenVal - n * s.dVal))) false) := by
  have h1 : fetchBits s .code (n * s.dVal) (min (n * s.dVal + s.dVal) s.clenVal - n * s.dVal) =
      .ok _ := fetchBits_ok (sp := .code) (by simp only [cap_code]; omega)
  simp only [chkPbEffect, h1]
  rfl

/-- The effect of `CHKALL.PB` when the code lies in CODE (R93). -/
theorem chkallPbEffect_ok {s : State} (hc : s.clenVal ≤ s.config.codeCap) :
    chkallPbEffect s = .ok (s.setVerdict ((List.range s.blocks).all fun n =>
      pbValid (pbBlockAt (s.code.readRun 0 s.clenVal) s.dVal n)) false) := by
  have h1 : fetchBits s .code 0 s.clenVal = .ok (s.code.readRun 0 s.clenVal) :=
    fetchBits_ok (sp := .code) (by simpa using hc)
  simp only [chkallPbEffect, h1]
  rfl

/-- A slice of a run is a shorter run. -/
theorem slice_readRun (m : Memory) {n lo hi : Nat} (h : hi ≤ n) :
    slice (m.readRun 0 n) lo hi = m.readRun lo (hi - lo) := by
  apply List.ext_getElem
  · simp [length_slice]; omega
  · intro i h1 h2
    rw [Memory.getElem_readRun, ← List.getD_eq_getElem _ false h1,
      getD_slice (by simpa using h2), Memory.getD_readRun _ _ (by simp at h2; omega)]
    simp

/-! ### The parity-matrix validator and corrector -/

/-- The grid of matrix `n`, read from CODE (R100). -/
def matrixGrid (s : State) (n : Nat) : Grid :=
  fun r c => s.code.read (n * s.dVal + (r * s.dim + c))

/-- The state after a matrix check whose outcome is `res` (R104). -/
def afterCheck (n : Nat) (s : State) (res : PmResult) : State :=
  match res.flip with
  | none => ({ s with ncand := countReg res.count }).setVerdict res.verdict false
  | some (r, c) =>
    ({ s with code := s.code.write (n * s.dVal + r * s.dim + c) (!matrixGrid s n r c),
              loc := locReg r c,
              ncand := countReg res.count }).setVerdict res.verdict true

/-- The grid of the fetched bits is the grid in CODE, cell by cell. -/
theorem gridOf_readRun {s : State} {n r c : Nat} (hd : s.dim * s.dim = s.dVal) (hr : r < s.dim)
    (hc : c < s.dim) :
    gridOf s.dim (s.code.readRun (n * s.dVal) s.dVal) r c = matrixGrid s n r c := by
  have := Nat.mul_le_mul_right s.dim (Nat.succ_le_of_lt hr)
  rw [Nat.succ_mul] at this
  rw [gridOf, Memory.getD_readRun _ _ (by omega)]
  rfl

/-- The effect of `CHK.PM n` when the matrix lies in CODE (R104). -/
theorem checkMatrix_ok {n : Nat} {s : State} (hd : s.dim * s.dim = s.dVal)
    (hc : n * s.dVal + s.dVal ≤ s.config.codeCap) :
    checkMatrix n s = .ok (afterCheck n s (pmCheck s.dim (matrixGrid s n))) := by
  have h1 : fetchBits s .code (n * s.dVal) s.dVal = .ok (s.code.readRun (n * s.dVal) s.dVal) :=
    fetchBits_ok (sp := .code) hc
  have h2 : pmCheck s.dim (gridOf s.dim (s.code.readRun (n * s.dVal) s.dVal)) =
      pmCheck s.dim (matrixGrid s n) :=
    pmCheck_congr fun r hr c hc => gridOf_readRun hd hr hc
  simp only [checkMatrix, h1]
  change (correctCell _ _ _ s (pmCheck _ _).flip >>= _) = _
  rw [h2]
  unfold afterCheck
  split
  · next heq => rw [heq]; rfl
  · next r c heq =>
    obtain ⟨hr, hcc⟩ := flip_bounds heq
    have := Nat.mul_le_mul_right s.dim (Nat.succ_le_of_lt (show r < s.dim by omega))
    rw [Nat.succ_mul] at this
    rw [heq]
    have h3 : storeBits s (n * s.dVal + r * s.dim + c)
        [!(gridOf s.dim (s.code.readRun (n * s.dVal) s.dVal) r c)] = .ok _ :=
      storeBits_ok (by simp only [List.length_cons, List.length_nil]; omega)
    simp only [correctCell]
    rw [h3, gridOf_readRun hd (by omega) hcc]
    rfl

/-! ### The step -/

/-- A step with a host step pending carries it out. -/
theorem step_cons {s : State} {e : HostStep} {rest : List HostStep}
    (h : s.pending = e :: rest) : step s = hostStep e (s.withPending rest) := by
  simp [step, h]

end Sys2Proof.Machine
end

