-- ==== Sys2Proof/Laws/Frames.lean ====
section
/-! SUPPORT. What each effect leaves alone, said once for every instruction; a command that passes its
checks and one that fails one; and the shape of a legal parameter D. -/

namespace Sys2Proof.Machine

open Sys2Proof

/-! ### A command that completes and one that raises -/

/-- The error entry of the model is the one of 60_exceptions.md R131. -/
theorem latched_raise (e : ErrorCode) (w : Word) (s : State) :
    Latched e w s (raiseError e w s).advance :=
  ⟨by simp, by simp, by simp, by simp, by simp, by simp, rfl⟩

/-- A command whose check fails, the engine not frozen, does the error entry (R131). -/
theorem exec_raise {i : Instr} (hi : i ≠ .clrerr) {s : State} (he : s.err = false) {e : ErrorCode}
    (hc : checkOf s i = some e) : ∃ t, exec i s = .next t ∧ Latched e (encode i) s t :=
  ⟨_, by rw [exec_eq_runCommand hi]; exact runCommand_raise he hc, latched_raise _ _ _⟩

/-- A command whose checks pass, the engine not frozen, has its effect. -/
theorem exec_done {i : Instr} (hi : i ≠ .clrerr) {s u : State} (he : s.err = false)
    (hc : checkOf s i = none) (hu : effectOf i s = .ok u) : exec i s = .next u.advance := by
  rw [exec_eq_runCommand hi]; exact runCommand_effect he hc hu

/-- A word that is no command, the engine not frozen, does the error entry (30_encoding.md R56). -/
theorem commandWord_illegal {w : Word} {s : State} {e : DecodeError} (hw : decode w = .error e)
    (he : s.err = false) : commandWord w s = .next (raiseError .illegalCommand w s).advance := by
  simp only [commandWord, hw, rejectWord]
  exact runCommand_raise he rfl

/-- A frozen engine drops every word but the one of `CLRERR` (60_exceptions.md R139). -/
theorem commandWord_frozen {w : Word} {s : State} (he : s.err = true)
    (hw : decode w ≠ .ok .clrerr) : commandWord w s = .next s.advance := by
  unfold commandWord
  split
  · next i hi =>
    rw [exec_eq_runCommand (fun h => hw (h ▸ hi))]
    exact runCommand_frozen he
  · exact runCommand_frozen he

/-- `CHK.PM`, `ENC.PM` and `CHKALL.PM` take exactly the squares of a side of at least 2 (R3). -/
theorem pmLegal_square {d dim : Nat} (h2 : 2 ≤ dim) (h : d = dim * dim) :
    pmLegal d ∧ isqrt d = dim := by
  subst h; simp [pmLegal, h2]

theorem pmLegal_iff {d : Nat} : pmLegal d ↔ ∃ dim, 2 ≤ dim ∧ dim * dim = d :=
  ⟨fun h => ⟨_, h.2, h.1⟩, fun ⟨_, h2, h⟩ => (pmLegal_square h2 h.symm).1⟩

/-- Parity by counting is `par` (R6). -/
theorem oddOnes_eq (n : Nat) (f : Nat → Bit) : oddOnes n f = par ((List.range n).map f) := by
  rw [par_eq_count, oddOnes]
  simp [List.count_eq_countP, List.countP_map, Function.comp_def]

/-! ### Checks that passed -/

theorem encPbCheck_none {s : State} (h : encPbCheck s = none) :
    2 ≤ s.dVal ∧ 0 < s.mlenVal ∧ encPbLength s ≤ s.config.codeCap := by
  unfold encPbCheck at h
  split at h; · cases h
  split at h; · cases h
  split at h; · cases h
  omega

theorem encPmCheck_none {s : State} (h : encPmCheck s = none) :
    pmLegal s.dVal ∧ 0 < s.mlenVal ∧ encPmLength s ≤ s.config.codeCap := by
  unfold encPmCheck at h
  split at h; · cases h
  split at h; · cases h
  split at h; · cases h
  exact ⟨not_not.1 (by assumption), by omega, by omega⟩

theorem chkPbCheck_none {n : Nat} {s : State} (h : chkPbCheck n s = none) :
    2 ≤ s.dVal ∧ 0 < s.clenVal ∧ n * s.dVal < s.clenVal := by
  unfold chkPbCheck at h
  split at h; · cases h
  split at h; · cases h
  split at h; · cases h
  next h1 h2 h3 =>
  exact ⟨by omega, by omega, (lt_ceilDiv (by omega)).1 (Nat.not_le.1 h3)⟩

theorem chkallPbCheck_none {s : State} (h : chkallPbCheck s = none) :
    2 ≤ s.dVal ∧ 0 < s.clenVal := by
  unfold chkallPbCheck at h
  split at h; · cases h
  split at h; · cases h
  omega

theorem chkallPmCheck_none {s : State} (h : chkallPmCheck s = none) :
    pmLegal s.dVal ∧ 0 < s.clenVal ∧ s.clenVal % s.dVal = 0 := by
  unfold chkallPmCheck at h
  split at h; · cases h
  split at h; · cases h
  split at h; · cases h
  exact ⟨not_not.1 (by assumption), by omega, by omega⟩

theorem chkPmCheck_none {n : Nat} {s : State} (h : chkPmCheck n s = none) :
    pmLegal s.dVal ∧ 0 < s.clenVal ∧ s.clenVal % s.dVal = 0 ∧ n < s.matrices := by
  unfold chkPmCheck at h
  split at h; · cases h
  split at h; · cases h
  split at h; · cases h
  split at h; · cases h
  exact ⟨not_not.1 (by assumption), by omega, by omega, by omega⟩

/-- The other way: what makes the matrix checks pass. -/
theorem chkallPmCheck_ok {s : State} (h1 : pmLegal s.dVal) (h2 : 0 < s.clenVal)
    (h3 : s.clenVal % s.dVal = 0) : chkallPmCheck s = none := by
  unfold chkallPmCheck
  rw [if_neg (not_not.2 h1), if_neg (by omega), if_neg (by omega)]

theorem chkPmCheck_ok {n : Nat} {s : State} (h1 : pmLegal s.dVal) (h2 : 0 < s.clenVal)
    (h3 : s.clenVal % s.dVal = 0) (h4 : n < s.matrices) : chkPmCheck n s = none := by
  unfold chkPmCheck
  rw [if_neg (not_not.2 h1), if_neg (by omega), if_neg (by omega), if_neg (by omega)]

/-- A matrix whose index is legal lies in the code (R104). -/
theorem matrix_in_code {n : Nat} {s : State} (h : n < s.matrices) :
    n * s.dVal + s.dVal ≤ s.clenVal := by
  have := Nat.mul_le_mul_right s.dVal (Nat.succ_le_of_lt h)
  have h2 := Nat.div_mul_le_self s.clenVal s.dVal
  rw [Nat.succ_mul] at this
  exact Nat.le_trans this h2

/-! ### What an effect leaves alone -/

/-- The frame of a matrix check: STATUS changes in VALID and CORR only, and besides it only LOC, NCAND
and CODE can change (10_state.md R24). -/
theorem checkMatrix_frame {n : Nat} {s t : State} (h : checkMatrix n s = .ok t) :
    t = ({ s with loc := t.loc, ncand := t.ncand, code := t.code } : State).setVerdict
      t.valid t.corr := by
  simp only [checkMatrix] at h
  obtain ⟨bits, -, h⟩ := bind_eq_ok.1 h
  obtain ⟨u, hu, h⟩ := bind_eq_ok.1 h
  cases h
  have hs : u = { s with loc := u.loc, code := u.code } := by
    revert hu
    generalize (pmCheck s.dim (gridOf s.dim bits)).flip = f
    intro hu
    cases f with
    | none => cases hu; rfl
    | some rc =>
      simp only [correctCell] at hu
      obtain ⟨v, hv, hu⟩ := bind_eq_ok.1 hu
      cases hu
      obtain ⟨-, rfl⟩ := storeBits_eq_ok.1 hv
      rfl
  simp only [setVerdict_valid, setVerdict_corr]
  rw [hs]; rfl

/-- The frame of the loop over matrices is the same (R105). -/
theorem checkMatrices_frame {ns : List Nat} : ∀ {v k : Bool} {s t : State},
    checkMatrices ns v k s = .ok t →
    t = ({ s with loc := t.loc, ncand := t.ncand, code := t.code } : State).setVerdict
      t.valid t.corr := by
  induction ns with
  | nil => intro v k s t h; cases h; simp
  | cons n ns ih =>
    intro v k s t h
    simp only [checkMatrices] at h
    obtain ⟨u, hu, h⟩ := bind_eq_ok.1 h
    have h1 := ih h
    rw [checkMatrix_frame hu] at h1
    refine h1.trans ?_
    simp [State.setVerdict]

/-- What the effect of each command can change (10_state.md R24, 20_memory.md R42). -/
theorem effectOf_frame {i : Instr} {s u : State} (h : effectOf i s = .ok u) :
    match i with
    | .nop       => u = s
    | .setd d    => u = { s with d := immReg d }
    | .setlen n  => u = { s with mlen := immReg n }
    | .setclen n => u = { s with clen := immReg n }
    | .flip _    => u = { s with code := u.code }
    | .clrerr    => u = clearError s
    | .encPb     => u = { s with code := u.code, clen := u.clen }
    | .encPm     => u = { s with code := u.code, clen := u.clen }
    | .chkPb _   => u = s.setVerdict u.valid false
    | .chkPm _   => u = ({ s with loc := u.loc, ncand := u.ncand, code := u.code } :
        State).setVerdict u.valid u.corr
    | .chkallPb  => u = s.setVerdict u.valid false
    | .chkallPm  => u = ({ s with loc := u.loc, ncand := u.ncand, code := u.code } :
        State).setVerdict u.valid u.corr := by
  cases i with
  | nop => cases h; rfl
  | setd d => cases h; rfl
  | setlen n => cases h; rfl
  | setclen n => cases h; rfl
  | flip a =>
    obtain ⟨_, -, h⟩ := bind_eq_ok.1 h
    obtain ⟨-, rfl⟩ := storeBits_eq_ok.1 h
    rfl
  | clrerr => cases h; rfl
  | encPb =>
    obtain ⟨_, -, h⟩ := bind_eq_ok.1 h
    obtain ⟨_, h1, h⟩ := bind_eq_ok.1 h
    obtain ⟨-, rfl⟩ := storeBits_eq_ok.1 h1
    cases h; rfl
  | encPm =>
    obtain ⟨_, -, h⟩ := bind_eq_ok.1 h
    obtain ⟨_, h1, h⟩ := bind_eq_ok.1 h
    obtain ⟨-, rfl⟩ := storeBits_eq_ok.1 h1
    cases h; rfl
  | chkPb n =>
    obtain ⟨_, -, h⟩ := bind_eq_ok.1 h
    cases h; simp
  | chkPm n => exact checkMatrix_frame h
  | chkallPb =>
    obtain ⟨_, -, h⟩ := bind_eq_ok.1 h
    cases h; simp
  | chkallPm => exact checkMatrices_frame h

/-! ### What a matrix check writes in CODE -/

/-- A run of `d` cells from `m * d` meets the run from `n * d` only if they are one run. -/
theorem run_disjoint {a d m n : Nat} (h1 : m * d ≤ a) (h2 : a < m * d + d) (h3 : n * d ≤ a)
    (h4 : a < n * d + d) : m = n := by
  rcases Nat.lt_trichotomy m n with h | h | h
  · have := Nat.mul_le_mul_right d (Nat.succ_le_of_lt h)
    rw [Nat.succ_mul] at this
    omega
  · exact h
  · have := Nat.mul_le_mul_right d (Nat.succ_le_of_lt h)
    rw [Nat.succ_mul] at this
    omega

/-- Cell `(r, c)` of a matrix lies in its run of `dim * dim` cells (30_encoding.md R63). -/
theorem cell_lt {dim r c : Nat} (hr : r < dim) (hc : c < dim) : r * dim + c < dim * dim := by
  have := Nat.mul_le_mul_right dim (Nat.succ_le_of_lt hr)
  rw [Nat.succ_mul] at this
  omega

/-- The located cell lies in its matrix. -/
theorem Locates.bounds {s : State} {n a : Nat} (hd : s.dim * s.dim = s.dVal) (h : Locates s n a) :
    n * s.dVal ≤ a ∧ a < n * s.dVal + s.dVal := by
  obtain ⟨r, c, hf, rfl⟩ := h
  obtain ⟨hr, hc⟩ := flip_bounds hf
  have := cell_lt (show r < s.dim by omega) hc
  omega

/-- A matrix check writes LOC only when it sets CORR (R104). -/
theorem checkMatrix_loc {n : Nat} {s t : State} (h : checkMatrix n s = .ok t)
    (hk : t.corr = false) : t.loc = s.loc := by
  simp only [checkMatrix] at h
  obtain ⟨bits, -, h⟩ := bind_eq_ok.1 h
  obtain ⟨u, hu, h⟩ := bind_eq_ok.1 h
  cases h
  rw [setVerdict_corr, Option.isSome_eq_false_iff, Option.isNone_iff_eq_none] at hk
  rw [hk] at hu
  cases hu
  rfl

/-- The loop writes LOC only when it sets CORR (R105). -/
theorem checkMatrices_loc {ns : List Nat} : ∀ {v k : Bool} {s t : State},
    checkMatrices ns v k s = .ok t → t.corr = false → k = false ∧ t.loc = s.loc := by
  induction ns with
  | nil => intro v k s t h hk; cases h; exact ⟨by simpa using hk, rfl⟩
  | cons n ns ih =>
    intro v k s t h hk
    simp only [checkMatrices] at h
    obtain ⟨u, hu, h⟩ := bind_eq_ok.1 h
    obtain ⟨h1, h2⟩ := ih h hk
    rw [Bool.or_eq_false_iff] at h1
    exact ⟨h1.1, h2.trans (checkMatrix_loc hu h1.2)⟩

/-- All a check of matrix `n` does to CODE: it keeps D and the canonical form, and it changes no cell
but the located one (R104). -/
theorem checkMatrix_code {n : Nat} {s t : State} (h : checkMatrix n s = .ok t)
    (hw : s.code.wf = true) :
    t.d = s.d ∧ t.code.wf = true ∧ ∀ a, t.code.read a ≠ s.code.read a → Locates s n a := by
  simp only [checkMatrix] at h
  obtain ⟨bits, hb, h⟩ := bind_eq_ok.1 h
  obtain ⟨-, rfl⟩ := fetchBits_eq_ok.1 hb
  obtain ⟨u, hu, h⟩ := bind_eq_ok.1 h
  cases h
  rw [mem_code] at hu
  cases hf : (pmCheck s.dim (gridOf s.dim (s.code.readRun (n * s.dVal) s.dVal))).flip with
  | none =>
    rw [hf] at hu
    cases hu
    exact ⟨rfl, hw, fun a ha => absurd rfl ha⟩
  | some rc =>
    obtain ⟨r, c⟩ := rc
    rw [hf] at hu
    simp only [correctCell] at hu
    obtain ⟨v, hv, hu⟩ := bind_eq_ok.1 hu
    obtain ⟨-, rfl⟩ := storeBits_eq_ok.1 hv
    cases hu
    refine ⟨rfl, Memory.wf_write hw _ _, fun a ha => ⟨r, c, hf, ?_⟩⟩
    change (s.code.write _ _).read a ≠ _ at ha
    rw [Memory.read_write hw] at ha
    split at ha
    · assumption
    · exact absurd rfl ha

/-- The same for the loop over distinct matrices (R105): every changed bit of CODE is the cell located
in one of them, as the matrix stood before the loop. -/
theorem checkMatrices_code {ns : List Nat} : ∀ {v k : Bool} {s t : State},
    checkMatrices ns v k s = .ok t → ns.Nodup → s.code.wf = true → s.dim * s.dim = s.dVal →
    ∀ a, t.code.read a ≠ s.code.read a → ∃ n ∈ ns, Locates s n a := by
  induction ns with
  | nil => intro v k s t h _ _ _ a ha; cases h; exact absurd rfl ha
  | cons n ns ih =>
    intro v k s t h hn hw hd a ha
    simp only [checkMatrices] at h
    obtain ⟨u, hu, h⟩ := bind_eq_ok.1 h
    obtain ⟨e, hw', hc⟩ := checkMatrix_code hu hw
    have ev : u.dVal = s.dVal := congrArg BitVec.toNat e
    have em : u.dim = s.dim := congrArg isqrt ev
    by_cases hau : u.code.read a = s.code.read a
    · obtain ⟨m, hm, r, c, hf, rfl⟩ :=
        ih h (List.nodup_cons.1 hn).2 hw' (by rw [em, ev]; exact hd) a (by rwa [hau])
      have hne : m ≠ n := fun h => (List.nodup_cons.1 hn).1 (h ▸ hm)
      have hrun : u.code.readRun (m * s.dVal) s.dVal = s.code.readRun (m * s.dVal) s.dVal :=
        Memory.readRun_congr fun i hi => by
          by_contra hx
          have b := (hc _ hx).bounds hd
          exact hne (run_disjoint (by omega) (by omega) b.1 b.2)
      exact ⟨m, List.mem_cons_of_mem _ hm, r, c, by rwa [em, ev, hrun] at hf, by rw [em, ev]⟩
    · exact ⟨n, List.mem_cons_self, hc a hau⟩

end Sys2Proof.Machine
end

