-- ==== Sys2Proof/Laws/PerInstr.lean ====
section
/-! SUPPORT. Facts about every command as syntax, one lemma per constructor. `OpcodeRow`: the word of
a command lies in the command's own row of the opcode map (30_encoding.md R54), and that row is in
the map. -/

namespace Sys2Proof

/-- The bits of the opcode mask of R54. -/
theorem opcodeMask_getElem : ∀ i, (h : i < 32) → (0xFF000000#32)[i] = decide (24 ≤ i) := by decide

/-- The mask of a command with an operand keeps the opcode and drops the immediate. -/
theorem and_opcodeMask (w : Word) : w &&& 0xFF000000#32 = (opcodeOf w).setWidth 32 <<< 24 := by
  ext i hi
  rw [BitVec.getElem_and, opcodeMask_getElem i hi]
  by_cases h : 24 ≤ i
  · have h1 : ¬ i < 24 := by omega
    have h2 : i - 24 < 8 := by omega
    have h3 : 24 + (i - 24) = i := by omega
    simp [h, h1, h2, h3, opcodeOf, BitVec.getLsbD_eq_getElem, hi]
  · have h1 : i < 24 := by omega
    simp [h, h1]

end Sys2Proof

namespace Sys2Proof.Laws.OpcodeRow

open Sys2Proof

/-- A well-formed command's word lies in the command's own row of the opcode map (R54). -/
def Statement (i : Instr) : Prop :=
  i.wf = true → encode i &&& i.row.mask = i.row.code ∧ i.row ∈ opcodeMap

/-- A row whose mask is the opcode mask. -/
theorem operand_row (op : BitVec 8) (imm : Nat) :
    wordOf op imm &&& 0xFF000000#32 = op.setWidth 32 <<< 24 := by
  rw [and_opcodeMask, opcodeOf_wordOf]

theorem nop : Statement .nop := fun _ => by decide
theorem setd (d : Nat) : Statement (.setd d) := fun _ =>
  ⟨operand_row 0x01#8 d, by simp [opcodeMap, Instr.row]⟩
theorem setlen (len : Nat) : Statement (.setlen len) := fun _ =>
  ⟨operand_row 0x02#8 len, by simp [opcodeMap, Instr.row]⟩
theorem setclen (len : Nat) : Statement (.setclen len) := fun _ =>
  ⟨operand_row 0x03#8 len, by simp [opcodeMap, Instr.row]⟩
theorem flip (a : Nat) : Statement (.flip a) := fun _ =>
  ⟨operand_row 0x04#8 a, by simp [opcodeMap, Instr.row]⟩
theorem clrerr : Statement .clrerr := fun _ => by decide
theorem encPb : Statement .encPb := fun _ => by decide
theorem encPm : Statement .encPm := fun _ => by decide
theorem chkPb (n : Nat) : Statement (.chkPb n) := fun _ =>
  ⟨operand_row 0x20#8 n, by simp [opcodeMap, Instr.row]⟩
theorem chkPm (n : Nat) : Statement (.chkPm n) := fun _ =>
  ⟨operand_row 0x21#8 n, by simp [opcodeMap, Instr.row]⟩
theorem chkallPb : Statement .chkallPb := fun _ => by decide
theorem chkallPm : Statement .chkallPm := fun _ => by decide

end Sys2Proof.Laws.OpcodeRow
end

