-- ==== Sys2Proof/Tests/Slice0.lean ====
section
/-! SUPPORT. The model's own tests. Expected words come from the encodings of 30_encoding.md R54, R58,
expected results from the vectors of 95_test_vectors.md, whose names the theorems carry in their
docstrings. Then, for every statement that has hypotheses, states and operands that meet them. -/

namespace Sys2Proof.Tests

open Sys2Proof Sys2Proof.Machine

/-! ### Syntax and well-formedness -/

/-- An immediate of 25 bits is no command (R52, R58), and 2^24 - 1 is the largest one. -/
theorem test_wf_setd : (Instr.setd (2 ^ 24)).wf = false ∧ (Instr.setd (2 ^ 24 - 1)).wf = true := by decide
theorem test_wf_setlen : (Instr.setlen (2 ^ 24)).wf = false := by decide
theorem test_wf_setclen : (Instr.setclen (2 ^ 24)).wf = false := by decide
theorem test_wf_flip : (Instr.flip (2 ^ 24)).wf = false := by decide
theorem test_wf_chkPb : (Instr.chkPb (2 ^ 24)).wf = false := by decide
theorem test_wf_chkPm : (Instr.chkPm (2 ^ 24)).wf = false := by decide

/-! ### Decoding: the bits of each word written out, opcode in bits 31 to 24, immediate below -/

theorem test_decode_nop : decode 0b00000000_000000000000000000000000#32 = .ok .nop := by decide
theorem test_decode_setd : decode 0b00000001_000000000000000000010000#32 = .ok (.setd 16) := by decide
theorem test_decode_setlen : decode 0b00000010_000000000000000111110100#32 = .ok (.setlen 500) := by decide
theorem test_decode_setclen : decode 0b00000011_000000000000000000010010#32 = .ok (.setclen 18) := by decide
theorem test_decode_flip : decode 0b00000100_100000000000000000000001#32 = .ok (.flip 8388609) := by decide
theorem test_decode_clrerr : decode 0b00000101_000000000000000000000000#32 = .ok .clrerr := by decide
theorem test_decode_encPb : decode 0b00010000_000000000000000000000000#32 = .ok .encPb := by decide
theorem test_decode_encPm : decode 0b00010001_000000000000000000000000#32 = .ok .encPm := by decide
theorem test_decode_chkPb : decode 0b00100000_000000000001111111111111#32 = .ok (.chkPb 8191) := by decide
theorem test_decode_chkPm : decode 0b00100001_000000000000000000000011#32 = .ok (.chkPm 3) := by decide
theorem test_decode_chkallPb : decode 0b00110000_000000000000000000000000#32 = .ok .chkallPb := by decide
theorem test_decode_chkallPm : decode 0b00110001_000000000000000000000000#32 = .ok .chkallPm := by decide

/-- The immediate is never sign extended (R52). -/
theorem test_decode_all_ones : decode 0x01FFFFFF#32 = .ok (.setd 16777215) := by decide
/-- S-ERR-1, S-ERR-2: unassigned opcodes (R56). -/
theorem test_decode_reserved :
    decode 0x06000000#32 = .error (.reservedOpcode 6) ∧
    decode 0xFF000000#32 = .error (.reservedOpcode 0xFF) := by decide
/-- S-ERR-3, S-ERR-4, S-ERR-21: a nonzero immediate where the command has none (R55). -/
theorem test_decode_nonzero :
    decode 0x00000001#32 = .error (.nonzeroImmediate 0 1) ∧
    decode 0x05000001#32 = .error (.nonzeroImmediate 5 1) ∧
    decode 0x10000001#32 = .error (.nonzeroImmediate 0x10 1) ∧
    decode 0x31800000#32 = .error (.nonzeroImmediate 0x31 0x800000) := by decide
/-- The words the table's rows are asked by. -/
theorem test_decodeTableWord : decodeTableWord 32 0x21000003 = some (.chkPm 3) ∧
    decodeTableWord 32 0x07000000 = none := by decide

/-! ### One step on small states -/

/-- Bits written as 0 and 1, the lowest address first. -/
def bits (l : List Nat) : List Bit := l.map (· == 1)

/-- A state after reset with D, MLEN and CLEN set and the memories filled from address 0. -/
def small (d mlen clen : Nat) (msg code : List Nat) : State :=
  { State.reset with d := .ofNat 24 d, mlen := .ofNat 24 mlen, clen := .ofNat 24 clen,
                     msg := Memory.writeRun [] 0 (bits msg),
                     code := Memory.writeRun [] 0 (bits code) }

/-- The state after one command word, if there is one. -/
def after (w : Word) (s : State) : Option State :=
  match step (s.withPending [.command w]) with
  | .next t => some t
  | _ => none

/-- STATUS, the code, and `pos`. -/
def seen (t : State) : BitVec 8 × List Bit × Nat := (t.status, t.code.readRun 0 t.clenVal, t.pos)

/-- S-PB-1: the message, its code and its lengths. -/
def blocks : State := small 4 7 10 [1,0,1,1,0,0,1] [1,0,1,0,1,0,0,1,1,1]

/-- S-PME-9: two matrices of side 3. -/
def matrices : State :=
  small 9 5 18 [1,0,1,1,1] [1,0,1,1,1,0,0,1,1, 1,0,1,0,0,0,1,0,1]

/-- S-PMA-6: four candidates in matrix 0, one in matrix 1. -/
def noisy : State :=
  small 9 5 18 [1,0,1,1,1] [0,0,1,1,0,0,0,1,1, 1,0,1,0,1,0,1,0,1]

/-- S-HK-14: a latched error. -/
def frozen : State := { blocks with status := 0x25, errcmd := 0x11000000 }

/-- S-HK-1. -/
theorem test_nop : after 0x00000000#32 blocks = some blocks.advance := by decide
/-- S-HK-4: no check, the largest immediate. -/
theorem test_setd : (after 0x01FFFFFF#32 blocks).map (fun t => (t.d, t.status)) =
    some (0xFFFFFF#24, 0#8) := by decide
/-- S-HK-6: `imm = MSG_CAP` is allowed. -/
theorem test_setlen : (after 0x02001000#32 blocks).map (fun t => (t.mlen.toNat, t.status)) =
    some (4096, 0#8) := by decide
/-- S-HK-7: `imm = MSG_CAP + 1` is not. -/
theorem test_setlen_range :
    (after 0x02001001#32 blocks).map (fun t => (t.mlen.toNat, t.status, t.errcmd)) =
    some (7, 0x54#8, 0x02001001#32) := by decide
/-- S-HK-8. -/
theorem test_setclen : (after 0x03000012#32 blocks).map (fun t => (t.clen.toNat, t.code == blocks.code)) =
    some (18, true) := by decide
/-- S-HK-9. -/
theorem test_setclen_range :
    (after 0x03004001#32 blocks).map (fun t => (t.clen.toNat, t.status, t.errcmd)) =
    some (10, 0x54#8, 0x03004001#32) := by decide
/-- S-HK-10. -/
theorem test_flip : (after 0x04000005#32 blocks).map seen =
    some (0#8, bits [1,0,1,0,1,1,0,1,1,1], 1) := by decide
/-- S-HK-12: the first address beyond the code. -/
theorem test_flip_range : (after 0x0400000A#32 blocks).map (fun t => (seen t, t.errcmd)) =
    some ((0x54#8, bits [1,0,1,0,1,0,0,1,1,1], 1), 0x0400000A#32) := by decide
/-- S-HK-14: VALID is kept. -/
theorem test_clrerr : (after 0x05000000#32 frozen).map (fun t => (t.status, t.errcmd, t.pos)) =
    some (0x01#8, 0#32, 1) := by decide
/-- S-FRZ-1: a frozen engine drops `SETD`; only `pos` moves. -/
theorem test_frozen : after 0x01000009#32 frozen = some frozen.advance := by decide
/-- S-ERR-3: `NOP` with a nonzero immediate. -/
theorem test_illegal : (after 0x00000001#32 blocks).map (fun t => (t.status, t.errcmd)) =
    some (0x14#8, 1#32) := by decide

/-- S-PB-1: a short last block. -/
theorem test_encPb : (after 0x10000000#32 (small 4 7 0 [1,0,1,1,0,0,1] [])).map seen =
    some (0#8, bits [1,0,1,0,1,0,0,1,1,1], 1) := by decide
/-- S-PB-2: the smallest legal D. -/
theorem test_encPb_two : (after 0x10000000#32 (small 2 1 0 [1] [])).map seen =
    some (0#8, bits [1,1], 1) := by decide
/-- S-PME-9: padding, two matrices. -/
theorem test_encPm : (after 0x11000000#32 (small 9 5 0 [1,0,1,1,1] [])).map seen =
    some (0#8, bits [1,0,1,1,1,0,0,1,1, 1,0,1,0,0,0,1,0,1], 1) := by decide
/-- S-PME-6: side 4, a parity row of ones. -/
theorem test_encPm_four : (after 0x11000000#32 (small 16 9 0 [1,1,0,1,0,0,1,0,1] [])).map seen =
    some (0#8, bits [1,1,0,0, 1,0,0,1, 1,0,1,0, 1,1,1,1], 1) := by decide
/-- S-PBC-2: the short block; S-PBC-7: CORR is cleared. -/
theorem test_chkPb : (after 0x20000002#32 { blocks with status := 0x03 }).map seen =
    some (0x01#8, bits [1,0,1,0,1,0,0,1,1,1], 1) := by decide
/-- S-PBC-8: `nb = 3`, VALID is kept. -/
theorem test_chkPb_range :
    (after 0x20000003#32 { blocks with status := 0x01 }).map (fun t => (t.status, t.errcmd)) =
    some (0x55#8, 0x20000003#32) := by decide
/-- S-PBC-5: one bad block of three. -/
theorem test_chkallPb :
    (after 0x30000000#32 { small 4 7 10 [] [1,0,1,0,1,1,0,1,1,1] with status := 0x01 }).map seen =
    some (0x00#8, bits [1,0,1,0,1,1,0,1,1,1], 1) := by decide
/-- S-PM-4 in S-PMA's second matrix (S-PMA-2 by `CHK.PM 1`): one candidate, corrected. -/
theorem test_chkPm :
    (after 0x21000001#32 noisy).map (fun t => (t.status, t.loc, t.ncand, t.code.read 13)) =
    some (0x03#8, 0x001001#24, 1#24, false) := by decide
/-- S-PM-9: four candidates, nothing written but NCAND and the verdict. -/
theorem test_chkPm_many :
    (after 0x21000000#32 { noisy with status := 0x03, loc := 7 }).map
      (fun t => (t.status, t.loc, t.ncand, t.code == noisy.code)) =
    some (0x00#8, 7#24, 4#24, true) := by decide
/-- S-PMA-6: no early exit. -/
theorem test_chkallPm : (after 0x31000000#32 noisy).map (fun t => (seen t, t.loc, t.ncand)) =
    some ((0x02#8, bits [0,0,1,1,0,0,0,1,1, 1,0,1,0,0,0,1,0,1], 1), 0x001001#24, 1#24) := by decide
/-- S-ERR-15: `10 mod 9 = 1`. -/
theorem test_chkallPm_frame : (after 0x31000000#32 (small 9 0 10 [] [])).map State.status =
    some 0x44#8 := by decide

/-- The memories of the reset state have the canonical form. -/
theorem test_reset_memory : Memory.wf State.reset.msg = true ∧ Memory.wf State.reset.code = true := by
  decide

/-! ### The host -/

/-- 20_memory.md R36: the view of STATUS is zero extended; R41: an access at the capacity is refused. -/
theorem test_readReg : step (frozen.withPending [.readReg 0]) =
    .next { frozen with answers := [.reg 0 0x00000025#32] } := rfl
theorem test_host_refused : step (blocks.withPending [.readMem .code 16384]) =
    .refused (.hostAddress .code 16384) := rfl
/-- The word a row is asked with runs as the first instruction after reset. -/
theorem test_withFetchWord :
    step (State.reset.withFetchWord 32 0x01000010) =
    .next ({ State.reset with d := 16 } : State).advance := rfl
/-- R152: a reset in a `FLIP` leaves either bit; the registers are 0. -/
theorem test_resetDuring :
    step (blocks.withPending [.resetDuring 0x04000001#32 [true, true]]) =
    .next ({ blocks with code := blocks.code.write 1 true } : State).resetRegisters.advance := rfl

/-! ### Witnesses: states and operands that meet the hypotheses of each statement

A theorem `witness_<Name>` is for `Obligations.<Name>`; where a statement has several clauses, there is
one part for each, at the ends of its range. -/

/-- A small implementation: 8 bits of MSG, 9 bits of CODE. -/
def tight : State :=
  { small 9 4 9 [1,0,1,1] [1,0,1,1,1,0,0,1,1] with config := { msgCap := 8, codeCap := 9 } }

theorem blocks_inv : blocks.Inv := by constructor <;> decide
theorem matrices_inv : matrices.Inv := by constructor <;> decide
theorem noisy_inv : noisy.Inv := by constructor <;> decide
theorem frozen_inv : frozen.Inv := by constructor <;> decide
theorem tight_inv : tight.Inv := by constructor <;> decide

/-- A state with a list of host steps keeps the invariant of the state. -/
theorem withPending_inv {s : State} (h : s.Inv) (l : List HostStep) : (s.withPending l).Inv :=
  { h with }

/-- The state a command leads to; the state itself where it leads to none. -/
def next (i : Instr) (s : State) : State :=
  match exec i s with
  | .next t => t
  | _ => s

/-- Whether a command leads to a next state. -/
def goesOn (i : Instr) (s : State) : Bool :=
  match exec i s with
  | .next _ => true
  | _ => false

theorem exec_next_of_goesOn {i : Instr} {s : State} (h : goesOn i s = true) :
    exec i s = .next (next i s) := by
  unfold goesOn at h
  unfold next
  split at h
  · next heq => rw [heq]
  · cases h

theorem witness_DecodeOfEncodeIsTheCommand :
    Instr.nop.wf = true ∧ (Instr.chkPm (2 ^ 24 - 1)).wf = true := by decide
theorem witness_EncodeOfDecodeIsTheWord : decode 0x21FFFFFF#32 = .ok (.chkPm (2 ^ 24 - 1)) := by decide
theorem witness_ReservedWordsRaiseIllegalCommand :
    (blocks.withPending [.command 0x06000000#32]).pending = .command 0x06000000#32 :: [] ∧
    blocks.err = false ∧ decode 0x06000000#32 = .error (.reservedOpcode 6) ∧
    decode 0x11000001#32 = .error (.nonzeroImmediate 0x11 1) := by decide
theorem witness_StepRunsTheDecodedCommand :
    (blocks.withPending [.command 0x20000002#32, .reset]).pending =
      .command 0x20000002#32 :: [.reset] ∧ decode 0x20000002#32 = .ok (.chkPb 2) := by decide
theorem witness_StepWithNothingOfferedWaits : State.reset.pending = [] := by decide
theorem witness_HostReadsTheRegisterView : ∀ n : BitVec 3,
    (frozen.withPending [.readReg n]).pending = .readReg n :: [] := fun _ => rfl
theorem witness_HostReachesExactlyTheMemories :
    (blocks.withPending [.readMem .msg 4095]).Inv ∧ (4095#24).toNat < blocks.cap .msg ∧
    (blocks.withPending [.writeMem .code 16383 true]).Inv ∧ (16383#24).toNat < blocks.cap .code ∧
    blocks.cap .msg ≤ (4096#24).toNat ∧ blocks.cap .code ≤ (16384#24).toNat :=
  ⟨withPending_inv blocks_inv _, by decide, withPending_inv blocks_inv _, by decide, by decide,
    by decide⟩
theorem witness_ResetClearsTheRegistersOnly :
    (frozen.withPending [.reset]).pending = .reset :: [] := rfl
/-- One word for each range, and a bit in the range that changes. -/
theorem witness_ResetDuringACommandTouchesItsRangeOnly :
    (matrices.withPending [.resetDuring 0x21000001#32 [false]]).Inv ∧
    decode 0x10000000#32 = .ok .encPb ∧ decode 0x11000000#32 = .ok .encPm ∧
    decode 0x21000001#32 = .ok (.chkPm 1) ∧ decode 0x31000000#32 = .ok .chkallPm ∧
    decode 0x04000011#32 = .ok (.flip 17) ∧
    writableRun 0x21000001#32 matrices = (9, 9) ∧ matrices.code.read 9 = true ∧
    writableRun 0x21000002#32 matrices = (0, 0) ∧ writableRun 0x04000000#32 frozen = (0, 0) :=
  ⟨withPending_inv matrices_inv _, by decide, by decide, by decide, by decide, by decide, by decide,
    by decide, by decide, by decide⟩
/-- For each range the last bit changes; beyond CLEN `FLIP` has none. -/
theorem witness_resetDuring_ranges :
    (writableRun 0x10000000#32 tight = (0, 9) ∧ tight.code.read 8 = true) ∧
    writableRun 0x11000000#32 tight = (0, 9) ∧ writableRun 0x31000000#32 tight = (0, 9) ∧
    writableRun 0x21000000#32 tight = (0, 9) ∧ writableRun 0x04000008#32 tight = (8, 1) ∧
    writableRun 0x04000009#32 tight = (0, 0) := by decide
theorem witness_ResetDuringACommandAllowsEveryContent :
    tight.Inv ∧ tight.err = false ∧ 2 ≤ tight.d.toNat ∧ pmLegal tight.d.toNat ∧
    0 < tight.mlen.toNat ∧ 0 < tight.clen.toNat ∧
    tight.mlen.toNat + ceilDiv tight.mlen.toNat (tight.d.toNat - 1) ≤ tight.config.codeCap ∧
    ceilDiv tight.mlen.toNat (matrixData (isqrt tight.d.toNat)) * tight.d.toNat =
      tight.config.codeCap ∧
    tight.clen.toNat % tight.d.toNat = 0 ∧ 0 < tight.clen.toNat / tight.d.toNat ∧
    8 < tight.clen.toNat ∧ decode 0x04000008#32 = .ok (.flip 8) ∧
    decode 0x21000000#32 = .ok (.chkPm 0) :=
  ⟨tight_inv, by decide⟩
theorem witness_NopChangesNothing :
    blocks.err = false ∧ (0x00000001#32).toNat / 2 ^ 24 = 0 ∧ (0x00000001#32) ≠ 0 ∧
    (0x00FFFFFF#32).toNat / 2 ^ 24 = 0 ∧
    (blocks.withPending [.command 1]).pending = .command 1 :: [] := by decide
theorem witness_SetdWritesD : 2 ^ 24 - 1 < 2 ^ 24 ∧ 0 < 2 ^ 24 ∧ blocks.err = false := by decide
theorem witness_SetlenWritesMlenOrRaises :
    2 ≤ blocks.d.toNat ∧ pmLegal blocks.d.toNat ∧ 0 ≤ blocks.config.msgCap ∧
    blocks.err = false ∧ 4096 < 2 ^ 24 ∧ 4096 ≤ blocks.config.msgCap ∧ blocks.config.msgCap < 4097 := by
  decide
theorem witness_SetclenWritesClenOrRaises :
    2 ≤ blocks.d.toNat ∧ pmLegal blocks.d.toNat ∧ 0 ≤ blocks.config.codeCap ∧ blocks.err = false ∧ 16384 < 2 ^ 24 ∧ 16384 ≤ blocks.config.codeCap ∧
    blocks.config.codeCap < 16385 := by decide
theorem witness_FlipInvertsOneCodeBit :
    blocks.Inv ∧ blocks.err = false ∧ 9 < blocks.clen.toNat ∧ blocks.clen.toNat ≤ 10 :=
  ⟨blocks_inv, by decide⟩
theorem witness_ClrerrClearsTheLatchOnly :
    blocks.Inv ∧ blocks.err = false ∧ frozen.err = true ∧
    (0x05000001#32).toNat / 2 ^ 24 = 5 ∧ 0x05000001#32 ≠ 0x05000000#32 ∧
    (frozen.withPending [.command 0x05000001#32]).pending = .command 0x05000001#32 :: [] :=
  ⟨blocks_inv, by decide⟩
/-- S-PB-1, and a code that fills CODE exactly: 4 bits by D = 9 would be 5, 8 bits are 9. -/
theorem witness_EncPbWritesTheCode :
    blocks.Inv ∧ blocks.err = false ∧ 2 ≤ blocks.d.toNat ∧ 0 < blocks.mlen.toNat ∧
    blocks.mlen.toNat + ceilDiv blocks.mlen.toNat (blocks.d.toNat - 1) ≤ blocks.config.codeCap ∧
    ({ tight with mlen := 8 } : State).Inv ∧ 8 + ceilDiv 8 (9 - 1) = tight.config.codeCap :=
  ⟨blocks_inv, by decide, by decide, by decide, by decide, by constructor <;> decide, by decide⟩
theorem witness_EncPbLaysOutBlocks :
    blocks.Inv ∧ blocks.err = false ∧ exec .encPb blocks = .next (next .encPb blocks) ∧
    (next .encPb blocks).err = false ∧ 6 < blocks.mlen.toNat ∧
    2 < ceilDiv blocks.mlen.toNat (blocks.d.toNat - 1) :=
  ⟨blocks_inv, by decide, exec_next_of_goesOn (by decide), by decide, by decide, by decide⟩
/-- S-PME-9, and one matrix that fills CODE exactly. -/
theorem witness_EncPmWritesTheCode :
    matrices.Inv ∧ matrices.err = false ∧ 2 ≤ 3 ∧ matrices.d.toNat = 3 * 3 ∧
    0 < matrices.mlen.toNat ∧
    ceilDiv matrices.mlen.toNat ((3 - 1) * (3 - 1)) * matrices.d.toNat ≤ matrices.config.codeCap ∧
    tight.Inv ∧ ceilDiv tight.mlen.toNat ((3 - 1) * (3 - 1)) * tight.d.toNat = tight.config.codeCap :=
  ⟨matrices_inv, by decide, by decide, by decide, by decide, by decide, tight_inv, by decide⟩
theorem witness_EncPmLaysOutMatrices :
    matrices.Inv ∧ matrices.err = false ∧ exec .encPm matrices = .next (next .encPm matrices) ∧
    (next .encPm matrices).err = false ∧ matrices.d.toNat = 3 * 3 ∧
    1 < ceilDiv matrices.mlen.toNat ((3 - 1) * (3 - 1)) :=
  ⟨matrices_inv, by decide, exec_next_of_goesOn (by decide), by decide, by decide, by decide⟩
/-- D = 1, MLEN = 0, and a code one bit too long. -/
theorem witness_EncPbRaisesItsFirstCause :
    (small 1 3 0 [] []).err = false ∧ (small 1 3 0 [] []).d.toNat < 2 ∧
    2 ≤ (small 2 0 0 [] []).d.toNat ∧ (small 2 0 0 [] []).mlen.toNat = 0 ∧
    ({ tight with d := 2, mlen := 5 } : State).err = false ∧
    tight.config.codeCap < 5 + ceilDiv 5 (2 - 1) := by decide
/-- S-ERR-7 and S-ERR-8 (3 and 1 are illegal), S-ERR-12, S-ERR-19 (130 * 130 bits do not fit). -/
theorem witness_EncPmRaisesItsFirstCause :
    (small 3 3 0 [] []).err = false ∧ ¬ pmLegal (small 3 3 0 [] []).d.toNat ∧
    ¬ pmLegal (small 1 3 0 [] []).d.toNat ∧ 2 * 2 = (small 4 0 0 [] []).d.toNat ∧
    (small 4 0 0 [] []).mlen.toNat = 0 ∧ 130 * 130 = (small 16900 1 0 [] []).d.toNat ∧
    0 < (small 16900 1 0 [] []).mlen.toNat ∧
    State.reset.config.codeCap < ceilDiv 1 ((130 - 1) * (130 - 1)) * 16900 := by decide
theorem witness_EncodeAgainGivesTheSameCode :
    blocks.Inv ∧ blocks.err = false ∧ exec .encPb blocks = .next (next .encPb blocks) ∧
    (next .encPb blocks).err = false ∧ matrices.Inv ∧ matrices.err = false ∧
    exec .encPm matrices = .next (next .encPm matrices) ∧ (next .encPm matrices).err = false ∧
    Memory.wf [(0, true)] = true ∧ Memory.below matrices.config.codeCap [(0, true)] = true :=
  ⟨blocks_inv, by decide, exec_next_of_goesOn (by decide), by decide, matrices_inv, by decide,
    exec_next_of_goesOn (by decide), by decide, by decide, by decide⟩
/-- The last block, which is short, is block 2 of 3. -/
theorem witness_ChkPbReportsBlockParity :
    blocks.Inv ∧ blocks.err = false ∧ 2 ≤ blocks.d.toNat ∧ 0 < blocks.clen.toNat ∧
    2 < ceilDiv blocks.clen.toNat blocks.d.toNat := ⟨blocks_inv, by decide⟩
theorem witness_ChkallPbIsTheConjunction :
    blocks.Inv ∧ blocks.err = false ∧ 2 ≤ blocks.d.toNat ∧ 0 < blocks.clen.toNat :=
  ⟨blocks_inv, by decide⟩
/-- D = 1; CLEN = 0; block index `nb` itself. -/
theorem witness_PbChecksRaiseTheirFirstCause :
    (small 1 0 5 [] []).err = false ∧ (small 1 0 5 [] []).d.toNat < 2 ∧
    2 ≤ (small 2 0 0 [] []).d.toNat ∧ (small 2 0 0 [] []).clen.toNat = 0 ∧
    0 < blocks.clen.toNat ∧ ceilDiv blocks.clen.toNat blocks.d.toNat ≤ 3 ∧ 3 < 2 ^ 24 := by decide
/-- Matrix 1 of `noisy` has one mismatched row and column, matrix 0 two of each; of `matrices` none. -/
theorem witness_ChkPmLocatesAndCorrects :
    noisy.Inv ∧ noisy.err = false ∧ noisy.d.toNat = 3 * 3 ∧ 0 < noisy.clen.toNat ∧
    noisy.clen.toNat % noisy.d.toNat = 0 ∧ 1 < noisy.clen.toNat / noisy.d.toNat ∧
    ((List.range 2).filter fun r => oddOnes 3 fun c => noisy.code.read (9 + r * 3 + c)) = [1] ∧
    ((List.range 3).filter fun c => oddOnes 3 fun r => noisy.code.read (9 + r * 3 + c)) = [1] ∧
    ((List.range 2).filter fun r => oddOnes 3 fun c => noisy.code.read (r * 3 + c)) = [0, 1] ∧
    ((List.range 3).filter fun c => oddOnes 3 fun r => noisy.code.read (r * 3 + c)) = [0, 1] ∧
    ((List.range 2).filter fun r => oddOnes 3 fun c => matrices.code.read (r * 3 + c)) = [] :=
  ⟨noisy_inv, by decide, by decide, by decide, by decide, by decide, by decide, by decide, by decide,
    by decide, by decide⟩
theorem witness_ChkallPmIsTheSequenceOfChecks :
    noisy.Inv ∧ noisy.err = false ∧ 2 ≤ 3 ∧ noisy.d.toNat = 3 * 3 ∧ 0 < noisy.clen.toNat ∧
    noisy.clen.toNat % noisy.d.toNat = 0 := ⟨noisy_inv, by decide⟩
/-- Address 13 is the bit that changes. -/
theorem witness_ChkallPmChangesOneBitPerMatrix :
    noisy.Inv ∧ noisy.err = false ∧ noisy.d.toNat = 3 * 3 ∧
    exec .chkallPm noisy = .next (next .chkallPm noisy) ∧ (next .chkallPm noisy).err = false ∧
    (next .chkallPm noisy).code.read 13 ≠ noisy.code.read 13 :=
  ⟨noisy_inv, by decide, by decide, exec_next_of_goesOn (by decide), by decide, by decide⟩
/-- D = 1 and 10; CLEN = 0; CLEN = 10 by 9; matrix index `nm` itself. -/
theorem witness_PmChecksRaiseTheirFirstCause :
    (small 1 0 5 [] []).err = false ∧ ¬ pmLegal (small 1 0 5 [] []).d.toNat ∧
    ¬ pmLegal (small 10 0 5 [] []).d.toNat ∧ 2 * 2 = (small 4 0 0 [] []).d.toNat ∧
    (small 4 0 0 [] []).clen.toNat = 0 ∧ 3 * 3 = (small 9 0 10 [] []).d.toNat ∧
    0 < (small 9 0 10 [] []).clen.toNat ∧
    (small 9 0 10 [] []).clen.toNat % (small 9 0 10 [] []).d.toNat ≠ 0 ∧
    matrices.clen.toNat % matrices.d.toNat = 0 ∧ matrices.clen.toNat / matrices.d.toNat ≤ 2 := by
  decide
/-- After a correction, after a false verdict, and after `CHKALL.PM`. -/
theorem witness_SecondCheckIsStable :
    noisy.Inv ∧ noisy.err = false ∧
    exec (.chkPm 1) noisy = .next (next (.chkPm 1) noisy) ∧ (next (.chkPm 1) noisy).err = false ∧
    exec (.chkPm 0) noisy = .next (next (.chkPm 0) noisy) ∧ (next (.chkPm 0) noisy).err = false ∧
    (next (.chkPm 0) noisy).valid = false ∧
    exec .chkallPm noisy = .next (next .chkallPm noisy) ∧ (next .chkallPm noisy).err = false :=
  ⟨noisy_inv, by decide, exec_next_of_goesOn (by decide), by decide, exec_next_of_goesOn (by decide),
    by decide, by decide, exec_next_of_goesOn (by decide), by decide⟩
theorem witness_FrozenEngineDropsAllButClrerr :
    frozen.err = true ∧ 0x05000001#32 ≠ 0x05000000#32 ∧ (16383#24).toNat < frozen.cap .code ∧
    (frozen.withPending [.command 0x05000000#32]).pending = .command 0x05000000#32 :: [] := by decide
/-- The host steps of a frozen engine, at the ends of their ranges. -/
theorem witness_frozen_hostSteps :
    (frozen.withPending [.readReg 7]).err = true ∧
    (frozen.withPending [.readReg 7]).pending = .readReg 7 :: [] ∧
    (frozen.withPending [.readMem .msg 4095]).err = true ∧ (4095#24).toNat < frozen.cap .msg ∧
    (frozen.withPending [.readMem .msg 4095]).pending = .readMem .msg 4095 :: [] ∧
    (frozen.withPending [.writeMem .code 16383 true]).pending = .writeMem .code 16383 true :: [] ∧
    (16383#24).toNat < frozen.cap .code := by decide
theorem witness_ErrorEntryIsPrecise :
    blocks.err = false ∧
    commandWord 0x0400000A#32 blocks = .next (next (.flip 10) blocks) ∧
    (next (.flip 10) blocks).err = true :=
  ⟨by decide, exec_next_of_goesOn (i := .flip 10) (by decide), by decide⟩
theorem witness_NoCommandWritesMsg : commandWord 0x10000000#32 blocks = .next (next .encPb blocks) :=
  exec_next_of_goesOn (i := .encPb) (by decide)
/-- Each kind of change happens. -/
theorem witness_CommandsWriteTheirTableRowOnly :
    exec (.setd 16) blocks = .next (next (.setd 16) blocks) ∧ (next (.setd 16) blocks).d ≠ blocks.d ∧
    exec (.setlen 8) blocks = .next (next (.setlen 8) blocks) ∧
    (next (.setlen 8) blocks).mlen ≠ blocks.mlen ∧
    exec .encPm matrices = .next (next .encPm matrices) ∧
    exec .encPb matrices = .next (next .encPb matrices) ∧
    (next .encPb matrices).clen ≠ matrices.clen ∧
    exec (.chkPm 1) noisy = .next (next (.chkPm 1) noisy) ∧
    (next (.chkPm 1) noisy).loc ≠ noisy.loc ∧ (next (.chkPm 1) noisy).valid ≠ noisy.valid ∧
    (next (.chkPm 1) noisy).code ≠ noisy.code ∧
    exec .clrerr frozen = .next (next .clrerr frozen) ∧ (next .clrerr frozen).err ≠ frozen.err :=
  ⟨exec_next_of_goesOn (by decide), by decide, exec_next_of_goesOn (by decide), by decide,
    exec_next_of_goesOn (by decide), exec_next_of_goesOn (by decide), by decide,
    exec_next_of_goesOn (by decide), by decide, by decide, by decide,
    exec_next_of_goesOn (by decide), by decide⟩
/-- A bit of CODE that each of the five commands changes, a dropped command and one that raises. -/
theorem witness_commands_code :
    (blocks.Inv ∧ exec (.flip 9) blocks = .next (next (.flip 9) blocks) ∧
      (next (.flip 9) blocks).code.read 9 ≠ blocks.code.read 9) ∧
    (exec .encPb noisy = .next (next .encPb noisy) ∧
      (next .encPb noisy).code.read 4 ≠ noisy.code.read 4) ∧
    (noisy.Inv ∧ exec .encPm noisy = .next (next .encPm noisy) ∧
      (next .encPm noisy).code.read 13 ≠ noisy.code.read 13) ∧
    (exec (.chkPm 1) noisy = .next (next (.chkPm 1) noisy) ∧
      (next (.chkPm 1) noisy).code.read 13 ≠ noisy.code.read 13) ∧
    (exec .chkallPm noisy = .next (next .chkallPm noisy) ∧
      (next .chkallPm noisy).code.read 13 ≠ noisy.code.read 13) ∧
    (frozen.err = true ∧ exec (.flip 0) frozen = .next (next (.flip 0) frozen)) ∧
    (blocks.err = false ∧ exec (.flip 10) blocks = .next (next (.flip 10) blocks) ∧
      (next (.flip 10) blocks).err = true) :=
  ⟨⟨blocks_inv, exec_next_of_goesOn (by decide), by decide⟩, ⟨exec_next_of_goesOn (by decide), by decide⟩,
    ⟨noisy_inv, exec_next_of_goesOn (by decide), by decide⟩, ⟨exec_next_of_goesOn (by decide), by decide⟩,
    ⟨exec_next_of_goesOn (by decide), by decide⟩, ⟨by decide, exec_next_of_goesOn (by decide)⟩,
    ⟨by decide, exec_next_of_goesOn (by decide), by decide⟩⟩
theorem witness_VerdictsChangeByChecksAndResetOnly :
    step (blocks.withPending [.command 0x20000002#32]) = .next (next (.chkPb 2) blocks) ∧
    (next (.chkPb 2) blocks).valid ≠ blocks.valid ∧
    step (frozen.withPending [.reset]) = .next frozen.resetRegisters ∧
    frozen.resetRegisters.valid ≠ frozen.valid :=
  ⟨exec_next_of_goesOn (i := .chkPb 2) (s := blocks) (by decide), by decide, rfl, by decide⟩
theorem witness_PosCountsTheCommands :
    step (blocks.withPending [.command 0#32]) = .next blocks.advance ∧
    step (blocks.withPending [.readReg 7]) = .next { blocks with answers := [.reg 7 0] } ∧
    step (blocks.withPending [.reset]) = .next blocks.resetRegisters ∧
    step (blocks.withPending [.resetDuring 0#32 []]) = .next blocks.resetRegisters.advance :=
  ⟨rfl, rfl, rfl, rfl⟩
/-- The second state differs from the first beyond MLEN = 7 and beyond CLEN = 10. -/
theorem witness_CommandsReadMessageAndCodeOnly :
    blocks.Inv ∧ ({ blocks with msg := blocks.msg.write 7 true,
                                code := blocks.code.write 10 true } : State).Inv ∧
    (∀ a < blocks.mlen.toNat, (blocks.msg.write 7 true).read a = blocks.msg.read a) ∧
    (∀ a < blocks.clen.toNat, (blocks.code.write 10 true).read a = blocks.code.read a) ∧
    exec (.chkPb 2) blocks = .next (next (.chkPb 2) blocks) :=
  ⟨blocks_inv, by constructor <;> decide, by decide, by decide, exec_next_of_goesOn (by decide)⟩
theorem witness_NoCommandStopsTheMachine :
    (blocks.withPending [.readMem .code 16384]).Inv ∧
    step (blocks.withPending [.readMem .code 16384]) = .refused (.hostAddress .code 16384) :=
  ⟨withPending_inv blocks_inv _, rfl⟩
theorem witness_StepKeepsTheInvariant :
    (noisy.withPending [.command 0x31000000#32]).Inv ∧
    step (noisy.withPending [.command 0x31000000#32]) = .next (next .chkallPm noisy) :=
  ⟨withPending_inv noisy_inv _, exec_next_of_goesOn (i := .chkallPm) (s := noisy) (by decide)⟩
/-- A start state that is not the reset state. -/
theorem start_example :
    ((State.launch { msgCap := 8, codeCap := 9 } [(7, true)] [(8, true)]).withPending [.reset]).Start :=
  ⟨_, _, _, _, by decide, by decide, by decide, by decide, by decide, rfl⟩
theorem witness_StartStatesHaveTheInvariant : ∃ s : State, s.Start ∧ s ≠ State.reset :=
  ⟨_, start_example, by decide⟩
theorem witness_LatchStaysExplained :
    frozen.LatchExplained ∧ step (frozen.withPending [.reset]) = .next frozen.resetRegisters :=
  ⟨fun _ => ⟨.badD, by decide, by decide⟩, rfl⟩
theorem witness_ReachedStatesAreGoodAndGoOn :
    ((State.launch { msgCap := 8, codeCap := 9 } [(7, true)] [(8, true)]).withPending []).Reached :=
  .tail _ _ (.base _ start_example) rfl
theorem witness_BlockIsValidByEvenWeight :
    bits [1,0,1,0] ≠ [] ∧ pbValid (bits [1,0,1,0]) = true ∧ pbValid (bits [0]) = true := by decide
theorem witness_BlocksReadBackAsWritten : 2 ≤ 2 ∧ 2 < ceilDiv (bits [1,0,1,1,0,0,1]).length (4 - 1) := by
  decide
theorem witness_EncodedBlocksPass :
    blocks.Inv ∧ blocks.err = false ∧ exec .encPb blocks = .next (next .encPb blocks) ∧
    (next .encPb blocks).err = false ∧
    2 < ceilDiv (next .encPb blocks).clen.toNat (next .encPb blocks).d.toNat :=
  ⟨blocks_inv, by decide, exec_next_of_goesOn (by decide), by decide, by decide⟩
theorem witness_EncodedMatrixHasEvenRowsAndColumns : 2 ≤ 2 ∧ 1 < 2 := by decide
theorem witness_EncodedMatricesPass :
    matrices.Inv ∧ matrices.err = false ∧ exec .encPm matrices = .next (next .encPm matrices) ∧
    (next .encPm matrices).err = false ∧
    1 < (next .encPm matrices).clen.toNat / (next .encPm matrices).d.toNat :=
  ⟨matrices_inv, by decide, exec_next_of_goesOn (by decide), by decide, by decide⟩
theorem witness_OutcomeByBadRowsAndColumns :
    (badRows 3 (gridOf 3 (bits [1,0,1,1,0,0,0,1,1]))).length = 1 ∧
    (badCols 3 (gridOf 3 (bits [1,0,1,1,0,0,0,1,1]))).length = 1 := by decide
theorem witness_SyndromesOfFlips : 2 ≤ 2 ∧ 0 < 2 - 1 ∧ 1 < 2 := by decide
/-- Both flips in data rows; one of them in the parity row; both in one row. -/
theorem witness_TwoFlipsAreNeverMiscorrected :
    2 ≤ 3 ∧ 2 < 3 ∧ ((0, 0) : Nat × Nat) ≠ (1, 1) ∧ ((0, 0) : Nat × Nat) ≠ (2, 1) ∧
    ((0, 0) : Nat × Nat) ≠ (0, 2) := by decide
/-- A cell of a data row, its row-parity bit, and the corner. -/
theorem witness_SingleFlipIsRestoredInDataRows :
    matrices.Inv ∧ matrices.err = false ∧ exec .encPm matrices = .next (next .encPm matrices) ∧
    (next .encPm matrices).err = false ∧ (next .encPm matrices).d.toNat = 3 * 3 ∧
    1 < (next .encPm matrices).clen.toNat / (next .encPm matrices).d.toNat ∧
    1 < 3 - 1 ∧ 2 < 3 ∧ 2 = 3 - 1 :=
  ⟨matrices_inv, by decide, exec_next_of_goesOn (by decide), by decide, by decide, by decide,
    by decide, by decide, by decide⟩

end Sys2Proof.Tests
end

section
/-! PROOFS. The integer square root of 00_scope.md R7. -/

namespace Sys2Proof.Machine

/-- Every root from below is at most `isqrt n`: its square is below that of `isqrt n + 1`. -/
theorem le_isqrt {n s : Nat} (h : s * s ≤ n) : s ≤ isqrt n :=
  Nat.le_of_lt_succ (Nat.mul_self_lt_mul_self_iff.mp (Nat.lt_of_le_of_lt h (lt_succ_isqrt_mul n)))

/-- The form in which the commands test for a perfect square. -/
theorem exists_mul_self_iff_isqrt (n : Nat) : (∃ s, s * s = n) ↔ isqrt n * isqrt n = n := by
  constructor
  · rintro ⟨s, rfl⟩
    rw [isqrt_square]
  · exact fun h => ⟨isqrt n, h⟩

/-- Settles O46: the bounds of the bitwise loop place `isqrt n` between two neighbouring squares, and
each example is read off its two squares (`isqrt_eq`). -/
theorem isqrtIsTheLargestRoot : Obligations.IsqrtIsTheLargestRoot := by
  refine ⟨fun n => ⟨isqrt_mul_le n, fun _ => le_isqrt, exists_mul_self_iff_isqrt n⟩,
    ?_, ?_, ?_, ?_, ?_, ?_⟩ <;> exact isqrt_eq (by decide) (by decide)

end Sys2Proof.Machine
end

section
/-! PROOFS. What a step, a host step and a command word can do, said once as inversions, and which
fields a command leaves alone (10_state.md R11, R24). -/

namespace Sys2Proof.Machine

open Sys2Proof

/-! ### The step and its host step -/

/-- A step waits, or carries out the first pending host step. -/
theorem step_next {s t : State} (h : step s = .next t) :
    t = s ∨ ∃ e rest, s.pending = e :: rest ∧ hostStep e (s.withPending rest) = .next t := by
  cases hp : s.pending with
  | nil =>
    have hs : step s = .next s := by simp [step, hp, idleStep]
    rw [hs] at h
    cases h
    exact .inl rfl
  | cons e rest => exact .inr ⟨e, rest, rfl, step_cons hp ▸ h⟩

/-- What each host step does when it has an answer. -/
theorem hostStep_next {e : HostStep} {s t : State} : hostStep e s = .next t →
    match e with
    | .command w => commandWord w s = .next t
    | .readReg n => t = { s with answers := .reg n (s.readReg n) :: s.answers }
    | .readMem sp a => t = { s with answers := .bit sp a ((s.mem sp).read a.toNat) :: s.answers }
    | .writeMem sp a b => a.toNat < s.cap sp ∧ t = s.setMem sp ((s.mem sp).write a.toNat b)
    | .reset => t = s.resetRegisters
    | .resetDuring w bits =>
        ∃ u, storeBits s (writableRun w s).1 (bits.take (writableRun w s).2) = .ok u ∧
          t = u.resetRegisters.advance := by
  intro h
  cases e with
  | command w => exact h
  | readReg n => cases h; rfl
  | readMem sp a =>
    simp only [hostStep, hostReadMem] at h
    split at h
    · cases h; rfl
    · cases h
  | writeMem sp a b =>
    simp only [hostStep, hostWriteMem] at h
    split at h
    · next ha => cases h; exact ⟨ha, rfl⟩
    · cases h
  | reset => cases h; rfl
  | resetDuring w bits =>
    simp only [hostStep, hostResetDuring] at h
    split at h
    · next u hu => cases h; exact ⟨u, hu, rfl⟩
    · cases h

/-- A command word is the meaning of its command, or the rejection of an illegal word. -/
theorem commandWord_next {w : Word} {s t : State} (h : commandWord w s = .next t) :
    (∃ i, decode w = .ok i ∧ exec i s = .next t) ∨
    ((∃ e, decode w = .error e) ∧
      (t = s.advance ∨ t = (raiseError .illegalCommand w s).advance)) := by
  unfold commandWord at h
  split at h
  · next i hi => exact .inl ⟨i, hi, h⟩
  · next e he =>
    refine .inr ⟨⟨e, he⟩, ?_⟩
    rcases runCommand_next h with ⟨-, rfl⟩ | ⟨-, e, hc, rfl⟩ | ⟨-, hc, -⟩
    · exact .inl rfl
    · cases hc; exact .inr rfl
    · cases hc

/-- An engine write replaces CODE and nothing else. -/
theorem storeBits_frame {s t : State} {a : Nat} {bits : List Bit} (h : storeBits s a bits = .ok t) :
    t = { s with code := t.code } := by
  obtain ⟨-, rfl⟩ := storeBits_eq_ok.1 h
  rfl

/-- A command that is decoded from a word is encoded as that word (30_encoding.md R57, R59). -/
theorem encode_of_decode {w : Word} {i : Instr} (h : decode w = .ok i) : encode i = w := by
  obtain ⟨hop, himm⟩ := decodeFields_eq_ok h
  rw [encode, ← hop, ← himm, wordOf_fields]

/-! ### What an effect leaves alone -/

/-- No effect writes MSG or a field of the model's own (20_memory.md R47). -/
theorem effectOf_kept {i : Instr} {s u : State} (h : effectOf i s = .ok u) :
    u.msg = s.msg ∧ u.config = s.config ∧ u.pending = s.pending ∧ u.answers = s.answers ∧
      u.pos = s.pos := by
  have hf := effectOf_frame h
  cases i <;> (rw [hf]; exact ⟨rfl, rfl, rfl, rfl, rfl⟩)

/-- No effect but that of `CLRERR` touches the latch. -/
theorem effectOf_latch {i : Instr} {s u : State} (hi : i ≠ .clrerr) (h : effectOf i s = .ok u) :
    u.err = s.err ∧ u.errcode = s.errcode ∧ u.errcmd = s.errcmd := by
  have hf := effectOf_frame h
  cases i with
  | clrerr => exact absurd rfl hi
  | chkPb _ | chkPm _ | chkallPb | chkallPm =>
    rw [hf]
    exact ⟨setVerdict_err .., setVerdict_errcode .., rfl⟩
  | _ => rw [hf]; exact ⟨rfl, rfl, rfl⟩

/-- No effect touches the reserved bit of STATUS (10_state.md R16). -/
theorem effectOf_reserved {i : Instr} {s u : State} (h : effectOf i s = .ok u) :
    statusReserved u.status = statusReserved s.status := by
  have hf := effectOf_frame h
  cases i with
  | clrerr => rw [hf]; exact reserved_statusWithoutError _
  | chkPb _ | chkPm _ | chkallPb | chkallPm => rw [hf]; exact reserved_statusWithVerdict ..
  | _ => rw [hf]

/-! ### What a command leaves alone -/

/-- MSG and the model's own fields after a command, and `pos` (R11). -/
theorem exec_kept {i : Instr} {s t : State} (h : exec i s = .next t) :
    t.msg = s.msg ∧ t.config = s.config ∧ t.pending = s.pending ∧ t.answers = s.answers ∧
      t.pos = s.pos + 1 := by
  rcases exec_next h with ⟨-, rfl⟩ | ⟨-, -, rfl⟩ | ⟨-, -, e, -, rfl⟩ | ⟨-, -, -, u, hu, rfl⟩
  · exact ⟨rfl, rfl, rfl, rfl, rfl⟩
  · exact ⟨rfl, rfl, rfl, rfl, rfl⟩
  · exact ⟨rfl, rfl, rfl, rfl, rfl⟩
  · obtain ⟨hm, hc, hp, ha, hpos⟩ := effectOf_kept hu
    exact ⟨hm, hc, hp, ha, congrArg (· + 1) hpos⟩

/-- The command has passed its checks in the state `s` and `t` is the state after its effect. -/
def Performed (i : Instr) (s t : State) : Prop :=
  i ≠ .clrerr ∧ s.err = false ∧ checkOf s i = none ∧ ∃ u, effectOf i s = .ok u ∧ t = u.advance

/-- What neither `pos` nor the latch holds, a command changes by its effect only (60_exceptions.md
R131, R139 to R141). -/
theorem performed_of_changed {α : Type} {f : State → α} (hadv : ∀ s, f s.advance = f s)
    (hraise : ∀ e w s, f (raiseError e w s) = f s) (hclear : ∀ s, f (clearError s) = f s)
    {i : Instr} {s t : State} (h : exec i s = .next t) (hne : f t ≠ f s) : Performed i s t := by
  rcases exec_next h with ⟨-, rfl⟩ | ⟨-, -, rfl⟩ | ⟨-, -, e, -, rfl⟩ | hp
  · exact absurd ((hadv _).trans (hclear s)) hne
  · exact absurd (hadv s) hne
  · exact absurd ((hadv _).trans (hraise e _ s)) hne
  · exact hp

/-- A command that starts and ends without an error has its effect (R131). -/
theorem performed_of_no_error {i : Instr} {s t : State} (hi : i ≠ .clrerr) (hs : s.err = false)
    (ht : t.err = false) (h : exec i s = .next t) : Performed i s t := by
  rcases exec_next h with ⟨hc, -⟩ | ⟨-, hf, -⟩ | ⟨-, -, e, -, rfl⟩ | hp
  · exact absurd hc hi
  · rw [hs] at hf; cases hf
  · rw [advance_err, raiseError_err] at ht; cases ht
  · exact hp

/-- A command that has its effect leaves the engine unfrozen. -/
theorem Performed.err {i : Instr} {s t : State} (h : Performed i s t) : t.err = false := by
  obtain ⟨hi, he, -, u, hu, rfl⟩ := h
  exact (effectOf_latch hi hu).1.trans he

/-- VALID or CORR changes by a check command without an error only (10_state.md R17, R18). -/
theorem exec_verdict {i : Instr} {s t : State} (h : exec i s = .next t)
    (hne : t.valid ≠ s.valid ∨ t.corr ≠ s.corr) :
    t.err = false ∧
      ((∃ n, i = .chkPb n) ∨ (∃ n, i = .chkPm n) ∨ i = .chkallPb ∨ i = .chkallPm) := by
  have hne : (t.valid, t.corr) ≠ (s.valid, s.corr) := by
    rw [Ne, Prod.mk.injEq, not_and_or]
    exact hne
  have hp := performed_of_changed (f := fun s => (s.valid, s.corr)) (fun _ => rfl)
    (fun _ _ _ => by simp) (fun _ => by simp) h hne
  refine ⟨hp.err, ?_⟩
  obtain ⟨hi, -, -, u, hu, rfl⟩ := hp
  have hf := effectOf_frame hu
  cases i with
  | clrerr => exact absurd rfl hi
  | chkPb n => exact .inl ⟨n, rfl⟩
  | chkPm n => exact .inr (.inl ⟨n, rfl⟩)
  | chkallPb => exact .inr (.inr (.inl rfl))
  | chkallPm => exact .inr (.inr (.inr rfl))
  | _ => exact absurd (by rw [hf]; rfl) hne

/-! ### The checks of a command -/

theorem flipCheck_none {a : Nat} {s : State} (h : flipCheck a s = none) : a < s.clenVal := by
  unfold flipCheck at h
  split at h
  · cases h
  · next hlt => exact Nat.not_le.1 hlt

theorem setlenCheck_none {n : Nat} {s : State} (h : setlenCheck n s = none) :
    n ≤ s.config.msgCap := by
  unfold setlenCheck at h
  split at h
  · cases h
  · next hle => exact Nat.not_lt.1 hle

theorem setclenCheck_none {n : Nat} {s : State} (h : setclenCheck n s = none) :
    n ≤ s.config.codeCap := by
  unfold setclenCheck at h
  split at h
  · cases h
  · next hle => exact Nat.not_lt.1 hle

/-- The checks of a command raise its errors only (60_exceptions.md R130). -/
theorem checkOf_some {i : Instr} {s : State} {e : ErrorCode} (h : checkOf s i = some e) :
    e ∈ errorsOf i := by
  cases i with
  | nop => cases h
  | setd d => cases h
  | clrerr => cases h
  | setlen n =>
    simp only [checkOf, setlenCheck] at h
    split_ifs at h
    cases h
    simp [errorsOf]
  | setclen n =>
    simp only [checkOf, setclenCheck] at h
    split_ifs at h
    cases h
    simp [errorsOf]
  | flip a =>
    simp only [checkOf, flipCheck] at h
    split_ifs at h
    cases h
    simp [errorsOf]
  | encPb =>
    simp only [checkOf, encPbCheck] at h
    split_ifs at h <;> cases h <;> simp [errorsOf]
  | encPm =>
    simp only [checkOf, encPmCheck] at h
    split_ifs at h <;> cases h <;> simp [errorsOf]
  | chkPb n =>
    simp only [checkOf, chkPbCheck] at h
    split_ifs at h <;> cases h <;> simp [errorsOf]
  | chkPm n =>
    simp only [checkOf, chkPmCheck] at h
    split_ifs at h <;> cases h <;> simp [errorsOf]
  | chkallPb =>
    simp only [checkOf, chkallPbCheck] at h
    split_ifs at h <;> cases h <;> simp [errorsOf]
  | chkallPm =>
    simp only [checkOf, chkallPmCheck] at h
    split_ifs at h <;> cases h <;> simp [errorsOf]

/-- Only `NOP` has the word 0, and it raises nothing: ERRCMD of an error is not 0 (10_state.md R22). -/
theorem encode_ne_zero {i : Instr} (h : i ≠ .nop) : encode i ≠ 0 := by
  intro h0
  have hop : i.opcode = 0x00#8 := by
    rw [← opcodeOf_wordOf i.opcode i.imm, show wordOf i.opcode i.imm = 0 from h0]
    decide
  cases i with
  | nop => exact h rfl
  | _ => exact absurd hop (by simp [Instr.opcode])

end Sys2Proof.Machine
end

section
/-! PROOFS. The invariant of the machine: what each writer of the state keeps of it, then each effect,
each command, each host step, the step; and the start states. -/

namespace Sys2Proof.Machine

open Sys2Proof

/-! ### The writers of the state -/

theorem State.Inv.advance {s : State} (h : s.Inv) : s.advance.Inv := { h with }

theorem State.Inv.withPending {s : State} (h : s.Inv) (l : List HostStep) : (s.withPending l).Inv :=
  { h with }

theorem State.Inv.withAnswers {s : State} (h : s.Inv) (l : List Answer) :
    ({ s with answers := l } : State).Inv := { h with }

/-- A verdict leaves the other fields of STATUS (10_state.md R17, R18). -/
theorem State.Inv.setVerdict {s : State} (h : s.Inv) (v k : Bool) : (s.setVerdict v k).Inv :=
  { h with
    reservedZero := (reserved_statusWithVerdict ..).trans h.reservedZero
    errcodeZero := by rw [setVerdict_errcode, setVerdict_err]; exact h.errcodeZero
    errcodeKnown := by rw [setVerdict_errcode]; exact h.errcodeKnown
    errcmdZero := by rw [setVerdict_err]; exact h.errcmdZero }

/-- Error entry writes ERR, one of the six codes and a word other than 0 (60_exceptions.md R131). -/
theorem State.Inv.raiseError {s : State} (h : s.Inv) (e : ErrorCode) {w : Word} (hw : w ≠ 0) :
    (raiseError e w s).Inv :=
  { h with
    reservedZero := (reserved_statusWithError ..).trans h.reservedZero
    errcodeZero := by rw [raiseError_errcode, raiseError_err]; simpa using (code_known e).1
    errcodeKnown := by rw [raiseError_errcode]; exact (code_known e).2
    errcmdZero := by rw [raiseError_err]; simpa using hw }

/-- The return clears all three fields of the latch (60_exceptions.md R140). -/
theorem State.Inv.clearError {s : State} (h : s.Inv) : (clearError s).Inv :=
  { h with
    reservedZero := (reserved_statusWithoutError _).trans h.reservedZero
    errcodeZero := by simp
    errcodeKnown := by rw [clearError_errcode]; decide
    errcmdZero := by simp }

/-- Legal capacities, memories in canonical form and registers 0 are all that the invariant asks
(10_state.md R28). -/
theorem resetRegisters_inv {s : State} (hc : s.config.legal) (hm : s.msg.wf = true)
    (hmb : s.msg.below s.config.msgCap = true) (hk : s.code.wf = true)
    (hkb : s.code.below s.config.codeCap = true) : s.resetRegisters.Inv where
  configLegal := hc
  msgWf := hm
  msgBelow := hmb
  codeWf := hk
  codeBelow := hkb
  mlenFits := Nat.zero_le _
  clenFits := Nat.zero_le _
  reservedZero := show statusReserved 0 = false by decide
  errcodeZero := by simp
  errcodeKnown := by rw [resetRegisters_errcode]; decide
  errcmdZero := by simp
  rowFits := show ((0 : Reg24).extractLsb' 12 12).toNat ≤ 4093 by decide
  colFits := show ((0 : Reg24).extractLsb' 0 12).toNat ≤ 4094 by decide
  ncandFits := Nat.zero_le _

theorem State.Inv.resetRegisters {s : State} (h : s.Inv) : s.resetRegisters.Inv :=
  resetRegisters_inv h.configLegal h.msgWf h.msgBelow h.codeWf h.codeBelow

/-- A host write below the capacity keeps the memories' canonical form (20_memory.md R30, R42). -/
theorem State.Inv.setMem_write {s : State} (h : s.Inv) {sp : Space} {a : Nat} (ha : a < s.cap sp)
    (b : Bit) : (s.setMem sp ((s.mem sp).write a b)).Inv := by
  cases sp with
  | msg => exact { h with
      msgWf := Memory.wf_write h.msgWf a b
      msgBelow := Memory.below_write h.msgBelow ha b }
  | code => exact { h with
      codeWf := Memory.wf_write h.codeWf a b
      codeBelow := Memory.below_write h.codeBelow ha b }

/-- An engine write keeps the canonical form of CODE (20_memory.md R30). -/
theorem State.Inv.storeBits {s t : State} (h : s.Inv) {a : Nat} {bits : List Bit}
    (ht : storeBits s a bits = .ok t) : t.Inv := by
  obtain ⟨hfit, rfl⟩ := storeBits_eq_ok.1 ht
  exact { h with
    codeWf := Memory.wf_writeRun h.codeWf a bits
    codeBelow := Memory.below_writeRun h.codeBelow hfit }

theorem State.Inv.withMlen {s : State} (h : s.Inv) {n : Nat} (hn : n ≤ s.config.msgCap) :
    ({ s with mlen := immReg n } : State).Inv :=
  { h with mlenFits := Nat.le_trans (Nat.mod_le n (2 ^ 24)) hn }

theorem State.Inv.withClen {s : State} (h : s.Inv) {n : Nat} (hn : n ≤ s.config.codeCap) :
    ({ s with clen := countReg n } : State).Inv :=
  { h with clenFits := Nat.le_trans (Nat.mod_le n (2 ^ 24)) hn }

/-- LOC of a cell that a check locates (10_state.md R20). -/
theorem State.Inv.withLoc {s : State} (h : s.Inv) {r c : Nat} (hr : r ≤ 4093) (hc : c ≤ 4094) :
    ({ s with loc := locReg r c } : State).Inv :=
  { h with
    rowFits := by
      change ((locReg r c).extractLsb' 12 12).toNat ≤ 4093
      rw [row_locReg]
      exact Nat.le_trans (Nat.mod_le ..) hr
    colFits := by
      change ((locReg r c).extractLsb' 0 12).toNat ≤ 4094
      rw [col_locReg]
      exact Nat.le_trans (Nat.mod_le ..) hc }

theorem State.Inv.withNcand {s : State} (h : s.Inv) {n : Nat} (hn : n ≤ 4094 * 4095) :
    ({ s with ncand := countReg n } : State).Inv :=
  { h with ncandFits := Nat.le_trans (Nat.mod_le n (2 ^ 24)) hn }

/-! ### The effects -/

/-- The side of a matrix is at most 4095 (10_state.md R20). -/
theorem dim_le (s : State) : s.dim ≤ 4095 := isqrt_le_of_lt (dVal_lt s)

/-- The correction writes one bit of CODE and its coordinate (43_pm_check.md R103). -/
theorem State.Inv.correctCell {s t : State} (h : s.Inv) {base : Nat} {g f : Grid}
    (ht : correctCell base s.dim g s (pmCheck s.dim f).flip = .ok t) : t.Inv := by
  cases hf : (pmCheck s.dim f).flip with
  | none => rw [hf] at ht; cases ht; exact h
  | some rc =>
    obtain ⟨r, c⟩ := rc
    obtain ⟨hr, hc⟩ := flip_bounds hf
    have hd := dim_le s
    rw [hf] at ht
    obtain ⟨u, hu, hv⟩ := bind_eq_ok.1 ht
    cases hv
    exact (h.storeBits hu).withLoc (by omega) (by omega)

/-- A matrix check keeps the invariant: 24 bits of D bound the coordinate and the number of candidates
(10_state.md R20, R21). -/
theorem State.Inv.checkMatrix {s t : State} (h : s.Inv) {n : Nat} (ht : checkMatrix n s = .ok t) :
    t.Inv := by
  obtain ⟨bits, -, ht⟩ := bind_eq_ok.1 ht
  obtain ⟨u, hu, ht⟩ := bind_eq_ok.1 ht
  cases ht
  have hd := dim_le s
  have hcount : (pmCheck s.dim (gridOf s.dim bits)).count ≤ 4094 * 4095 :=
    Nat.le_trans (pmCheck_count_le _ _) (Nat.mul_le_mul (by omega) hd)
  exact ((h.correctCell hu).withNcand hcount).setVerdict _ _

theorem State.Inv.checkMatrices {ns : List Nat} : ∀ {v k : Bool} {s t : State}, s.Inv →
    checkMatrices ns v k s = .ok t → t.Inv := by
  induction ns with
  | nil => intro v k s t h ht; cases ht; exact h.setVerdict v k
  | cons n ns ih =>
    intro v k s t h ht
    obtain ⟨u, hu, ht⟩ := bind_eq_ok.1 ht
    exact ih (h.checkMatrix hu) ht

/-- Every effect whose checks passed keeps the invariant. -/
theorem State.Inv.effectOf {i : Instr} {s u : State} (h : s.Inv) (hc : checkOf s i = none)
    (hu : effectOf i s = .ok u) : u.Inv := by
  cases i with
  | nop => cases hu; exact h
  | setd d => cases hu; exact { h with }
  | setlen n => cases hu; exact h.withMlen (setlenCheck_none hc)
  | setclen n => cases hu; exact h.withClen (setclenCheck_none hc)
  | flip a =>
    obtain ⟨_, -, hu⟩ := bind_eq_ok.1 hu
    exact h.storeBits hu
  | clrerr => cases hu; exact h.clearError
  | encPb =>
    obtain ⟨_, -, hu⟩ := bind_eq_ok.1 hu
    obtain ⟨v, hv, hu⟩ := bind_eq_ok.1 hu
    cases hu
    have hcap : v.config = s.config := by rw [storeBits_frame hv]
    exact (h.storeBits hv).withClen (hcap ▸ (encPbCheck_none hc).2.2)
  | encPm =>
    obtain ⟨_, -, hu⟩ := bind_eq_ok.1 hu
    obtain ⟨v, hv, hu⟩ := bind_eq_ok.1 hu
    cases hu
    have hcap : v.config = s.config := by rw [storeBits_frame hv]
    exact (h.storeBits hv).withClen (hcap ▸ (encPmCheck_none hc).2.2)
  | chkPb n => rw [effectOf_frame hu]; exact h.setVerdict _ _
  | chkPm n => exact h.checkMatrix hu
  | chkallPb => rw [effectOf_frame hu]; exact h.setVerdict _ _
  | chkallPm => exact h.checkMatrices hu

/-! ### Commands, host steps and the step -/

theorem State.Inv.exec {i : Instr} {s t : State} (h : s.Inv) (ht : exec i s = .next t) : t.Inv := by
  rcases exec_next ht with ⟨-, rfl⟩ | ⟨-, -, rfl⟩ | ⟨-, -, e, hc, rfl⟩ | ⟨-, -, hc, u, hu, rfl⟩
  · exact h.clearError.advance
  · exact h.advance
  · have hi : i ≠ .nop := by rintro rfl; cases hc
    exact (h.raiseError e (encode_ne_zero hi)).advance
  · exact (h.effectOf hc hu).advance

theorem State.Inv.commandWord {w : Word} {s t : State} (h : s.Inv)
    (ht : commandWord w s = .next t) : t.Inv := by
  rcases commandWord_next ht with ⟨i, -, hi⟩ | ⟨⟨e, he⟩, rfl | rfl⟩
  · exact h.exec hi
  · exact h.advance
  · have hw : w ≠ 0 := by rintro rfl; cases he
    exact (h.raiseError _ hw).advance

theorem State.Inv.hostStep {e : HostStep} {s t : State} (h : s.Inv)
    (ht : hostStep e s = .next t) : t.Inv := by
  have hn := hostStep_next ht
  cases e with
  | command w => exact h.commandWord hn
  | readReg n => rw [hn]; exact h.withAnswers _
  | readMem sp a => rw [hn]; exact h.withAnswers _
  | writeMem sp a b => obtain ⟨ha, rfl⟩ := hn; exact h.setMem_write ha b
  | reset => rw [hn]; exact h.resetRegisters
  | resetDuring w bits =>
    obtain ⟨u, hu, rfl⟩ := hn
    exact (h.storeBits hu).resetRegisters.advance

/-- Settles O42: the step waits or carries out one host step, and each host step is made of writers of
the state that keep the invariant. -/
theorem stepKeepsTheInvariant : Obligations.StepKeepsTheInvariant := by
  intro s t h ht
  rcases step_next ht with rfl | ⟨e, rest, -, he⟩
  · exact h
  · exact (h.withPending rest).hostStep he

/-! ### Start states -/

/-- A launched machine holds what a reset leaves (10_state.md R28, 70_reset_and_hazards.md R151). -/
theorem launch_inv {c : Config} {m k : Memory} (hc : c.legal) (hm : m.wf = true)
    (hmb : m.below c.msgCap = true) (hk : k.wf = true) (hkb : k.below c.codeCap = true) :
    (State.launch c m k).Inv :=
  resetRegisters_inv (s := State.launch c m k) hc hm hmb hk hkb

/-- Settles O43: the reset state and every start state are launches of an implementation, with any
memories and any host steps. -/
theorem startStatesHaveTheInvariant : Obligations.StartStatesHaveTheInvariant := by
  refine ⟨launch_inv (by decide) rfl rfl rfl rfl, ?_⟩
  rintro s ⟨c, m, k, l, hc, hm, hmb, hk, hkb, rfl⟩
  exact (launch_inv hc hm hmb hk hkb).withPending l

end Sys2Proof.Machine
end

section
/-! PROOFS. The three histories that every step of any kind respects: the verdict flags, `pos`, and the
word behind a latched error (10_state.md R11, R17, R18, R22). -/

namespace Sys2Proof.Machine

open Sys2Proof

/-- A host memory write leaves the flags (10_state.md R17, R18). -/
theorem setMem_valid_corr (s : State) (sp : Space) (m : Memory) :
    (s.setMem sp m).valid = s.valid ∧ (s.setMem sp m).corr = s.corr := by
  cases sp <;> exact ⟨rfl, rfl⟩

/-- Settles O38: of the host steps only a command word, by a check without an error, and the two resets
write the flags. -/
theorem verdictsChangeByChecksAndResetOnly : Obligations.VerdictsChangeByChecksAndResetOnly := by
  intro s t e rest hp h hne
  rw [step_cons hp] at h
  have unchanged (hv : t.valid = s.valid ∧ t.corr = s.corr) : False := by
    rcases hne with hv' | hk'
    · exact hv' hv.1
    · exact hk' hv.2
  have hn := hostStep_next h
  cases e with
  | command w =>
    rcases commandWord_next hn with ⟨i, hi, hx⟩ | ⟨-, rfl | rfl⟩
    · exact .inr (.inr ⟨w, i, rfl, hi, exec_verdict hx hne⟩)
    · exact (unchanged ⟨rfl, rfl⟩).elim
    · exact (unchanged ⟨raiseError_valid _ w _, raiseError_corr _ w _⟩).elim
  | readReg n => exact (unchanged (by rw [hn]; exact ⟨rfl, rfl⟩)).elim
  | readMem sp a => exact (unchanged (by rw [hn]; exact ⟨rfl, rfl⟩)).elim
  | writeMem sp a b => exact (unchanged (by rw [hn.2]; exact setMem_valid_corr ..)).elim
  | reset => exact .inl rfl
  | resetDuring w bits => exact .inr (.inl ⟨w, bits, rfl⟩)

/-- A command word takes nothing from the host's list and counts once (10_state.md R11). -/
theorem commandWord_pending_pos {w : Word} {s t : State} (h : commandWord w s = .next t) :
    t.pending = s.pending ∧ t.pos = s.pos + 1 := by
  rcases commandWord_next h with ⟨i, -, hx⟩ | ⟨-, rfl | rfl⟩
  · obtain ⟨-, -, hp, -, hpos⟩ := exec_kept hx
    exact ⟨hp, hpos⟩
  · exact ⟨rfl, rfl⟩
  · exact ⟨rfl, rfl⟩

/-- The host steps that hand a command word to the engine, executed or abandoned (10_state.md R11). -/
def HostStep.commands : HostStep → Nat
  | .command _ => 1
  | .resetDuring _ _ => 1
  | .readReg _ => 0
  | .readMem _ _ => 0
  | .writeMem _ _ _ => 0
  | .reset => 0

/-- A host step takes nothing more from the list, and `pos` counts the commands (10_state.md R11). -/
theorem hostStep_pending_pos {e : HostStep} {s t : State} (h : hostStep e s = .next t) :
    t.pending = s.pending ∧ t.pos = s.pos + e.commands := by
  have hn := hostStep_next h
  cases e with
  | command w => exact commandWord_pending_pos hn
  | readReg n => rw [hn]; exact ⟨rfl, rfl⟩
  | readMem sp a => rw [hn]; exact ⟨rfl, rfl⟩
  | writeMem sp a b => rw [hn.2]; exact ⟨setMem_pending .., setMem_pos ..⟩
  | reset => rw [hn]; exact ⟨rfl, rfl⟩
  | resetDuring w bits =>
    obtain ⟨u, hu, rfl⟩ := hn
    rw [storeBits_frame hu]
    exact ⟨rfl, rfl⟩

/-- Settles O39: each kind of host step counts as `HostStep.commands` says. -/
theorem posCountsTheCommands : Obligations.PosCountsTheCommands := by
  intro s t e rest hp h
  rw [step_cons hp] at h
  obtain ⟨hpend, hpos⟩ := hostStep_pending_pos h
  refine ⟨hpend, ?_, ?_, ?_⟩
  · rintro ⟨w, rfl⟩; exact hpos
  · rintro (⟨n, rfl⟩ | ⟨sp, a, rfl⟩ | ⟨sp, a, b, rfl⟩ | rfl) <;> exact hpos
  · rintro ⟨w, bits, rfl⟩; exact hpos

/-! ### The latch -/

/-- A state with no error latched has nothing to explain. -/
theorem latchExplained_of_clean {s : State} (h : s.err = false) : s.LatchExplained := fun he => by
  rw [h] at he
  cases he

/-- The explanation is about STATUS and ERRCMD only. -/
theorem State.LatchExplained.congr {s t : State} (h : s.LatchExplained)
    (hs : t.status = s.status) (hc : t.errcmd = s.errcmd) : t.LatchExplained := by
  unfold State.LatchExplained State.err State.errcode
  rw [hs, hc]
  exact h

/-- An error raised by a word is explained when the word can raise it (60_exceptions.md R130). -/
theorem latchExplained_raiseError {e : ErrorCode} {w : Word} (s : State)
    (h : wordRaises w e.code) : (raiseError e w s).advance.LatchExplained := fun _ => by
  rw [advance_errcmd, raiseError_errcmd, advance_errcode, raiseError_errcode]
  exact h

/-- A command raises the errors of its own word. -/
theorem wordRaises_of_check {w : Word} {i : Instr} {s : State} {e : ErrorCode}
    (hw : decode w = .ok i) (hc : checkOf s i = some e) : wordRaises w e.code := by
  unfold wordRaises
  rw [hw]
  exact ⟨e, checkOf_some hc, rfl⟩

theorem wordRaises_illegal {w : Word} {e : DecodeError} (hw : decode w = .error e) :
    wordRaises w ErrorCode.illegalCommand.code := by
  unfold wordRaises
  rw [hw]

theorem State.LatchExplained.commandWord {w : Word} {s t : State} (h : s.LatchExplained)
    (ht : commandWord w s = .next t) : t.LatchExplained := by
  rcases commandWord_next ht with ⟨i, hi, hx⟩ | ⟨⟨e, he⟩, rfl | rfl⟩
  · rcases exec_next hx with ⟨-, rfl⟩ | ⟨-, -, rfl⟩ | ⟨-, -, e, hc, rfl⟩ | hp
    · exact latchExplained_of_clean (clearError_err s)
    · exact h.congr rfl rfl
    · rw [encode_of_decode hi]
      exact latchExplained_raiseError s (wordRaises_of_check hi hc)
    · exact latchExplained_of_clean (Performed.err hp)
  · exact h.congr rfl rfl
  · exact latchExplained_raiseError s (wordRaises_illegal he)

theorem State.LatchExplained.hostStep {e : HostStep} {s t : State} (h : s.LatchExplained)
    (ht : hostStep e s = .next t) : t.LatchExplained := by
  have hn := hostStep_next ht
  cases e with
  | command w => exact h.commandWord hn
  | readReg n => rw [hn]; exact h.congr rfl rfl
  | readMem sp a => rw [hn]; exact h.congr rfl rfl
  | writeMem sp a b => rw [hn.2]; exact h.congr (setMem_status ..) (setMem_errcmd ..)
  | reset => rw [hn]; exact latchExplained_of_clean (resetRegisters_err s)
  | resetDuring w bits =>
    obtain ⟨u, -, rfl⟩ := hn
    exact latchExplained_of_clean (resetRegisters_err u)

/-- Settles O44: an error is latched by a word that can raise it, and host accesses leave STATUS and
ERRCMD as they are. -/
theorem latchStaysExplained : Obligations.LatchStaysExplained := by
  intro s t h ht
  rcases step_next ht with rfl | ⟨e, rest, -, he⟩
  · exact h
  · exact (h.congr (t := s.withPending rest) rfl rfl).hostStep he

end Sys2Proof.Machine
end

section
/-! PROOFS. The write table of 10_state.md R24, and `CHKALL.PM` in it. -/

namespace Sys2Proof.Machine

open Sys2Proof

/-! ### Registers -/

theorem exec_d {i : Instr} {s t : State} (h : exec i s = .next t) (hne : t.d ≠ s.d) :
    ∃ d, i = .setd d := by
  obtain ⟨-, -, -, u, hu, rfl⟩ :=
    performed_of_changed (f := State.d) (fun _ => rfl) (fun _ _ _ => rfl) (fun _ => rfl) h hne
  have hf := effectOf_frame hu
  cases i with
  | setd d => exact ⟨d, rfl⟩
  | _ => exact absurd (congrArg State.d hf) hne

theorem exec_mlen {i : Instr} {s t : State} (h : exec i s = .next t) (hne : t.mlen ≠ s.mlen) :
    ∃ n, i = .setlen n := by
  obtain ⟨-, -, -, u, hu, rfl⟩ :=
    performed_of_changed (f := State.mlen) (fun _ => rfl) (fun _ _ _ => rfl) (fun _ => rfl) h hne
  have hf := effectOf_frame hu
  cases i with
  | setlen n => exact ⟨n, rfl⟩
  | _ => exact absurd (congrArg State.mlen hf) hne

theorem exec_clen {i : Instr} {s t : State} (h : exec i s = .next t) (hne : t.clen ≠ s.clen) :
    (∃ n, i = .setclen n) ∨ i = .encPb ∨ i = .encPm := by
  obtain ⟨-, -, -, u, hu, rfl⟩ :=
    performed_of_changed (f := State.clen) (fun _ => rfl) (fun _ _ _ => rfl) (fun _ => rfl) h hne
  have hf := effectOf_frame hu
  cases i with
  | setclen n => exact .inl ⟨n, rfl⟩
  | encPb => exact .inr (.inl rfl)
  | encPm => exact .inr (.inr rfl)
  | _ => exact absurd (congrArg State.clen hf) hne

theorem exec_loc_ncand {i : Instr} {s t : State} (h : exec i s = .next t)
    (hne : t.loc ≠ s.loc ∨ t.ncand ≠ s.ncand) : (∃ n, i = .chkPm n) ∨ i = .chkallPm := by
  have hne : (t.loc, t.ncand) ≠ (s.loc, s.ncand) := by
    rw [Ne, Prod.mk.injEq, not_and_or]
    exact hne
  obtain ⟨-, -, -, u, hu, rfl⟩ := performed_of_changed (f := fun s => (s.loc, s.ncand))
    (fun _ => rfl) (fun _ _ _ => rfl) (fun _ => rfl) h hne
  have hf := effectOf_frame hu
  cases i with
  | chkPm n => exact .inl ⟨n, rfl⟩
  | chkallPm => exact .inr rfl
  | _ => exact absurd (congrArg (fun s => (s.loc, s.ncand)) hf) hne

/-- LOC is written with a correction only (43_pm_check.md R103, R105). -/
theorem exec_loc_corr {i : Instr} {s t : State} (h : exec i s = .next t) (hne : t.loc ≠ s.loc) :
    t.corr = true := by
  obtain ⟨-, -, -, u, hu, rfl⟩ :=
    performed_of_changed (f := State.loc) (fun _ => rfl) (fun _ _ _ => rfl) (fun _ => rfl) h hne
  by_contra hk
  rw [Bool.not_eq_true] at hk
  rcases exec_loc_ncand h (.inl hne) with ⟨n, rfl⟩ | rfl
  · exact hne (checkMatrix_loc (t := u) hu hk)
  · exact hne (checkMatrices_loc (t := u) hu hk).2

/-- The latch changes by `CLRERR` and by an error only (60_exceptions.md R131, R139, R140). -/
theorem exec_latch {i : Instr} {s t : State} (h : exec i s = .next t)
    (hne : t.err ≠ s.err ∨ t.errcode ≠ s.errcode ∨ t.errcmd ≠ s.errcmd) :
    i = .clrerr ∨ t.err = true := by
  rcases exec_next h with ⟨hi, -⟩ | ⟨-, -, rfl⟩ | ⟨-, -, e, -, rfl⟩ | ⟨hi, -, -, u, hu, rfl⟩
  · exact .inl hi
  · simp at hne
  · exact .inr (raiseError_err e (encode i) s)
  · obtain ⟨he, hc, hw⟩ := effectOf_latch hi hu
    simp [he, hc, hw] at hne

theorem exec_reserved {i : Instr} {s t : State} (h : exec i s = .next t) :
    statusReserved t.status = statusReserved s.status := by
  rcases exec_next h with ⟨-, rfl⟩ | ⟨-, -, rfl⟩ | ⟨-, -, e, -, rfl⟩ | ⟨-, -, -, u, hu, rfl⟩
  · exact reserved_statusWithoutError _
  · rfl
  · exact reserved_statusWithError ..
  · exact effectOf_reserved (u := u) hu

/-- A command that leaves an error where none was has done exactly its error entry. -/
theorem exec_latched {i : Instr} {s t : State} (h : exec i s = .next t) (hs : s.err = false)
    (ht : t.err = true) : ∃ e ∈ errorsOf i, Latched e (encode i) s t := by
  rcases exec_next h with ⟨-, rfl⟩ | ⟨-, hf, -⟩ | ⟨-, -, e, hc, rfl⟩ | hp
  · rw [advance_err, clearError_err] at ht; cases ht
  · rw [hs] at hf; cases hf
  · exact ⟨e, checkOf_some hc, latched_raise e _ s⟩
  · rw [Performed.err hp] at ht; cases ht

/-! ### CODE -/

theorem exec_code {i : Instr} {s t : State} (h : exec i s = .next t) (hne : t.code ≠ s.code) :
    (∃ a, i = .flip a) ∨ i = .encPb ∨ i = .encPm ∨ (∃ n, i = .chkPm n) ∨ i = .chkallPm := by
  obtain ⟨-, -, -, u, hu, rfl⟩ :=
    performed_of_changed (f := State.code) (fun _ => rfl) (fun _ _ _ => rfl) (fun _ => rfl) h hne
  have hf := effectOf_frame hu
  cases i with
  | flip a => exact .inl ⟨a, rfl⟩
  | encPb => exact .inr (.inl rfl)
  | encPm => exact .inr (.inr (.inl rfl))
  | chkPm n => exact .inr (.inr (.inr (.inl ⟨n, rfl⟩)))
  | chkallPm => exact .inr (.inr (.inr (.inr rfl)))
  | _ => exact absurd (congrArg State.code hf) hne

/-- A bit that a run of writes from address 0 changes lies in the run. -/
theorem lt_of_writeRun_changed {m : Memory} (hm : m.wf = true) {bits : List Bit} {a : Nat}
    (h : (m.writeRun 0 bits).read a ≠ m.read a) : a < bits.length := by
  by_contra hlt
  rw [Memory.read_writeRun hm, if_neg (by omega)] at h
  exact h rfl

theorem flipBit_cell {a b : Nat} {s u : State} (hs : s.Inv) (ha : a < s.clenVal)
    (hu : flipBit a s = .ok u) (hne : u.code.read b ≠ s.code.read b) : b = a := by
  rw [flipBit_ok (Nat.lt_of_lt_of_le ha hs.clenFits)] at hu
  cases hu
  by_contra hba
  rw [Memory.read_write hs.codeWf, if_neg hba] at hne
  exact hne rfl

theorem encPbEffect_cell {a : Nat} {s u : State} (hs : s.Inv) (hc : encPbCheck s = none)
    (hu : encPbEffect s = .ok u) (hne : u.code.read a ≠ s.code.read a) :
    u.clenVal = encPbLength s ∧ a < encPbLength s := by
  obtain ⟨hd, -, hcap⟩ := encPbCheck_none hc
  have hcfg := hs.configLegal.2.2
  rw [encPbEffect_ok hd hs.mlenFits hcap] at hu
  cases hu
  refine ⟨toNat_countReg (by omega), ?_⟩
  have hlt := lt_of_writeRun_changed hs.codeWf hne
  rwa [length_pbEncode _ hd, Memory.length_readRun] at hlt

theorem encPmEffect_cell {a : Nat} {s u : State} (hs : s.Inv) (hc : encPmCheck s = none)
    (hu : encPmEffect s = .ok u) (hne : u.code.read a ≠ s.code.read a) :
    u.clenVal = encPmLength s ∧ a < encPmLength s := by
  obtain ⟨hd, -, hcap⟩ := encPmCheck_none hc
  have hcfg := hs.configLegal.2.2
  rw [encPmEffect_ok hd hs.mlenFits hcap] at hu
  cases hu
  refine ⟨toNat_countReg (by omega), ?_⟩
  have hlt := lt_of_writeRun_changed hs.codeWf hne
  rwa [length_pmEncode, Memory.length_readRun, hd.1] at hlt

/-- A bit that `CHKALL.PM` changes is the located cell of one matrix of the code (43_pm_check.md R105). -/
theorem chkallPmEffect_cell {a : Nat} {s u : State} (hs : s.Inv) (hd : s.dim * s.dim = s.dVal)
    (hu : chkallPmEffect s = .ok u) (hne : u.code.read a ≠ s.code.read a) :
    ∃ n < s.matrices, Locates s n a := by
  obtain ⟨n, hn, hl⟩ := checkMatrices_code hu List.nodup_range hs.codeWf hd a hne
  exact ⟨n, List.mem_range.1 hn, hl⟩

/-- The located cell lies in the run of its matrix, written as R24's row has it. -/
theorem Locates.run {s : State} {n a : Nat} (hd : s.dim * s.dim = s.dVal) (h : Locates s n a) :
    n * s.dVal ≤ a ∧ a < (n + 1) * s.dVal := by
  rw [Nat.succ_mul]
  exact h.bounds hd

/-- Which command may change the bit at address `a` of CODE (10_state.md R24). -/
theorem exec_code_cell {i : Instr} {s t : State} (hs : s.Inv) (h : exec i s = .next t) {a : Nat}
    (hne : t.code.read a ≠ s.code.read a) :
    (i = .flip a ∧ a < s.clenVal) ∨
    (i = .encPb ∧ t.clenVal = encPbLength s ∧ a < encPbLength s) ∨
    (i = .encPm ∧ t.clenVal = encPmLength s ∧ a < encPmLength s) ∨
    ∃ n, (i = .chkPm n ∨ i = .chkallPm) ∧ n < s.matrices ∧ Locates s n a ∧
      n * s.dVal ≤ a ∧ a < (n + 1) * s.dVal := by
  obtain ⟨-, -, hc, u, hu, rfl⟩ := performed_of_changed (f := fun s => s.code.read a)
    (fun _ => rfl) (fun _ _ _ => rfl) (fun _ => rfl) h hne
  rcases exec_code h (fun heq => hne (by rw [heq])) with
    ⟨b, rfl⟩ | rfl | rfl | ⟨n, rfl⟩ | rfl
  · have hb := flipCheck_none hc
    obtain rfl := flipBit_cell hs hb hu hne
    exact .inl ⟨rfl, hb⟩
  · exact .inr (.inl ⟨rfl, encPbEffect_cell (u := u) hs hc hu hne⟩)
  · exact .inr (.inr (.inl ⟨rfl, encPmEffect_cell (u := u) hs hc hu hne⟩))
  · obtain ⟨hd, -, -, hn⟩ := chkPmCheck_none hc
    obtain ⟨-, -, hcell⟩ := checkMatrix_code hu hs.codeWf
    have hl := hcell a hne
    exact .inr (.inr (.inr ⟨n, .inl rfl, hn, hl, hl.run hd.1⟩))
  · obtain ⟨hd, -, -⟩ := chkallPmCheck_none hc
    obtain ⟨n, hn, hl⟩ := chkallPmEffect_cell hs hd.1 hu hne
    exact .inr (.inr (.inr ⟨n, .inr rfl, hn, hl, hl.run hd.1⟩))

/-- Settles O37: a command changes a register or a bit of CODE by its effect only, and the effects are
gone through register by register. -/
theorem commandsWriteTheirTableRowOnly : Obligations.CommandsWriteTheirTableRowOnly := by
  intro i s t h
  obtain ⟨hmsg, hcfg, hpend, hans, hpos⟩ := exec_kept h
  refine ⟨hmsg, hcfg, hpend, hans, hpos, fun he hi => ?_, exec_latched h, exec_d h, exec_mlen h,
    exec_clen h, exec_loc_ncand h, exec_loc_corr h, fun hne => (exec_verdict h hne).2, exec_latch h,
    exec_reserved h, exec_code h, fun hs a hne => ⟨?_, exec_code_cell hs h hne⟩⟩
  · rw [exec_eq_runCommand hi, runCommand_frozen he] at h
    cases h
    rfl
  · exact (performed_of_changed (f := fun s => s.code.read a) (fun _ => rfl) (fun _ _ _ => rfl)
      (fun _ => rfl) h hne).err

/-! ### `CHKALL.PM` -/

/-- A check locates at most one cell of a matrix. -/
theorem Locates.unique {s : State} {n a b : Nat} (ha : Locates s n a) (hb : Locates s n b) :
    a = b := by
  obtain ⟨r, c, hf, rfl⟩ := ha
  obtain ⟨r', c', hf', rfl⟩ := hb
  rw [hf] at hf'
  cases hf'
  rfl

/-- The matrix of the located cell is the quotient of its address by D (30_encoding.md R63). -/
theorem Locates.div_eq {s : State} {n a : Nat} (hd : s.dim * s.dim = s.dVal) (h : Locates s n a) :
    a / s.dVal = n := by
  obtain ⟨hlo, hhi⟩ := h.run hd
  exact Nat.div_eq_of_lt_le hlo hhi

/-- The located cell lies in a data row, never in the parity row (43_pm_check.md R101, R103). -/
theorem Locates.row_lt {s : State} {n a : Nat} (hd : s.dim * s.dim = s.dVal) (h : Locates s n a) :
    a % s.dVal / s.dim < s.dim - 1 := by
  have hdiv := h.div_eq hd
  obtain ⟨r, c, hf, ha⟩ := h
  obtain ⟨hr, hc⟩ := flip_bounds hf
  have hmod := Nat.div_add_mod' a s.dVal
  rw [hdiv] at hmod
  have hcell : a % s.dVal = c + r * s.dim := by omega
  rw [hcell, Nat.add_mul_div_right _ _ (by omega), Nat.div_eq_of_lt hc]
  omega

/-- An error-free `CHKALL.PM` writes STATUS, LOC, NCAND and CODE only (10_state.md R24). -/
theorem chkallPmEffect_frame {s u : State} (h : chkallPmEffect s = .ok u) :
    u.advance = { s with status := u.status, loc := u.loc, ncand := u.ncand, code := u.code,
                         pos := s.pos + 1 } := by
  rw [checkMatrices_frame h]
  rfl

/-- Settles O31: every bit that `CHKALL.PM` changes is the one located cell of a matrix of the code. -/
theorem chkallPmChangesOneBitPerMatrix : Obligations.ChkallPmChangesOneBitPerMatrix := by
  intro s t dim hs he hdim h ht
  obtain ⟨-, -, hc, u, hu, rfl⟩ := performed_of_no_error (by decide) he ht h
  obtain ⟨⟨hd, -⟩, -, -⟩ := chkallPmCheck_none hc
  obtain rfl : s.dim = dim := (congrArg isqrt hdim).trans (isqrt_square dim)
  have cell (a : Nat) (ha : u.code.read a ≠ s.code.read a) : ∃ n < s.matrices, Locates s n a :=
    chkallPmEffect_cell hs hd hu ha
  refine ⟨chkallPmEffect_frame hu, fun a hle => ?_, fun a b hab ha hb => ?_, fun a ha => ?_⟩
  · by_contra hne
    obtain ⟨n, hn, hl⟩ := cell a hne
    have hlt := (hl.bounds hd).2
    exact absurd (Nat.le_trans (matrix_in_code hn) hle) (Nat.not_le.2 hlt)
  · obtain ⟨n, -, hl⟩ := cell a ha
    obtain ⟨m, -, hm⟩ := cell b hb
    obtain rfl : n = m := (hl.div_eq hd).symm.trans (hab.trans (hm.div_eq hd))
    exact hl.unique hm
  · obtain ⟨n, -, hl⟩ := cell a ha
    exact hl.row_lt hd

end Sys2Proof.Machine
end

section
/-! PROOFS. The host's accesses (20_memory.md R36 to R39, R41): a command word, a register read, a
memory access; and MSG under a command word (R47). -/

namespace Sys2Proof.Machine

open Sys2Proof

/-- Settles O6: the step hands the first pending word to the meaning of its command. -/
theorem stepRunsTheDecodedCommand : Obligations.StepRunsTheDecodedCommand := by
  intro s rest w i hp hw
  rw [step_cons hp]
  simp only [hostStep, commandWord, hw]
  rfl

/-- Settles O8: the answer is `readReg`, read off for each of the eight numbers. -/
theorem hostReadsTheRegisterView : Obligations.HostReadsTheRegisterView := by
  intro s rest n hp
  refine ⟨s.readReg n, step_cons hp, ?_, ?_, ?_, ?_, ?_, ?_, ?_, ?_⟩ <;> rintro rfl
  · exact BitVec.toNat_setWidth_of_le (b := s.status) (by decide)
  · exact BitVec.toNat_setWidth_of_le (b := s.d) (by decide)
  · exact BitVec.toNat_setWidth_of_le (b := s.mlen) (by decide)
  · exact BitVec.toNat_setWidth_of_le (b := s.clen) (by decide)
  · exact BitVec.toNat_setWidth_of_le (b := s.loc) (by decide)
  · exact BitVec.toNat_setWidth_of_le (b := s.ncand) (by decide)
  · rfl
  · rfl

/-! ### Memories -/

@[simp] theorem withPending_mem (s : State) (l : List HostStep) (sp : Space) :
    (s.withPending l).mem sp = s.mem sp := by cases sp <;> rfl

@[simp] theorem withPending_cap (s : State) (l : List HostStep) (sp : Space) :
    (s.withPending l).cap sp = s.cap sp := by cases sp <;> rfl

/-- Both memories are in canonical form (20_memory.md R30). -/
theorem State.Inv.memWf {s : State} (h : s.Inv) (sp : Space) : (s.mem sp).wf = true := by
  cases sp with
  | msg => exact h.msgWf
  | code => exact h.codeWf

/-- A host access at or above the capacity is refused (R41; log 14). -/
theorem hostMem_refused {s : State} {sp : Space} {a : BitVec 24} (h : s.cap sp ≤ a.toNat) :
    hostReadMem sp a s = .refused (.hostAddress sp a) ∧
      ∀ b, hostWriteMem sp a b s = .refused (.hostAddress sp a) :=
  ⟨if_neg (Nat.not_lt.2 h), fun _ => if_neg (Nat.not_lt.2 h)⟩

/-- Settles O9: the capacity decides between the access and the refusal, and a write changes one bit
(`Memory.read_write`). -/
theorem hostReachesExactlyTheMemories : Obligations.HostReachesExactlyTheMemories := by
  intro s rest sp a hs
  refine ⟨fun hp ha => ?_, fun b hp ha => ?_, fun ha hp => ?_⟩
  · have hread : hostReadMem sp a (s.withPending rest) = .next _ := if_pos (by simpa using ha)
    rw [step_cons hp, hostStep, hread, withPending_mem]
    rfl
  · have hwrite : hostWriteMem sp a b (s.withPending rest) = .next _ := if_pos (by simpa using ha)
    refine ⟨_, (step_cons hp).trans hwrite, ?_, fun x => ?_⟩
    · rw [setMem_mem_same]
      cases sp <;> rfl
    · rw [setMem_mem_same, withPending_mem, Memory.read_write (hs.memWf sp)]
  · obtain ⟨hread, hwrite⟩ :=
      hostMem_refused (s := s.withPending rest) (sp := sp) (a := a) (by simpa using ha)
    rcases hp with hp | ⟨b, hp⟩
    · exact (step_cons hp).trans hread
    · exact (step_cons hp).trans (hwrite b)

/-- Settles O36: a command keeps MSG (`exec_kept`), and so does the rejection of an illegal word. -/
theorem noCommandWritesMsg : Obligations.NoCommandWritesMsg := by
  intro w s t h
  rcases commandWord_next h with ⟨i, -, hi⟩ | ⟨-, rfl | rfl⟩
  · exact (exec_kept hi).1
  · rfl
  · rfl

end Sys2Proof.Machine
end

section
/-! PROOFS. No command reads beyond the message or the code (20_memory.md R31, R32, R42): a command
run on other memories that agree on `MSG[0..MLEN)` and `CODE[0..CLEN)` ends with the same registers
and the same code. -/

namespace Sys2Proof.Machine

open Sys2Proof

/-! ### A state with other memories -/

/-- `s` with the contents `m` of MSG and `k` of CODE. -/
def State.withMemories (s : State) (m k : Memory) : State := { s with msg := m, code := k }

@[simp] theorem withMemories_msg (s : State) (m k : Memory) : (s.withMemories m k).msg = m := rfl
@[simp] theorem withMemories_code (s : State) (m k : Memory) : (s.withMemories m k).code = k := rfl
@[simp] theorem withMemories_dVal (s : State) (m k : Memory) :
    (s.withMemories m k).dVal = s.dVal := rfl
@[simp] theorem withMemories_mlenVal (s : State) (m k : Memory) :
    (s.withMemories m k).mlenVal = s.mlenVal := rfl
@[simp] theorem withMemories_clenVal (s : State) (m k : Memory) :
    (s.withMemories m k).clenVal = s.clenVal := rfl
@[simp] theorem withMemories_dim (s : State) (m k : Memory) :
    (s.withMemories m k).dim = s.dim := rfl

/-- No check of a command reads a memory. -/
@[simp] theorem checkOf_withMemories (s : State) (m k : Memory) (i : Instr) :
    checkOf (s.withMemories m k) i = checkOf s i := by cases i <;> rfl

/-- The memory `k` holds the code of `s`: it agrees with CODE below CLEN. -/
def SameCode (s : State) (k : Memory) : Prop := ∀ a < s.clenVal, k.read a = s.code.read a

/-- The memories `m` and `k` hold the message and the code of `s`, and both states are good. -/
structure SameData (s : State) (m k : Memory) : Prop where
  inv     : s.Inv
  inv'    : (s.withMemories m k).Inv
  message : ∀ a < s.mlenVal, m.read a = s.msg.read a
  code    : SameCode s k

/-! ### What is fetched -/

theorem SameData.readRun_msg_eq {s : State} {m k : Memory} (h : SameData s m k) :
    m.readRun 0 s.mlenVal = s.msg.readRun 0 s.mlenVal :=
  Memory.readRun_congr fun i hi => h.message _ (by omega)

theorem SameCode.readRun_eq {s : State} {k : Memory} (h : SameCode s k) {a n : Nat}
    (hn : a + n ≤ s.clenVal) : k.readRun a n = s.code.readRun a n :=
  Memory.readRun_congr fun i hi => h _ (by omega)

/-- The cells of a matrix of the code are the same. -/
theorem SameCode.matrixGrid_eq {s : State} {k : Memory} (h : SameCode s k) (m : Memory) {n r c : Nat}
    (hd : s.dim * s.dim = s.dVal) (hn : n < s.matrices) (hr : r < s.dim) (hc : c < s.dim) :
    matrixGrid (s.withMemories m k) n r c = matrixGrid s n r c := by
  have hcell := cell_lt hr hc
  have hmat := matrix_in_code hn
  exact h (n * s.dVal + (r * s.dim + c)) (by omega)

/-! ### What is stored -/

/-- The same bit written to one address. -/
theorem SameCode.write {s : State} {k : Memory} (h : SameCode s k) (hw : s.code.wf = true)
    (hk : k.wf = true) (a : Nat) (b : Bit) :
    SameCode { s with code := s.code.write a b } (k.write a b) := by
  intro x hx
  change _ = (s.code.write a b).read x
  rw [Memory.read_write hk, Memory.read_write hw]
  split
  · rfl
  · exact h x hx

/-- A code written as a whole with its length is the same, whatever CODE held. -/
theorem sameCode_writeRun {s : State} {k : Memory} (hw : s.code.wf = true) (hk : k.wf = true)
    {bits : List Bit} {n : Nat} (hn : bits.length = n) :
    SameCode { s with code := s.code.writeRun 0 bits, clen := countReg n } (k.writeRun 0 bits) := by
  intro a ha
  have hlt : a < n := Nat.lt_of_lt_of_le ha (Nat.mod_le n (2 ^ 24))
  change _ = (s.code.writeRun 0 bits).read a
  rw [Memory.read_writeRun hk, Memory.read_writeRun hw, if_pos (by omega), if_pos (by omega)]

/-! ### Matrix checks -/

/-- The registers after a matrix check depend on its outcome only. -/
theorem afterCheck_withMemories (n : Nat) (s : State) (m k : Memory) (res : PmResult) :
    afterCheck n (s.withMemories m k) res =
      (afterCheck n s res).withMemories m (afterCheck n (s.withMemories m k) res).code := by
  unfold afterCheck
  split <;> rfl

/-- A matrix check inverts the same cell of the same code. -/
theorem SameCode.afterCheck {s : State} {k : Memory} (h : SameCode s k) (hw : s.code.wf = true)
    (hk : k.wf = true) (m : Memory) {n : Nat} (hd : s.dim * s.dim = s.dVal) (hn : n < s.matrices)
    {g : Grid} : SameCode (afterCheck n s (pmCheck s.dim g))
      (afterCheck n (s.withMemories m k) (pmCheck s.dim g)).code := by
  cases hf : (pmCheck s.dim g).flip with
  | none =>
    simp only [Machine.afterCheck, hf]
    exact h
  | some rc =>
    obtain ⟨r, c⟩ := rc
    obtain ⟨hr, hc⟩ := flip_bounds hf
    simp only [Machine.afterCheck, hf, h.matrixGrid_eq m hd hn (show r < s.dim by omega) hc]
    exact h.write hw hk _ _

/-- A check of a matrix of the code answers the same on the same data, and leaves the same data. -/
theorem SameData.checkMatrix {s u : State} {m k : Memory} (h : SameData s m k) {n : Nat}
    (hd : s.dim * s.dim = s.dVal) (hn : n < s.matrices) (hu : checkMatrix n s = .ok u) :
    ∃ k', checkMatrix n (s.withMemories m k) = .ok (u.withMemories m k') ∧ SameData u m k' := by
  have hcap : n * s.dVal + s.dVal ≤ s.config.codeCap :=
    Nat.le_trans (matrix_in_code hn) h.inv.clenFits
  have hres : pmCheck s.dim (matrixGrid (s.withMemories m k) n) = pmCheck s.dim (matrixGrid s n) :=
    pmCheck_congr fun _ hr _ hc => h.code.matrixGrid_eq m hd hn hr hc
  have hu' := checkMatrix_ok (s := s.withMemories m k) (n := n) hd hcap
  have hframe := checkMatrix_frame hu
  have hinv := h.inv.checkMatrix hu
  have hinv' := h.inv'.checkMatrix hu'
  rw [withMemories_dim, hres, afterCheck_withMemories] at hu' hinv'
  rw [checkMatrix_ok hd hcap] at hu
  cases hu
  refine ⟨_, hu', hinv, hinv', ?_, h.code.afterCheck h.inv.codeWf h.inv'.codeWf m hd hn⟩
  rw [hframe]
  exact h.message

/-- The loop of `CHKALL.PM` over matrices of the code. -/
theorem SameData.checkMatrices {ns : List Nat} {v c : Bool} {s u : State} {m k : Memory}
    (h : SameData s m k) (hd : s.dim * s.dim = s.dVal) (hns : ∀ n ∈ ns, n < s.matrices)
    (hu : checkMatrices ns v c s = .ok u) :
    ∃ k', checkMatrices ns v c (s.withMemories m k) = .ok (u.withMemories m k') ∧
      SameData u m k' := by
  induction ns generalizing v c s k with
  | nil =>
    cases hu
    exact ⟨k, rfl, h.inv.setVerdict v c, h.inv'.setVerdict v c, h.message, h.code⟩
  | cons n ns ih =>
    obtain ⟨t, ht, hu⟩ := bind_eq_ok.1 hu
    obtain ⟨k₁, ht', h₁⟩ := h.checkMatrix hd (hns n List.mem_cons_self) ht
    have hframe := checkMatrix_frame ht
    have hdVal : t.dVal = s.dVal := by rw [hframe]; rfl
    have hdim : t.dim = s.dim := congrArg isqrt hdVal
    have hmat : t.matrices = s.matrices := by rw [hframe]; rfl
    obtain ⟨k₂, hu', h₂⟩ := ih h₁ (by rw [hdim, hdVal, hd])
      (fun x hx => hmat ▸ hns x (List.mem_cons_of_mem n hx)) hu
    exact ⟨k₂, bind_eq_ok.2 ⟨_, ht', hu'⟩, h₂⟩

/-! ### Every effect, and every command -/

/-- The effect of a command answers the same on the same data, and it leaves the same code, but for
`SETCLEN`, which may bring cells it did not read into the code. -/
theorem SameData.effectOf {i : Instr} {s u : State} {m k : Memory} (h : SameData s m k)
    (hc : checkOf s i = none) (hu : effectOf i s = .ok u) :
    ∃ k', effectOf i (s.withMemories m k) = .ok (u.withMemories m k') ∧
      ((∀ n, i ≠ .setclen n) → SameCode u k') := by
  have hw : s.code.wf = true := h.inv.codeWf
  have hw' : k.wf = true := h.inv'.codeWf
  have hclen : s.clenVal ≤ s.config.codeCap := h.inv.clenFits
  cases i with
  | nop => cases hu; exact ⟨k, rfl, fun _ => h.code⟩
  | setd d => cases hu; exact ⟨k, rfl, fun _ => h.code⟩
  | setlen n => cases hu; exact ⟨k, rfl, fun _ => h.code⟩
  | setclen n => cases hu; exact ⟨k, rfl, fun hi => absurd rfl (hi n)⟩
  | clrerr => cases hu; exact ⟨k, rfl, fun _ => h.code⟩
  | flip a =>
    have ha : a < s.clenVal := flipCheck_none hc
    have hcap : a < s.config.codeCap := Nat.lt_of_lt_of_le ha hclen
    have hu' : flipBit a (s.withMemories m k) = .ok _ := flipBit_ok hcap
    rw [withMemories_code, h.code a ha] at hu'
    obtain rfl := Except.ok.inj ((flipBit_ok hcap).symm.trans hu)
    exact ⟨_, hu', fun _ => h.code.write hw hw' a _⟩
  | encPb =>
    obtain ⟨hd, -, hcap⟩ := encPbCheck_none hc
    have hu' := encPbEffect_ok (s := s.withMemories m k) hd h.inv.mlenFits hcap
    rw [withMemories_msg, withMemories_mlenVal, h.readRun_msg_eq] at hu'
    obtain rfl := Except.ok.inj ((encPbEffect_ok hd h.inv.mlenFits hcap).symm.trans hu)
    refine ⟨_, hu', fun _ => sameCode_writeRun hw hw' ?_⟩
    rw [length_pbEncode _ hd, Memory.length_readRun, encPbLength]
  | encPm =>
    obtain ⟨hd, -, hcap⟩ := encPmCheck_none hc
    have hu' := encPmEffect_ok (s := s.withMemories m k) hd h.inv.mlenFits hcap
    rw [withMemories_msg, withMemories_mlenVal, h.readRun_msg_eq] at hu'
    obtain rfl := Except.ok.inj ((encPmEffect_ok hd h.inv.mlenFits hcap).symm.trans hu)
    refine ⟨_, hu', fun _ => sameCode_writeRun hw hw' ?_⟩
    rw [length_pmEncode, Memory.length_readRun, hd.1, encPmLength, State.dim]
  | chkPb n =>
    obtain ⟨-, -, hn⟩ := chkPbCheck_none hc
    have hu' := chkPbEffect_ok (s := s.withMemories m k) (n := n) hclen (Nat.le_of_lt hn)
    simp only [withMemories_code, withMemories_dVal, withMemories_clenVal] at hu'
    rw [h.code.readRun_eq (by omega)] at hu'
    obtain rfl := Except.ok.inj ((chkPbEffect_ok hclen (Nat.le_of_lt hn)).symm.trans hu)
    exact ⟨k, hu', fun _ => h.code⟩
  | chkallPb =>
    have hu' := chkallPbEffect_ok (s := s.withMemories m k) hclen
    rw [withMemories_code, withMemories_clenVal, h.code.readRun_eq (by omega)] at hu'
    obtain rfl := Except.ok.inj ((chkallPbEffect_ok hclen).symm.trans hu)
    exact ⟨k, hu', fun _ => h.code⟩
  | chkPm n =>
    obtain ⟨hd, -, -, hn⟩ := chkPmCheck_none hc
    obtain ⟨k', hu', h'⟩ := h.checkMatrix hd.1 hn hu
    exact ⟨k', hu', fun _ => h'.code⟩
  | chkallPm =>
    obtain ⟨hd, -, -⟩ := chkallPmCheck_none hc
    obtain ⟨k', hu', h'⟩ := h.checkMatrices hd.1 (fun _ => List.mem_range.1) hu
    exact ⟨k', hu', fun _ => h'.code⟩

/-- The same for the whole command: dropped, raising an error, or having its effect. -/
theorem SameData.exec {i : Instr} {s t : State} {m k : Memory} (h : SameData s m k)
    (ht : exec i s = .next t) :
    ∃ k', exec i (s.withMemories m k) = .next (t.withMemories m k') ∧
      ((∀ n, i ≠ .setclen n) → SameCode t k') := by
  rcases exec_next ht with ⟨rfl, rfl⟩ | ⟨hi, he, rfl⟩ | ⟨hi, he, e, hc, rfl⟩ |
    ⟨hi, he, hc, u, hu, rfl⟩
  · exact ⟨k, rfl, fun _ => h.code⟩
  · refine ⟨k, ?_, fun _ => h.code⟩
    rw [exec_eq_runCommand hi]
    exact runCommand_frozen he
  · refine ⟨k, ?_, fun _ => h.code⟩
    rw [exec_eq_runCommand hi]
    exact runCommand_raise he ((checkOf_withMemories ..).trans hc)
  · obtain ⟨k', hu', h'⟩ := h.effectOf hc hu
    have hc' := (checkOf_withMemories s m k i).trans hc
    exact ⟨k', exec_done hi (s := s.withMemories m k) he hc' hu', h'⟩

/-- No command changes a bit of CODE beyond both the old code and the new one (20_memory.md R42). -/
theorem exec_beyond_code {i : Instr} {s t : State} (hs : s.Inv) (h : exec i s = .next t) {a : Nat}
    (ha : s.clenVal ≤ a) (ha' : t.clenVal ≤ a) : t.code.read a = s.code.read a := by
  by_contra hne
  rcases exec_code_cell hs h hne with ⟨-, hlt⟩ | ⟨-, hlen, hlt⟩ | ⟨-, hlen, hlt⟩ |
    ⟨n, -, hn, -, -, hlt⟩
  · omega
  · omega
  · omega
  · have hmat := matrix_in_code hn
    rw [Nat.succ_mul] at hlt
    omega

/-- Settles O40: the second run is the first one on other memories with the same message and code
(`SameData.exec`), and no command writes beyond the code. -/
theorem commandsReadMessageAndCodeOnly : Obligations.CommandsReadMessageAndCodeOnly := by
  intro i s s' t hs hs' heq hmsg hcode ht
  change s' = s.withMemories s'.msg s'.code at heq
  have hdata : SameData s s'.msg s'.code := ⟨hs, heq ▸ hs', hmsg, hcode⟩
  obtain ⟨k', ht', hk'⟩ := hdata.exec ht
  rw [← heq] at ht'
  have hclen : s'.clenVal = s.clenVal := by rw [heq]; rfl
  exact ⟨_, ht', rfl, hk', fun a ha ha' => exec_beyond_code hs' ht' (hclen ▸ ha) ha'⟩

end Sys2Proof.Machine
end

section
/-! PROOFS. The command words (30_encoding.md R54 to R59): which command a word is, read from its two
fields, from its one encoding and from its row of the opcode map; and the illegal words. -/

namespace Sys2Proof.Machine

open Sys2Proof

/-! ### The command of a word -/

/-- A word is a command exactly when its two fields are the command's (R54, R57). -/
theorem decode_eq_ok_iff_fields {w : Word} {i : Instr} :
    decode w = .ok i ↔ opcodeOf w = i.opcode ∧ immOf w = i.imm := by
  refine ⟨decodeFields_eq_ok, ?_⟩
  rintro ⟨hop, himm⟩
  rw [decode, hop, himm, decodeFields_of_instr]

/-- A well-formed command is read back from its word: an immediate that fits keeps all its bits
(R58). -/
theorem decode_encode {i : Instr} (hwf : i.wf = true) : decode (encode i) = .ok i :=
  decode_eq_ok_iff_fields.2
    ⟨opcodeOf_wordOf i.opcode i.imm, immOf_wordOf_of_fits (immFits_imm hwf)⟩

/-- Settles O1: the two fields of the composed word are the command's own (`decode_encode`). -/
theorem decodeOfEncodeIsTheCommand : Obligations.DecodeOfEncodeIsTheCommand :=
  fun _ => decode_encode

/-- Settles O2: the immediate of a word fits, and the word is composed of its two fields
(`encode_of_decode`). -/
theorem encodeOfDecodeIsTheWord : Obligations.EncodeOfDecodeIsTheWord := by
  intro w i h
  obtain ⟨-, himm⟩ := decode_eq_ok_iff_fields.1 h
  exact ⟨wf_of_immFits (himm ▸ immFits_immOf w), encode_of_decode h⟩

/-- A well-formed command has one word (R57, R59). -/
theorem decode_eq_ok_iff_encode {w : Word} {i : Instr} (hwf : i.wf = true) :
    decode w = .ok i ↔ w = encode i :=
  ⟨fun h => (encode_of_decode h).symm, fun h => h ▸ decode_encode hwf⟩

/-- Settles O5: each word is the encoding of its command (`decode_encode`). -/
theorem wordsOfTheSpecDecode : Obligations.WordsOfTheSpecDecode :=
  ⟨decode_encode (i := .nop) rfl, decode_encode (i := .setd 16) rfl,
    decode_encode (i := .setlen 500) rfl, decode_encode (i := .setclen 18) rfl,
    decode_encode (i := .flip 0x12) rfl, decode_encode (i := .clrerr) rfl,
    decode_encode (i := .encPb) rfl, decode_encode (i := .encPm) rfl,
    decode_encode (i := .chkPb 2) rfl, decode_encode (i := .chkPm 3) rfl,
    decode_encode (i := .chkallPb) rfl, decode_encode (i := .chkallPm) rfl⟩

/-! ### The rows of the opcode map -/

/-- The row of a command without an operand masks nothing: it holds the command's one word (R54). -/
theorem fullRow_iff {w : Word} (i : Instr) (hwf : i.wf = true) :
    w &&& 0xFFFFFFFF#32 = encode i ↔ decode w = .ok i := by
  rw [show w &&& 0xFFFFFFFF#32 = w from BitVec.and_allOnes, decode_eq_ok_iff_encode hwf]

/-- The row of a command with an operand masks the immediate: a word lies in it exactly when it has
the row's opcode (R54). -/
theorem operandRow_iff_opcode {w : Word} {op : BitVec 8} :
    w &&& 0xFF000000#32 = op.setWidth 32 <<< 24 ↔ opcodeOf w = op := by
  rw [and_opcodeMask]
  refine ⟨fun h => ?_, fun h => h ▸ rfl⟩
  have hop (x : BitVec 8) : opcodeOf (x.setWidth 32 <<< 24) = x := by
    simpa [wordOf] using opcodeOf_wordOf x 0
  rw [← hop (opcodeOf w), h, hop]

/-- The same row, by the command of the word: `f` is the command as a function of its immediate
(R54). -/
theorem operandRow_iff {w : Word} (op : BitVec 8) (f : Nat → Instr) (hop : ∀ n, (f n).opcode = op)
    (himm : ∀ n, (f n).imm = n) :
    w &&& 0xFF000000#32 = op.setWidth 32 <<< 24 ↔ decode w = .ok (f (w.toNat % 2 ^ 24)) := by
  rw [operandRow_iff_opcode, decode_eq_ok_iff_fields, hop, himm, immOf_eq_mod]
  exact (and_iff_left rfl).symm

/-- Settles O3: six rows hold one word each and six hold the words of one opcode. -/
theorem opcodeMapDecidesTheCommand : Obligations.OpcodeMapDecidesTheCommand := fun _ =>
  ⟨fullRow_iff .nop rfl,
    operandRow_iff 0x01#8 .setd (fun _ => rfl) (fun _ => rfl),
    operandRow_iff 0x02#8 .setlen (fun _ => rfl) (fun _ => rfl),
    operandRow_iff 0x03#8 .setclen (fun _ => rfl) (fun _ => rfl),
    operandRow_iff 0x04#8 .flip (fun _ => rfl) (fun _ => rfl),
    fullRow_iff .clrerr rfl,
    fullRow_iff .encPb rfl,
    fullRow_iff .encPm rfl,
    operandRow_iff 0x20#8 .chkPb (fun _ => rfl) (fun _ => rfl),
    operandRow_iff 0x21#8 .chkPm (fun _ => rfl) (fun _ => rfl),
    fullRow_iff .chkallPb rfl,
    fullRow_iff .chkallPm rfl⟩

/-! ### The illegal words -/

/-- The fields of a word as the quotient and the remainder of its value (R51, R52). -/
theorem decode_eq_ok_iff_toNat {w : Word} {i : Instr} :
    decode w = .ok i ↔ w.toNat / 2 ^ 24 = i.opcode.toNat ∧ w.toNat % 2 ^ 24 = i.imm := by
  rw [decode_eq_ok_iff_fields, ← opcodeOf_toNat, ← immOf_eq_mod, BitVec.toNat_inj]

/-- The twelve opcodes, and the six of them that leave no choice of the immediate (R54, R55). -/
theorem exists_instr_iff {op imm : Nat} :
    (∃ i : Instr, op = i.opcode.toNat ∧ imm = i.imm) ↔
      op ∈ [0x00, 0x01, 0x02, 0x03, 0x04, 0x05, 0x10, 0x11, 0x20, 0x21, 0x30, 0x31] ∧
      (op ∈ [0x00, 0x05, 0x10, 0x11, 0x30, 0x31] → imm = 0) := by
  constructor
  · rintro ⟨i, rfl, rfl⟩
    cases i <;> simp [Instr.opcode, Instr.imm]
  · rintro ⟨hop, hz⟩
    simp only [List.mem_cons, List.not_mem_nil, or_false] at hop
    rcases hop with rfl | rfl | rfl | rfl | rfl | rfl | rfl | rfl | rfl | rfl | rfl | rfl
    · exact ⟨.nop, rfl, hz (by decide)⟩
    · exact ⟨.setd imm, rfl, rfl⟩
    · exact ⟨.setlen imm, rfl, rfl⟩
    · exact ⟨.setclen imm, rfl, rfl⟩
    · exact ⟨.flip imm, rfl, rfl⟩
    · exact ⟨.clrerr, rfl, hz (by decide)⟩
    · exact ⟨.encPb, rfl, hz (by decide)⟩
    · exact ⟨.encPm, rfl, hz (by decide)⟩
    · exact ⟨.chkPb imm, rfl, rfl⟩
    · exact ⟨.chkPm imm, rfl, rfl⟩
    · exact ⟨.chkallPb, rfl, hz (by decide)⟩
    · exact ⟨.chkallPm, rfl, hz (by decide)⟩

/-- A word is illegal exactly when it is no command (R56). -/
theorem exists_decode_error_iff {w : Word} :
    (∃ e, decode w = .error e) ↔ ¬ ∃ i, decode w = .ok i := by
  cases decode w <;> simp

/-- An illegal word, the engine not frozen, does the error entry in the step that takes it (R56). -/
theorem step_illegalWord {s : State} {rest : List HostStep} {w : Word}
    (hp : s.pending = .command w :: rest) (he : s.err = false) (hw : ∃ e, decode w = .error e) :
    ∃ t, step s = .next t ∧ Latched .illegalCommand w { s with pending := rest } t := by
  obtain ⟨e, hw⟩ := hw
  exact ⟨_, (step_cons hp).trans (commandWord_illegal (s := s.withPending rest) hw he),
    latched_raise .illegalCommand w (s.withPending rest)⟩

/-- The 256 opcodes as runs: the assigned ones, and between them the four reserved ranges (R56). -/
theorem range_256_eq_runs : List.range 256 =
    List.range' 0x00 6 ++ List.range' 0x06 10 ++ List.range' 0x10 2 ++ List.range' 0x12 14 ++
      List.range' 0x20 2 ++ List.range' 0x22 14 ++ List.range' 0x30 2 ++ List.range' 0x32 206 := by
  simp only [List.range_eq_range', List.range'_append_1 (s := 0)]

/-- A filter keeps a run whose every element it takes. -/
theorem filter_range'_eq_self {p : Nat → Bool} {a n : Nat} (h : ∀ i < n, p (a + i) = true) :
    (List.range' a n).filter p = List.range' a n :=
  List.filter_eq_self.2 fun x hx => by
    obtain ⟨i, hi, rfl⟩ := List.mem_range'.1 hx
    simpa using h i hi

/-- Settles O4: a word is illegal when its fields are no command's (`exists_instr_iff`), and it is
then rejected (`step_illegalWord`). -/
theorem reservedWordsRaiseIllegalCommand : Obligations.ReservedWordsRaiseIllegalCommand := by
  refine ⟨?_, rfl, fun w => ⟨?_, decode_eq_ok_iff_encode (i := .nop) rfl,
    fun s rest hp he => step_illegalWord hp he⟩⟩
  · rw [range_256_eq_runs]
    simp only [List.filter_append]
    rw [filter_range'_eq_self (a := 0x06), filter_range'_eq_self (a := 0x12),
      filter_range'_eq_self (a := 0x22), filter_range'_eq_self (a := 0x32)]
    · rfl
    all_goals exact fun i hi => by simp; omega
  · rw [exists_decode_error_iff]
    simp only [decode_eq_ok_iff_toNat]
    rw [exists_instr_iff, not_and_or, Classical.not_imp]

end Sys2Proof.Machine
end

section
/-! PROOFS. The layout of the parity-bit code (30_encoding.md R60, R61, R64; 40_pb_encode.md R70):
where each block begins and ends, in the sequence and in CODE. -/

namespace Sys2Proof.Machine

open Sys2Proof

/-! ### The blocks of the sequence -/

/-- A block has one place more than data bits, so `b` blocks begin `b` places behind their data. -/
theorem mul_eq_mul_pred_add {d : Nat} (hd : 2 ≤ d) (b : Nat) : b * d = b * (d - 1) + b := by
  obtain ⟨k, rfl⟩ : ∃ k, d = k + 1 := ⟨d - 1, by omega⟩
  exact Nat.mul_succ b k

/-- Block `b` ends behind its parity bit: at the next multiple of `d`, or at the end of the code when
it is the last block (R61). -/
theorem pbBlock_end {m : List Bit} {d b : Nat} (hd : 2 ≤ d) (hb : b < ceilDiv m.length (d - 1)) :
    min ((b + 1) * d) (pbEncode m d).length = b * d + (pbChunk m (d - 1) b).length + 1 := by
  have hk : 0 < d - 1 := by omega
  have hlo := (lt_ceilDiv hk).1 hb
  have hlast : ceilDiv m.length (d - 1) ≤ b + 1 ↔ m.length ≤ (b + 1) * (d - 1) := ceilDiv_le hk
  have hbegin := mul_eq_mul_pred_add hd b
  have hend := mul_eq_mul_pred_add hd (b + 1)
  rw [Nat.succ_mul] at hlast
  rw [Nat.succ_mul b (d - 1)] at hend
  rw [length_pbEncode m hd, length_pbChunk]
  omega

/-- A code of whole blocks and at most one shorter block has as many blocks as the message has chunks
(R64). -/
theorem ceilDiv_pbEncode {m : List Bit} {d : Nat} (hd : 2 ≤ d) :
    ceilDiv (pbEncode m d).length d = ceilDiv m.length (d - 1) := by
  refine eq_of_forall_lt_iff fun n => ?_
  have hchunk : n < ceilDiv m.length (d - 1) ↔ n * (d - 1) < m.length := lt_ceilDiv (by omega)
  have hbegin := mul_eq_mul_pred_add hd n
  rw [lt_ceilDiv (by omega), length_pbEncode m hd]
  omega

/-- Settles O48: block `n` ends where the slice of the reader ends (`pbBlock_end`), and it has the
same bits (`getD_pbEncode`). -/
theorem blocksReadBackAsWritten : Obligations.BlocksReadBackAsWritten := by
  intro m d hd
  refine ⟨length_pbEncode m hd, ceilDiv_pbEncode hd, fun n hn => ?_⟩
  have hend := pbBlock_end hd hn
  rw [Nat.succ_mul] at hend
  have hlen : (pbBlockAt (pbEncode m d) d n).length = (pbBlock (pbChunk m (d - 1) n)).length := by
    rw [pbBlockAt, length_slice, length_pbBlock]
    omega
  refine List.ext_getElem hlen fun i hi hi' => ?_
  rw [← List.getD_eq_getElem _ false hi, ← List.getD_eq_getElem _ false hi']
  rw [length_pbBlock] at hi'
  rw [pbBlockAt, getD_slice (by omega), getD_pbEncode hd hn hi']

/-! ### The blocks in CODE -/

theorem toNat_d (s : State) : s.d.toNat = s.dVal := rfl
theorem toNat_mlen (s : State) : s.mlen.toNat = s.mlenVal := rfl
theorem toNat_clen (s : State) : s.clen.toNat = s.clenVal := rfl

/-- A run of bits, address by address (00_scope.md R9). -/
theorem Memory.readRun_eq_map (m : Memory) (a n : Nat) :
    m.readRun a n = (List.range n).map fun i => m.read (a + i) :=
  List.ext_getElem (by simp) fun i hi hi' => by simp [Memory.getElem_readRun]

/-- What an `ENC.PB` without an error leaves: a legal D, CLEN the length of the code, and the code
from address 0 (40_pb_encode.md R71). -/
theorem exec_encPb_code {s t : State} (hs : s.Inv) (he : s.err = false)
    (h : exec .encPb s = .next t) (ht : t.err = false) :
    2 ≤ s.dVal ∧ t.clenVal = (pbEncode (s.msg.readRun 0 s.mlenVal) s.dVal).length ∧
      ∀ a < t.clenVal,
        t.code.read a = (pbEncode (s.msg.readRun 0 s.mlenVal) s.dVal).getD a false := by
  obtain ⟨-, -, hc, u, hu, rfl⟩ := performed_of_no_error (by decide) he ht h
  obtain ⟨hd, -, hcap⟩ := encPbCheck_none hc
  obtain rfl := Except.ok.inj ((encPbEffect_ok hd hs.mlenFits hcap).symm.trans hu)
  have hcfg := hs.configLegal.2.2
  have hlen : (pbEncode (s.msg.readRun 0 s.mlenVal) s.dVal).length = encPbLength s := by
    rw [length_pbEncode _ hd, Memory.length_readRun, encPbLength]
  have hclen : (countReg (encPbLength s)).toNat = encPbLength s := toNat_countReg (by omega)
  refine ⟨hd, hclen.trans hlen.symm, fun a ha => ?_⟩
  change a < (countReg (encPbLength s)).toNat at ha
  change (s.code.writeRun 0 _).read a = _
  rw [Memory.read_writeRun hs.codeWf, if_pos (by omega), Nat.sub_zero]

/-- Bit `i` of block `b` in CODE, parity bit included (R61). -/
theorem read_encPb_block {s t : State} (hs : s.Inv) (he : s.err = false)
    (h : exec .encPb s = .next t) (ht : t.err = false) {b i : Nat}
    (hb : b < ceilDiv s.mlenVal (s.dVal - 1))
    (hi : i < (pbChunk (s.msg.readRun 0 s.mlenVal) (s.dVal - 1) b).length + 1) :
    t.code.read (b * s.dVal + i) =
      (pbBlock (pbChunk (s.msg.readRun 0 s.mlenVal) (s.dVal - 1) b)).getD i false := by
  obtain ⟨hd, hclen, hcode⟩ := exec_encPb_code hs he h ht
  replace hb : b < ceilDiv (s.msg.readRun 0 s.mlenVal).length (s.dVal - 1) := by
    rwa [Memory.length_readRun]
  have hend := pbBlock_end hd hb
  rw [hcode _ (by omega), getD_pbEncode hd hb hi]

/-- Settles O20: message bit `j` is a data bit of its block, and the last bit of a block is the parity
of the block's run of the message. -/
theorem encPbLaysOutBlocks : Obligations.EncPbLaysOutBlocks := by
  intro s t hs he h ht
  obtain ⟨hd, hclen, -⟩ := exec_encPb_code hs he h ht
  have hk : 0 < s.dVal - 1 := by omega
  simp only [toNat_d, toNat_mlen, toNat_clen]
  constructor
  · intro j hj
    have hdiv := Nat.div_add_mod' j (s.dVal - 1)
    have hmod := Nat.mod_lt j hk
    have hi : j % (s.dVal - 1) <
        (pbChunk (s.msg.readRun 0 s.mlenVal) (s.dVal - 1) (j / (s.dVal - 1))).length := by
      rw [length_pbChunk, Memory.length_readRun]
      omega
    rw [read_encPb_block hs he h ht ((lt_ceilDiv hk).2 (by omega)) (by omega),
      getD_pbBlock_data hi, getD_pbChunk hi, hdiv, Memory.getD_readRun _ _ hj, Nat.zero_add]
  · intro b hb
    have hend := pbBlock_end (m := s.msg.readRun 0 s.mlenVal) hd (by rwa [Memory.length_readRun])
    rw [hclen, hend, Nat.add_sub_cancel, read_encPb_block hs he h ht hb (Nat.lt_succ_self _),
      getD_pbBlock_parity, oddOnes_eq, pbChunk, Memory.length_readRun,
      slice_readRun _ (Nat.min_le_right ..), Memory.readRun_eq_map, Nat.succ_mul]

end Sys2Proof.Machine
end

section
/-! PROOFS. The layout of the parity-matrix code in CODE (30_encoding.md R62, R63; 41_pm_encode.md
R80 to R82). -/

namespace Sys2Proof.Machine

open Sys2Proof

/-! ### The cells of a matrix -/

/-- Parity by counting sees the counted places only. -/
theorem oddOnes_congr {n : Nat} {f g : Nat → Bit} (h : ∀ i < n, f i = g i) :
    oddOnes n f = oddOnes n g := by
  rw [oddOnes_eq, oddOnes_eq, par_congr h]

/-- A data row holds its data bits (41_pm_encode.md R81). -/
theorem pmMatrix_data {dim r c : Nat} (x : List Bit) (hr : r < dim - 1) (hc : c < dim - 1) :
    pmMatrix dim x r c = x.getD (r * (dim - 1) + c) false := by
  simp [pmMatrix, dataRows, dataGrid, hr, hc]

/-- Behind its data bits a data row holds their parity (41_pm_encode.md R81). -/
theorem pmMatrix_rowParity {dim r : Nat} (x : List Bit) (hr : r < dim - 1) :
    pmMatrix dim x r (dim - 1) = oddOnes (dim - 1) fun c => pmMatrix dim x r c := by
  rw [oddOnes_congr fun _ hc => pmMatrix_data x hr hc, oddOnes_eq]
  simp [pmMatrix, dataRows, hr, rowPar, dataGrid]

/-- The parity row holds the parity of every column (41_pm_encode.md R81). -/
theorem pmMatrix_colParity {dim : Nat} (x : List Bit) (c : Nat) :
    pmMatrix dim x (dim - 1) c = oddOnes (dim - 1) fun r => pmMatrix dim x r c := by
  have hrows : ∀ r < dim - 1, pmMatrix dim x r c = dataRows dim x r c := fun _ hr => if_pos hr
  rw [oddOnes_congr hrows, oddOnes_eq]
  exact if_neg (Nat.lt_irrefl _)

/-! ### The matrices in CODE -/

/-- What an `ENC.PM` without an error leaves: a legal D, and the code from address 0
(41_pm_encode.md R83). -/
theorem exec_encPm_code {s t : State} (hs : s.Inv) (he : s.err = false)
    (h : exec .encPm s = .next t) (ht : t.err = false) :
    pmLegal s.dVal ∧ ∀ a < encPmLength s,
      t.code.read a = (pmEncode (s.msg.readRun 0 s.mlenVal) s.dVal).getD a false := by
  obtain ⟨-, -, hc, u, hu, rfl⟩ := performed_of_no_error (by decide) he ht h
  obtain ⟨hd, -, hcap⟩ := encPmCheck_none hc
  obtain rfl := Except.ok.inj ((encPmEffect_ok hd hs.mlenFits hcap).symm.trans hu)
  have hlen : (pmEncode (s.msg.readRun 0 s.mlenVal) s.dVal).length = encPmLength s := by
    rw [length_pmEncode, hd.1, Memory.length_readRun, encPmLength, State.dim]
  refine ⟨hd, fun a ha => ?_⟩
  change (s.code.writeRun 0 _).read a = _
  rw [Memory.read_writeRun hs.codeWf, if_pos (by omega), Nat.sub_zero]

/-- The data bits of matrix `n` of the message of `s`, padding included (41_pm_encode.md R80, R82). -/
def matrixBits (s : State) (n : Nat) : List Bit :=
  pmData (pad (s.msg.readRun 0 s.mlenVal) (matrixData s.dim)) (matrixData s.dim) n

/-- The data bits are the bits of the message in order, then zeros (41_pm_encode.md R80). -/
theorem getD_matrixBits {s : State} {n i : Nat} (hi : i < matrixData s.dim) :
    (matrixBits s n).getD i false =
      if n * matrixData s.dim + i < s.mlenVal then s.msg.read (n * matrixData s.dim + i)
      else false := by
  rw [matrixBits, getD_pmData hi]
  split
  · next hlt => rw [Memory.getD_readRun _ _ hlt, Nat.zero_add]
  · next hge => rw [List.getD_eq_default _ _ (by rw [Memory.length_readRun]; omega)]

/-- Cell `(r, c)` of matrix `n` in CODE (30_encoding.md R63). -/
theorem read_encPm_cell {s t : State} (hs : s.Inv) (he : s.err = false)
    (h : exec .encPm s = .next t) (ht : t.err = false) {n r c : Nat}
    (hn : n < ceilDiv s.mlenVal (matrixData s.dim)) (hr : r < s.dim) (hc : c < s.dim) :
    t.code.read (n * s.dVal + r * s.dim + c) = pmMatrix s.dim (matrixBits s n) r c := by
  obtain ⟨⟨hsq, -⟩, hcode⟩ := exec_encPm_code hs he h ht
  have hmat := Nat.mul_le_mul_right s.dVal (Nat.succ_le_of_lt hn)
  rw [Nat.succ_mul] at hmat
  have hcell := cell_lt hr hc
  have hdim : s.dim * s.dim = s.dVal := hsq
  rw [Nat.add_assoc, hcode _ (Nat.lt_of_lt_of_le (by omega) hmat)]
  exact getD_pmEncode hsq (by rwa [Memory.length_readRun]) hr hc false

/-- Settles O22: every cell read from CODE is a cell of the encoded matrix (`read_encPm_cell`). -/
theorem encPmLaysOutMatrices : Obligations.EncPmLaysOutMatrices := by
  intro s t hs he h ht dim hdim n hn
  obtain ⟨⟨-, h2⟩, -⟩ := exec_encPm_code hs he h ht
  obtain rfl : s.dim = dim := (congrArg isqrt hdim).trans (isqrt_square dim)
  have hside : 2 ≤ s.dim := h2
  simp only [toNat_d, toNat_mlen]
  have cell {r c : Nat} (hr : r < s.dim) (hc : c < s.dim) :
      t.code.read (n * s.dVal + r * s.dim + c) = pmMatrix s.dim (matrixBits s n) r c :=
    read_encPm_cell hs he h ht hn hr hc
  refine ⟨fun r hr c hc => ?_, fun r hr => ?_, fun c hc => ?_⟩
  · rw [cell (by omega) (by omega), pmMatrix_data _ hr hc, getD_matrixBits (dataIndex_lt hr hc),
      ← Nat.add_assoc]
    rfl
  · rw [cell (by omega) (by omega), pmMatrix_rowParity _ hr]
    exact oddOnes_congr fun c hc => (cell (by omega) (by omega)).symm
  · rw [cell (by omega) hc, pmMatrix_colParity]
    exact oddOnes_congr fun r hr => (cell (by omega) hc).symm

end Sys2Proof.Machine
end

section
/-! PROOFS. The encoder and the validator of the parity-bit scheme on the hardware (40_pb_encode.md
R71, R72): what `ENC.PB` does when its checks pass, which error it raises otherwise, and that every
block it writes is valid. -/

namespace Sys2Proof.Machine

open Sys2Proof

/-! ### `ENC.PB` without an error -/

theorem encPbCheck_ok {s : State} (hd : 2 ≤ s.dVal) (hm : 0 < s.mlenVal)
    (hc : encPbLength s ≤ s.config.codeCap) : encPbCheck s = none := by
  unfold encPbCheck
  rw [if_neg (by omega), if_neg (by omega), if_neg (by omega)]

/-- The length that `ENC.PB` gives CLEN is that of the code it writes (10_state.md R15). -/
theorem length_pbEncode_msg {s : State} (hd : 2 ≤ s.dVal) :
    (pbEncode (s.msg.readRun 0 s.mlenVal) s.dVal).length = encPbLength s := by
  rw [length_pbEncode _ hd, Memory.length_readRun, encPbLength]

/-- Settles O19: the checks pass, so `ENC.PB` has its effect (`encPbEffect_ok`): one run of writes
from address 0, whose length CLEN gets. -/
theorem encPbWritesTheCode : Obligations.EncPbWritesTheCode := by
  intro s hs he hd hm hcap
  change encPbLength s ≤ s.config.codeCap at hcap
  have hcfg := hs.configLegal.2.2
  have hclen : (countReg (encPbLength s)).toNat = encPbLength s := toNat_countReg (by omega)
  have hlen := length_pbEncode_msg hd
  refine ⟨_, exec_done (by decide) he (encPbCheck_ok hd hm hcap)
    (encPbEffect_ok hd hs.mlenFits hcap), rfl, hclen, ?_, fun a ha => ?_⟩
  · simp only [advance_code, advance_clen]
    rw [hclen, ← hlen]
    exact Memory.readRun_writeRun hs.codeWf 0 _
  · simp only [advance_code, advance_clen] at ha ⊢
    rw [Memory.read_writeRun hs.codeWf, if_neg (by omega)]

/-! ### `ENC.PB` with an error -/

/-- The word of `ENC.PB` (30_encoding.md R54), which an error puts in ERRCMD. -/
theorem encode_encPb : encode .encPb = 0x10000000#32 := by decide

/-- The error entry of `ENC.PB` (60_exceptions.md R131). -/
theorem exec_encPb_raise {s : State} (he : s.err = false) {e : ErrorCode}
    (hc : encPbCheck s = some e) : ∃ t, exec .encPb s = .next t ∧ Latched e 0x10000000#32 s t :=
  encode_encPb ▸ exec_raise (by decide) he hc

/-- Settles O23: in each case the checks before the failing one pass (60_exceptions.md R138). -/
theorem encPbRaisesItsFirstCause : Obligations.EncPbRaisesItsFirstCause := by
  intro s he
  simp only [toNat_d, toNat_mlen]
  refine ⟨fun hd => ?_, fun hd hm => ?_, fun hd hm hcap => ?_⟩ <;> apply exec_encPb_raise he
  · exact if_pos hd
  · rw [encPbCheck, if_neg (by omega), if_pos hm]
  · rw [encPbCheck, if_neg (by omega), if_neg (by omega)]
    exact if_pos hcap

/-! ### The parity-bit checks without an error -/

theorem chkPbCheck_ok {n : Nat} {s : State} (hd : 2 ≤ s.dVal) (hc : 0 < s.clenVal)
    (hn : n < s.blocks) : chkPbCheck n s = none := by
  unfold chkPbCheck
  rw [if_neg (by omega), if_neg (by omega), if_neg (by omega)]

theorem chkallPbCheck_ok {s : State} (hd : 2 ≤ s.dVal) (hc : 0 < s.clenVal) :
    chkallPbCheck s = none := by
  unfold chkallPbCheck
  rw [if_neg (by omega), if_neg (by omega)]

/-- The verdict of a check command is all it writes in STATUS (10_state.md R17, R18). -/
theorem verdict_setVerdict (v k : Bool) (s : State) : Verdict v k s (s.setVerdict v k).advance :=
  ⟨by simp, by simp, by simp, by simp, reserved_statusWithVerdict ..⟩

/-- `CHK.PB n` writes the verdict of block `n` of the code (42_pb_check.md R91). -/
theorem exec_chkPb_ok {n : Nat} {s : State} (hs : s.Inv) (he : s.err = false) (hd : 2 ≤ s.dVal)
    (hc : 0 < s.clenVal) (hn : n < s.blocks) :
    exec (.chkPb n) s = .next (s.setVerdict
      (pbValid (pbBlockAt (s.code.readRun 0 s.clenVal) s.dVal n)) false).advance := by
  have hlo : n * s.dVal < s.clenVal := (lt_ceilDiv (by omega)).1 hn
  rw [pbBlockAt, Memory.length_readRun, slice_readRun _ (Nat.min_le_right ..)]
  exact exec_done (by simp) he (chkPbCheck_ok hd hc hn) (chkPbEffect_ok hs.clenFits hlo.le)

/-- `CHKALL.PB` writes the conjunction of the verdicts of all blocks (42_pb_check.md R93). -/
theorem exec_chkallPb_ok {s : State} (hs : s.Inv) (he : s.err = false) (hd : 2 ≤ s.dVal)
    (hc : 0 < s.clenVal) :
    exec .chkallPb s = .next (s.setVerdict ((List.range s.blocks).all fun n =>
      pbValid (pbBlockAt (s.code.readRun 0 s.clenVal) s.dVal n)) false).advance :=
  exec_done (by decide) he (chkallPbCheck_ok hd hc) (chkallPbEffect_ok hs.clenFits)

/-! ### The blocks of an encoded message -/

/-- A block as the encoder writes it is valid (42_pb_check.md R90). -/
theorem pbValid_pbBlock (c : List Bit) : pbValid (pbBlock c) = true := by
  rw [pbBlock, pbValid_concat, beq_self_eq_true]

/-- Every block that a reader of the code finds is valid (30_encoding.md R64). -/
theorem pbValid_pbBlockAt_pbEncode {m : List Bit} {d n : Nat} (hd : 2 ≤ d)
    (hn : n < ceilDiv (pbEncode m d).length d) : pbValid (pbBlockAt (pbEncode m d) d n) = true := by
  obtain ⟨-, hblocks, hread⟩ := blocksReadBackAsWritten m d hd
  rw [hread n (hblocks ▸ hn), pbValid_pbBlock]

/-- What an `ENC.PB` without an error leaves for a check: D as it was, and a code that is not empty
(40_pb_encode.md R71). -/
theorem exec_encPb_d_clen {s t : State} (hs : s.Inv) (he : s.err = false)
    (h : exec .encPb s = .next t) (ht : t.err = false) : t.dVal = s.dVal ∧ 0 < t.clenVal := by
  obtain ⟨hd, hclen, -⟩ := exec_encPb_code hs he h ht
  obtain ⟨-, -, hc, u, hu, rfl⟩ := performed_of_no_error (by decide) he ht h
  obtain ⟨-, hm, -⟩ := encPbCheck_none hc
  refine ⟨by rw [effectOf_frame hu]; rfl, ?_⟩
  rw [hclen, length_pbEncode_msg hd, encPbLength]
  omega

/-- CODE below CLEN, read whole, is the encoding of the message (40_pb_encode.md R71). -/
theorem readRun_encPb {s t : State} (hs : s.Inv) (he : s.err = false)
    (h : exec .encPb s = .next t) (ht : t.err = false) :
    t.code.readRun 0 t.clenVal = pbEncode (s.msg.readRun 0 s.mlenVal) s.dVal := by
  obtain ⟨-, hclen, hcode⟩ := exec_encPb_code hs he h ht
  refine List.ext_getElem (by rw [Memory.length_readRun, hclen]) fun a ha ha' => ?_
  rw [Memory.getElem_readRun, Nat.zero_add, hcode a (by rwa [hclen]), List.getD_eq_getElem]

/-- Every block that a check finds in CODE after an `ENC.PB` without an error is valid
(40_pb_encode.md R72). -/
theorem pbValid_encPb_block {s t : State} (hs : s.Inv) (he : s.err = false)
    (h : exec .encPb s = .next t) (ht : t.err = false) {n : Nat} (hn : n < t.blocks) :
    pbValid (pbBlockAt (t.code.readRun 0 t.clenVal) t.dVal n) = true := by
  obtain ⟨hd, hclen, -⟩ := exec_encPb_code hs he h ht
  obtain ⟨hdt, -⟩ := exec_encPb_d_clen hs he h ht
  rw [State.blocks, hdt, hclen] at hn
  rw [readRun_encPb hs he h ht, hdt]
  exact pbValid_pbBlockAt_pbEncode hd hn

/-- Settles O49: no check fails after the encoder, and the verdicts that `CHKALL.PB` and `CHK.PB n`
write are those of valid blocks (`pbValid_encPb_block`). -/
theorem encodedBlocksPass : Obligations.EncodedBlocksPass := by
  intro s t hs he h ht
  obtain ⟨hd, -, -⟩ := exec_encPb_code hs he h ht
  obtain ⟨hdt, hpos⟩ := exec_encPb_d_clen hs he h ht
  have hi := hs.exec h
  replace hd : 2 ≤ t.dVal := by rwa [hdt]
  have hvalid {n : Nat} (hn : n < t.blocks) := pbValid_encPb_block hs he h ht hn
  refine ⟨⟨_, exec_chkallPb_ok hi ht hd hpos, ?_⟩, fun n hn =>
    ⟨_, exec_chkPb_ok hi ht hd hpos hn, ?_⟩⟩
  · rw [List.all_eq_true.2 fun n hn => hvalid (List.mem_range.1 hn)]
    exact verdict_setVerdict ..
  · rw [hvalid hn]
    exact verdict_setVerdict ..

end Sys2Proof.Machine
end

section
/-! PROOFS. Even rows and columns of an encoded matrix (41_pm_encode.md R84), and what the syndromes of
43_pm_check.md R101 to R103 say of a matrix with even rows. -/

namespace Sys2Proof.Machine

open Sys2Proof

/-! ### Parity by counting -/

/-- A run whose last bit is the parity of the bits before it has an even number of ones. -/
theorem oddOnes_eq_false_of_last {n : Nat} {f : Nat → Bit} (hn : 0 < n)
    (h : f (n - 1) = oddOnes (n - 1) f) : oddOnes n f = false := by
  obtain ⟨k, rfl⟩ : ∃ k, n = k + 1 := ⟨n - 1, by omega⟩
  rw [Nat.add_sub_cancel, oddOnes_eq] at h
  rw [oddOnes_eq, par_range_succ, h, Bool.xor_self]

/-- The parity of the row parities is the parity of the column parities. -/
theorem oddOnes_comm (m n : Nat) (g : Grid) :
    (oddOnes m fun r => oddOnes n fun c => g r c) = oddOnes n fun c => oddOnes m fun r => g r c := by
  simp only [oddOnes_eq]
  exact par_map_comm ..

/-! ### The rows and columns of an encoded matrix -/

/-- The last cell of every row, the parity row included, is the parity of the cells before it: the
corner adds up all data bits, by rows as by columns (41_pm_encode.md R84). -/
theorem pmMatrix_lastOfRow {dim r : Nat} (x : List Bit) (hr : r < dim) :
    pmMatrix dim x r (dim - 1) = oddOnes (dim - 1) fun c => pmMatrix dim x r c := by
  by_cases hdata : r < dim - 1
  · exact pmMatrix_rowParity x hdata
  · obtain rfl : r = dim - 1 := by omega
    calc pmMatrix dim x (dim - 1) (dim - 1)
        = oddOnes (dim - 1) fun r => pmMatrix dim x r (dim - 1) := pmMatrix_colParity x _
      _ = oddOnes (dim - 1) fun r => oddOnes (dim - 1) fun c => pmMatrix dim x r c :=
          oddOnes_congr fun _ hr => pmMatrix_rowParity x hr
      _ = oddOnes (dim - 1) fun c => oddOnes (dim - 1) fun r => pmMatrix dim x r c :=
          oddOnes_comm ..
      _ = oddOnes (dim - 1) fun c => pmMatrix dim x (dim - 1) c :=
          oddOnes_congr fun c _ => (pmMatrix_colParity x c).symm

theorem oddOnes_pmMatrix_row {dim r : Nat} (x : List Bit) (hr : r < dim) :
    (oddOnes dim fun c => pmMatrix dim x r c) = false :=
  oddOnes_eq_false_of_last (by omega) (pmMatrix_lastOfRow x hr)

theorem oddOnes_pmMatrix_col {dim : Nat} (x : List Bit) (hd : 0 < dim) (c : Nat) :
    (oddOnes dim fun r => pmMatrix dim x r c) = false :=
  oddOnes_eq_false_of_last hd (pmMatrix_colParity x c)

/-- Settles O50: a row or column is even because its last cell is the parity of the others, and the
corner is the last cell both of its column and of its row. -/
theorem encodedMatrixHasEvenRowsAndColumns : Obligations.EncodedMatrixHasEvenRowsAndColumns :=
  fun _ x hd => ⟨fun _ hr => oddOnes_pmMatrix_row x hr,
    fun c _ => oddOnes_pmMatrix_col x (by omega) c, pmMatrix_colParity x _,
    pmMatrix_lastOfRow x (by omega)⟩

/-! ### The syndromes -/

/-- A row is mismatched when it has an odd number of ones, its parity bit counted (43_pm_check.md
R101). -/
theorem rowBad_eq_oddOnes {dim : Nat} (hd : 0 < dim) (g : Grid) (r : Nat) :
    rowBad dim g r = oddOnes dim fun c => g r c := by
  obtain ⟨k, rfl⟩ : ∃ k, dim = k + 1 := ⟨dim - 1, by omega⟩
  rw [oddOnes_eq, par_range_succ, rowBad, rowPar, Nat.add_sub_cancel, Bool.bne_eq_xor]

/-- A grid whose data rows are even has no candidate (43_pm_check.md R102, R103). -/
theorem pmCheck_of_even_rows {dim : Nat} {g : Grid}
    (h : ∀ r < dim - 1, (oddOnes dim fun c => g r c) = false) :
    pmCheck dim g = { verdict := true, flip := none, count := 0 } := by
  have hrows : badRows dim g = [] := List.filter_eq_nil_iff.2 fun r hr => by
    have hlt := List.mem_range.1 hr
    rw [rowBad_eq_oddOnes (by omega), h r hlt]
    exact Bool.false_ne_true
  rw [pmCheck, candidates, hrows]
  rfl

/-- The check of an encoded matrix (41_pm_encode.md R84). -/
theorem pmCheck_pmMatrix (dim : Nat) (x : List Bit) :
    pmCheck dim (pmMatrix dim x) = { verdict := true, flip := none, count := 0 } :=
  pmCheck_of_even_rows fun _ hr => oddOnes_pmMatrix_row x (by omega)

end Sys2Proof.Machine
end

section
/-! PROOFS. `ENC.PM` on the hardware (41_pm_encode.md R83, R84): what it does when its checks pass, which
error it raises otherwise, and that every matrix check passes after it. -/

namespace Sys2Proof.Machine

open Sys2Proof

/-! ### `ENC.PM` without an error -/

theorem encPmCheck_ok {s : State} (hd : pmLegal s.dVal) (hm : 0 < s.mlenVal)
    (hc : encPmLength s ≤ s.config.codeCap) : encPmCheck s = none := by
  unfold encPmCheck
  rw [if_neg (not_not.2 hd), if_neg (by omega), if_neg (by omega)]

/-- The length that `ENC.PM` gives CLEN is that of the code it writes (10_state.md R15). -/
theorem length_pmEncode_msg {s : State} (hd : pmLegal s.dVal) :
    (pmEncode (s.msg.readRun 0 s.mlenVal) s.dVal).length = encPmLength s := by
  rw [length_pmEncode, hd.1, Memory.length_readRun, encPmLength, State.dim]

/-- Settles O21: the checks pass, so `ENC.PM` has its effect (`encPmEffect_ok`): one run of writes
from address 0, whose length CLEN gets. -/
theorem encPmWritesTheCode : Obligations.EncPmWritesTheCode := by
  intro s hs he dim h2 hdim hm hcap
  obtain ⟨hd, hroot⟩ := pmLegal_square h2 hdim
  obtain rfl : s.dim = dim := hroot
  change encPmLength s ≤ s.config.codeCap at hcap
  obtain ⟨-, -, hcfg⟩ := hs.configLegal
  have hclen : (countReg (encPmLength s)).toNat = encPmLength s := toNat_countReg (by omega)
  have hlen := length_pmEncode_msg hd
  refine ⟨_, exec_done (by decide) he (encPmCheck_ok hd hm hcap)
    (encPmEffect_ok hd hs.mlenFits hcap), rfl, hclen, ?_, fun a ha => ?_⟩
  · simp only [advance_code, advance_clen]
    rw [hclen, ← hlen]
    exact Memory.readRun_writeRun hs.codeWf 0 _
  · simp only [advance_code, advance_clen] at ha ⊢
    rw [Memory.read_writeRun hs.codeWf, if_neg (by omega)]

/-! ### `ENC.PM` with an error -/

/-- The word of `ENC.PM` (30_encoding.md R54), which an error puts in ERRCMD. -/
theorem encode_encPm : encode .encPm = 0x11000000#32 := by decide

/-- The error entry of `ENC.PM` (60_exceptions.md R131). -/
theorem exec_encPm_raise {s : State} (he : s.err = false) {e : ErrorCode}
    (hc : encPmCheck s = some e) : ∃ t, exec .encPm s = .next t ∧ Latched e 0x11000000#32 s t :=
  encode_encPm ▸ exec_raise (by decide) he hc

/-- Settles O24: D is legal exactly when it is a square as the statement says (`pmLegal_iff`), and in
each case the checks before the failing one pass (60_exceptions.md R138). -/
theorem encPmRaisesItsFirstCause : Obligations.EncPmRaisesItsFirstCause := by
  intro s he
  simp only [toNat_d, toNat_mlen]
  refine ⟨fun hd => exec_encPm_raise he (if_pos fun hl => hd (pmLegal_iff.1 hl)),
    fun dim h2 hdim => ?_⟩
  obtain ⟨hd, hroot⟩ := pmLegal_square h2 hdim.symm
  obtain rfl : s.dim = dim := hroot
  refine ⟨fun hm => ?_, fun hm hcap => ?_⟩ <;> apply exec_encPm_raise he
  · rw [encPmCheck, if_neg (not_not.2 hd), if_pos hm]
  · rw [encPmCheck, if_neg (not_not.2 hd), if_neg (by omega)]
    exact if_pos hcap

/-! ### A code without a candidate -/

/-- The state after a matrix check that finds no candidate (43_pm_check.md R104). -/
def State.passed (s : State) : State := { s with ncand := 0 }.setVerdict true false

/-- A second such check writes what the first one wrote. -/
@[simp] theorem passed_passed (s : State) : s.passed.passed = s.passed := by
  simp [State.passed, State.setVerdict]

theorem verdict_passed (s : State) : Verdict true false s s.passed.advance :=
  { verdict_setVerdict true false s with }

/-- Every matrix of the code is a square that lies in CODE and has no candidate. -/
structure State.NoCandidate (s : State) : Prop where
  square   : s.dim * s.dim = s.dVal
  clenFits : s.clenVal ≤ s.config.codeCap
  clean    : ∀ n < s.matrices,
    pmCheck s.dim (matrixGrid s n) = { verdict := true, flip := none, count := 0 }

/-- A check that passes leaves the code and its frame alone. -/
theorem State.NoCandidate.passed {s : State} (h : s.NoCandidate) : s.passed.NoCandidate := { h with }

/-- The check of one matrix without a candidate (43_pm_check.md R104). -/
theorem State.NoCandidate.checkMatrix {s : State} (h : s.NoCandidate) {n : Nat}
    (hn : n < s.matrices) : checkMatrix n s = .ok s.passed := by
  rw [checkMatrix_ok h.square (Nat.le_trans (matrix_in_code hn) h.clenFits), h.clean n hn]
  rfl

/-- The loop goes on from a matrix without a candidate with VALID and CORR as they were. -/
theorem State.NoCandidate.checkMatrices_cons {s : State} (h : s.NoCandidate) {n : Nat}
    (hn : n < s.matrices) (ns : List Nat) :
    checkMatrices (n :: ns) true false s = checkMatrices ns true false s.passed := by
  rw [checkMatrices, h.checkMatrix hn]
  change checkMatrices ns (true && s.passed.valid) (false || s.passed.corr) s.passed = _
  simp [State.passed]

/-- The loop over at least one matrix, none with a candidate (43_pm_check.md R105). -/
theorem State.NoCandidate.checkMatrices {ns : List Nat} {n : Nat} {s : State} (h : s.NoCandidate)
    (hns : ∀ m ∈ n :: ns, m < s.matrices) :
    checkMatrices (n :: ns) true false s = .ok s.passed := by
  induction ns generalizing n s with
  | nil =>
    rw [h.checkMatrices_cons (hns n (by simp)), Machine.checkMatrices]
    simp [State.passed, State.setVerdict]
  | cons m ns ih =>
    obtain ⟨hn, hrest⟩ := List.forall_mem_cons.1 hns
    rw [h.checkMatrices_cons hn, ih h.passed hrest, passed_passed]

/-- `CHK.PM n` on a code without a candidate (43_pm_check.md R104). -/
theorem State.NoCandidate.exec_chkPm {s : State} (h : s.NoCandidate) (he : s.err = false) {n : Nat}
    (hc : chkPmCheck n s = none) : exec (.chkPm n) s = .next s.passed.advance := by
  obtain ⟨-, -, -, hn⟩ := chkPmCheck_none hc
  exact exec_done (by simp) he hc (h.checkMatrix hn)

/-- `CHKALL.PM` on a code without a candidate (43_pm_check.md R105). -/
theorem State.NoCandidate.exec_chkallPm {s : State} (h : s.NoCandidate) (he : s.err = false)
    (hc : chkallPmCheck s = none) (hn : 0 < s.matrices) :
    exec .chkallPm s = .next s.passed.advance := by
  have hloop : chkallPmEffect s = .ok s.passed := by
    rw [chkallPmEffect]
    cases hl : List.range s.matrices with
    | nil => exact absurd (List.range_eq_nil.1 hl) (by omega)
    | cons n ns => exact h.checkMatrices fun m hm => List.mem_range.1 (hl ▸ hm)
  exact exec_done (by decide) he hc hloop

/-! ### The matrices of an encoded message -/

theorem pos_of_pmLegal {d : Nat} (h : pmLegal d) : 0 < d := by
  obtain ⟨dim, h2, rfl⟩ := pmLegal_iff.1 h
  exact Nat.mul_pos (by omega) (by omega)

/-- What an `ENC.PM` without an error leaves for a check: D as it was, and a code of whole matrices, at
least one (41_pm_encode.md R83). -/
theorem exec_encPm_d_clen {s t : State} (hs : s.Inv) (he : s.err = false)
    (h : exec .encPm s = .next t) (ht : t.err = false) :
    t.dVal = s.dVal ∧ t.clenVal = encPmLength s ∧ 0 < ceilDiv s.mlenVal (matrixData s.dim) := by
  obtain ⟨-, -, hc, u, hu, rfl⟩ := performed_of_no_error (by decide) he ht h
  obtain ⟨hd, hm, hcap⟩ := encPmCheck_none hc
  obtain rfl := Except.ok.inj ((encPmEffect_ok hd hs.mlenFits hcap).symm.trans hu)
  obtain ⟨-, -, hcfg⟩ := hs.configLegal
  have hside : 0 < s.dim - 1 := Nat.sub_pos_of_lt hd.2
  refine ⟨rfl, toNat_countReg (by omega), (lt_ceilDiv (Nat.mul_pos hside hside)).2 ?_⟩
  rwa [Nat.zero_mul]

/-- The code has as many matrices as the message has data regions (41_pm_encode.md R82). -/
theorem matrices_encPm {s t : State} (hs : s.Inv) (he : s.err = false)
    (h : exec .encPm s = .next t) (ht : t.err = false) :
    t.matrices = ceilDiv s.mlenVal (matrixData s.dim) := by
  obtain ⟨hd, -⟩ := exec_encPm_code hs he h ht
  obtain ⟨hdt, hclen, -⟩ := exec_encPm_d_clen hs he h ht
  rw [State.matrices, hdt, hclen, encPmLength, Nat.mul_div_cancel _ (pos_of_pmLegal hd)]

/-- No matrix in CODE has a candidate after an `ENC.PM` without an error (41_pm_encode.md R84). -/
theorem noCandidate_encPm {s t : State} (hs : s.Inv) (he : s.err = false)
    (h : exec .encPm s = .next t) (ht : t.err = false) : t.NoCandidate := by
  obtain ⟨hd, -⟩ := exec_encPm_code hs he h ht
  obtain ⟨hdt, -, -⟩ := exec_encPm_d_clen hs he h ht
  have hdim : t.dim = s.dim := congrArg isqrt hdt
  refine ⟨by rw [hdim, hdt, State.dim, hd.1], (hs.exec h).clenFits, fun n hn => ?_⟩
  rw [matrices_encPm hs he h ht] at hn
  rw [hdim, ← pmCheck_pmMatrix s.dim (matrixBits s n)]
  refine pmCheck_congr fun r hr c hc => ?_
  rw [matrixGrid, hdt, hdim, ← Nat.add_assoc, read_encPm_cell hs he h ht hn hr hc]

/-- Settles O51: no check fails after the encoder, and no matrix has a candidate
(`noCandidate_encPm`), so both commands write the verdict and the count only. -/
theorem encodedMatricesPass : Obligations.EncodedMatricesPass := by
  intro s t hs he h ht
  obtain ⟨hd, -⟩ := exec_encPm_code hs he h ht
  obtain ⟨hdt, hclen, hn⟩ := exec_encPm_d_clen hs he h ht
  have hlegal : pmLegal t.dVal := by rwa [hdt]
  have hne : 0 < t.clenVal := hclen ▸ Nat.mul_pos hn (pos_of_pmLegal hd)
  have hframe : t.clenVal % t.dVal = 0 := by rw [hclen, hdt, encPmLength, Nat.mul_mod_left]
  have hclean := noCandidate_encPm hs he h ht
  exact ⟨fun n hlt => ⟨_, hclean.exec_chkPm ht (chkPmCheck_ok hlegal hne hframe hlt),
      verdict_passed t, rfl, rfl, rfl⟩,
    _, hclean.exec_chkallPm ht (chkallPmCheck_ok hlegal hne hframe)
      (matrices_encPm hs he h ht ▸ hn), verdict_passed t, rfl, rfl, rfl⟩

end Sys2Proof.Machine
end

section
/-! PROOFS. The validator of the parity-bit scheme (42_pb_check.md R90 to R94): validity of a block as
even weight, what `CHK.PB` and `CHKALL.PB` report, and which error they raise. -/

namespace Sys2Proof.Machine

open Sys2Proof

/-! ### Validity by weight -/

/-- The last element equals the parity of the others exactly when the whole has parity 0. The empty
sequence needs no exception: the model calls it valid (42_pb_check.md R90, R92). -/
theorem pbValid_eq_not_par (b : List Bit) : pbValid b = !par b := by
  obtain rfl | ⟨s, x, rfl⟩ := List.eq_nil_or_concat b
  · rfl
  · rw [List.concat_eq_append, pbValid_concat, par_append, par_cons, par_nil, Bool.xor_false,
      ← Bool.bne_eq_xor, bne, Bool.not_not]

theorem pbValid_iff_even_count (b : List Bit) : pbValid b = true ↔ b.count true % 2 = 0 := by
  rw [pbValid_eq_not_par, par_eq_count, Bool.not_eq_true', decide_eq_false_iff_not]
  exact Nat.mod_two_ne_one

theorem oddOnes_eq_false_iff {n : Nat} {f : Nat → Bit} :
    oddOnes n f = false ↔ (List.range n).countP f % 2 = 0 := by
  rw [oddOnes, decide_eq_false_iff_not]
  exact Nat.mod_two_ne_one

/-- Inverting the places that `flips` names adds their number to the parity. -/
theorem par_mapIdx_xor (b : List Bit) (flips : Nat → Bool) :
    par (b.mapIdx fun i x => xor x (flips i)) = xor (par b) (oddOnes b.length flips) := by
  rw [oddOnes_eq]
  induction b using List.reverseRecOn with
  | nil => rfl
  | append_singleton s x ih =>
    rw [List.mapIdx_concat, List.length_append, List.length_singleton, par_range_succ, par_append,
      par_append, ih]
    simp [Bool.xor_left_comm]

/-- Settles O47: a block is valid when its parity is 0 (`pbValid_eq_not_par`), and the flips add
their own parity to it (`par_mapIdx_xor`). -/
theorem blockIsValidByEvenWeight : Obligations.BlockIsValidByEvenWeight := by
  refine fun b _ => ⟨pbValid_iff_even_count b, fun flips hvalid => ?_⟩
  rw [pbValid_eq_not_par, Bool.not_eq_true'] at hvalid
  rw [pbValid_eq_not_par, Bool.not_eq_true', par_mapIdx_xor, hvalid, Bool.false_xor]
  exact oddOnes_eq_false_iff

/-! ### The verdicts of the commands -/

/-- The verdict of block `n` of the code counts the ones of CODE in the run of the block, which ends
at CLEN when the block is the short one (30_encoding.md R61, 42_pb_check.md R94). -/
theorem pbValid_pbBlockAt_readRun (m : Memory) (len d n : Nat) :
    pbValid (pbBlockAt (m.readRun 0 len) d n) =
      !oddOnes (min ((n + 1) * d) len - n * d) fun i => m.read (n * d + i) := by
  rw [pbBlockAt, Memory.length_readRun, slice_readRun _ (Nat.min_le_right ..), pbValid_eq_not_par,
    Memory.readRun_eq_map, oddOnes_eq, Nat.succ_mul]

/-- Settles O26: `CHK.PB n` completes with the verdict of its block (`exec_chkPb_ok`), which is a
count of ones (`pbValid_pbBlockAt_readRun`). -/
theorem chkPbReportsBlockParity : Obligations.ChkPbReportsBlockParity := by
  intro n s hs he hd hc hn
  refine ⟨_, exec_chkPb_ok hs he hd hc hn, rfl, ?_⟩
  rw [pbValid_pbBlockAt_readRun]
  exact verdict_setVerdict ..

/-- VALID after a `CHK.PB n` whose checks pass (42_pb_check.md R91). -/
theorem exec_chkPb_valid_iff {n : Nat} {s : State} (hs : s.Inv) (he : s.err = false)
    (hd : 2 ≤ s.dVal) (hc : 0 < s.clenVal) (hn : n < s.blocks) :
    (∃ u, exec (.chkPb n) s = .next u ∧ u.valid = true) ↔
      pbValid (pbBlockAt (s.code.readRun 0 s.clenVal) s.dVal n) = true := by
  simp [exec_chkPb_ok hs he hd hc hn]

/-- Settles O27: the verdict that `CHKALL.PB` writes runs over the blocks (`exec_chkallPb_ok`), and
each of them contributes what its own `CHK.PB` would write (`exec_chkPb_valid_iff`). -/
theorem chkallPbIsTheConjunction : Obligations.ChkallPbIsTheConjunction := by
  intro s hs he hd hc
  refine ⟨_, _, exec_chkallPb_ok hs he hd hc, rfl, verdict_setVerdict .., ?_⟩
  simp only [List.all_eq_true, List.mem_range]
  exact forall₂_congr fun n hn => (exec_chkPb_valid_iff hs he hd hc hn).symm

/-! ### The errors of the commands -/

/-- The word of `CHKALL.PB` (30_encoding.md R54), which an error puts in ERRCMD. -/
theorem encode_chkallPb : encode .chkallPb = 0x30000000#32 := by decide

/-- The error entry of `CHKALL.PB` (60_exceptions.md R131). -/
theorem exec_chkallPb_raise {s : State} (he : s.err = false) {e : ErrorCode}
    (hc : chkallPbCheck s = some e) :
    ∃ t, exec .chkallPb s = .next t ∧ Latched e 0x30000000#32 s t :=
  encode_chkallPb ▸ exec_raise (by decide) he hc

/-- The error entry of `CHK.PB n` (60_exceptions.md R131). -/
theorem exec_chkPb_raise {n : Nat} {s : State} (he : s.err = false) {e : ErrorCode}
    (hc : chkPbCheck n s = some e) :
    ∃ t, exec (.chkPb n) s = .next t ∧ Latched e (encode (.chkPb n)) s t :=
  exec_raise (by simp) he hc

/-- `CHK.PB n` makes the checks of `CHKALL.PB`, then the one of its index (42_pb_check.md R91,
R93). -/
theorem chkPbCheck_eq (n : Nat) (s : State) : chkPbCheck n s =
    (chkallPbCheck s).or (if s.blocks ≤ n then some .outOfRange else none) := by
  unfold chkPbCheck chkallPbCheck
  split
  · rfl
  · split <;> rfl

/-- Settles O28: an error of `CHKALL.PB` is one of `CHK.PB n` too (`chkPbCheck_eq`), and in each case
the checks before the failing one pass (60_exceptions.md R138). -/
theorem pbChecksRaiseTheirFirstCause : Obligations.PbChecksRaiseTheirFirstCause := by
  intro n s _ he
  simp only [toNat_d, toNat_clen]
  have raised {e : ErrorCode} (h : chkallPbCheck s = some e) :=
    And.intro (exec_chkPb_raise (n := n) he (by rw [chkPbCheck_eq, h, Option.some_or]))
      (exec_chkallPb_raise he h)
  refine ⟨fun hd => raised (if_pos hd), fun hd hc => raised ?_, fun hd hc hn => ?_⟩
  · rw [chkallPbCheck, if_neg (by omega), if_pos hc]
  · apply exec_chkPb_raise he
    rw [chkPbCheck_eq, chkallPbCheck_ok hd hc, Option.none_or]
    exact if_pos hn

end Sys2Proof.Machine
end

section
/-! PROOFS. The syndromes and the outcome of a matrix check (43_pm_check.md R101 to R103, R106): what
flips do to the mismatched rows and columns, and what a check answers by their numbers. -/

namespace Sys2Proof.Machine

open Sys2Proof

/-! ### The syndromes under flips -/

/-- A column is mismatched when it has an odd number of ones, its parity bit counted (43_pm_check.md
R101): a column is a row of the transposed grid. -/
theorem colBad_eq_oddOnes {dim : Nat} (hd : 0 < dim) (g : Grid) (c : Nat) :
    colBad dim g c = oddOnes dim fun r => g r c :=
  rowBad_eq_oddOnes hd (fun r c => g c r) c

/-- Flips add their number to the parity. -/
theorem oddOnes_xor (n : Nat) (f g : Nat → Bit) :
    (oddOnes n fun i => xor (f i) (g i)) = xor (oddOnes n f) (oddOnes n g) := by
  simp only [oddOnes_eq]
  exact par_map_xor ..

/-- An encoded matrix has no mismatched data row (41_pm_encode.md R84). -/
theorem rowBad_pmMatrix {dim r : Nat} (x : List Bit) (hr : r < dim) :
    rowBad dim (pmMatrix dim x) r = false := by
  rw [rowBad_eq_oddOnes (by omega), oddOnes_pmMatrix_row x hr]

/-- An encoded matrix has no mismatched column (41_pm_encode.md R84). -/
theorem colBad_pmMatrix {dim : Nat} (x : List Bit) (hd : 0 < dim) (c : Nat) :
    colBad dim (pmMatrix dim x) c = false := by
  rw [colBad_eq_oddOnes hd, oddOnes_pmMatrix_col x hd]

/-- Settles O53: the flips add their number to the parity of a row or column (`oddOnes_xor`), which is
even before. -/
theorem syndromesOfFlips : Obligations.SyndromesOfFlips := by
  intro dim x flips h2
  refine ⟨fun r hr => ?_, fun c _ => ?_⟩
  · rw [rowBad_eq_oddOnes (by omega), oddOnes_xor, oddOnes_pmMatrix_row x (by omega), Bool.false_xor]
  · rw [colBad_eq_oddOnes (by omega), oddOnes_xor, oddOnes_pmMatrix_col x (by omega), Bool.false_xor]

/-! ### The outcome -/

/-- The candidates are the pairs of a mismatched row and a mismatched column (43_pm_check.md R106). -/
theorem length_candidates (dim : Nat) (g : Grid) :
    (candidates dim g).length = (badRows dim g).length * (badCols dim g).length := by
  simp [candidates, List.length_flatMap]

/-- No mismatched row, or no mismatched column: no error is seen (43_pm_check.md R106). -/
theorem pmCheck_of_no_meeting {dim : Nat} {g : Grid} (h : badRows dim g = [] ∨ badCols dim g = []) :
    pmCheck dim g = { verdict := true, flip := none, count := 0 } := by
  have hnil : candidates dim g = [] := by
    rcases h with h | h <;> simp [candidates, h]
  rw [pmCheck, hnil]

/-- One mismatched row and one mismatched column: the cell where they meet is located. -/
theorem pmCheck_of_one_each {dim r c : Nat} {g : Grid} (hr : badRows dim g = [r])
    (hc : badCols dim g = [c]) :
    pmCheck dim g = { verdict := true, flip := some (r, c), count := 1 } := by
  rw [pmCheck, candidates, hr, hc]
  rfl

/-- Both kinds, and at least three in all: two candidates or more, so no cell is located. -/
theorem pmCheck_of_many {dim : Nat} {g : Grid} (hr : 1 ≤ (badRows dim g).length)
    (hc : 1 ≤ (badCols dim g).length)
    (h3 : 3 ≤ (badRows dim g).length + (badCols dim g).length) :
    pmCheck dim g = { verdict := false, flip := none,
                      count := (badRows dim g).length * (badCols dim g).length } := by
  have hlen : 2 ≤ (candidates dim g).length := by
    rw [length_candidates]
    nlinarith
  rw [← length_candidates, pmCheck]
  match candidates dim g, hlen with
  | _ :: _ :: _, _ => rfl

/-- The three outcomes are all there are (43_pm_check.md R106). -/
theorem badRows_badCols_cases (dim : Nat) (g : Grid) :
    (badRows dim g = [] ∨ badCols dim g = []) ∨
    (∃ r c, badRows dim g = [r] ∧ badCols dim g = [c]) ∨
    (1 ≤ (badRows dim g).length ∧ 1 ≤ (badCols dim g).length ∧
      3 ≤ (badRows dim g).length + (badCols dim g).length) := by
  match badRows dim g, badCols dim g with
  | [], _ => exact .inl (.inl rfl)
  | _, [] => exact .inl (.inr rfl)
  | [r], [c] => exact .inr (.inl ⟨r, c, rfl, rfl⟩)
  | _ :: _ :: _, _ :: _ => exact .inr (.inr (by simp; omega))
  | _ :: _, _ :: _ :: _ => exact .inr (.inr (by simp; omega))

/-- Settles O52: in each of the three cases the check is known (`badRows_badCols_cases`). -/
theorem outcomeByBadRowsAndColumns : Obligations.OutcomeByBadRowsAndColumns := by
  rintro dim g _ _ rfl rfl
  rcases badRows_badCols_cases dim g with hno | ⟨r, c, hr, hc⟩ | ⟨hr, hc, h3⟩
  · have hlen : (badRows dim g).length = 0 ∨ (badCols dim g).length = 0 := by simpa using hno
    rw [pmCheck_of_no_meeting hno]
    exact ⟨(Nat.mul_eq_zero.2 hlen).symm, iff_of_true ⟨rfl, rfl⟩ hlen,
      iff_of_false (by simp) (by omega), iff_of_false (by simp) (by omega), by simp⟩
  · rw [pmCheck_of_one_each hr hc, hr, hc]
    simp
  · rw [pmCheck_of_many hr hc h3]
    exact ⟨rfl, iff_of_false (by simp) (by omega), iff_of_false (by simp) (by omega),
      iff_of_true rfl ⟨hr, hc, h3⟩, by simp⟩

end Sys2Proof.Machine
end

section
/-! PROOFS. What two and three flips of an encoded matrix give (43_pm_check.md R108, R109): an inverted
cell changes the syndrome of its row and of its column, and no other. -/

namespace Sys2Proof.Machine

open Sys2Proof

/-! ### One inverted cell -/

/-- The grid `g` with cell `(r₀, c₀)` inverted. -/
def invertCell (r₀ c₀ : Nat) (g : Grid) : Grid := fun r c => xor (g r c) (decide (r = r₀ ∧ c = c₀))

/-- A single marked place among `n` is an odd number of them, when it is marked at all. -/
theorem oddOnes_single {n i : Nat} (hi : i < n) (p : Prop) [Decidable p] :
    (oddOnes n fun j => decide (p ∧ j = i)) = decide p := by
  have hone : (List.range n).countP (fun j => decide (j = i)) = 1 :=
    List.count_eq_one_of_mem List.nodup_range (List.mem_range.2 hi)
  by_cases hp : p <;> simp [oddOnes, hp, hone]

/-- An inverted cell changes the syndrome of its own row (43_pm_check.md section 3). -/
theorem rowBad_invertCell {dim r₀ c₀ : Nat} (hc : c₀ < dim) (g : Grid) (r : Nat) :
    rowBad dim (invertCell r₀ c₀ g) r = xor (rowBad dim g r) (decide (r = r₀)) := by
  have hd : 0 < dim := by omega
  rw [rowBad_eq_oddOnes hd, rowBad_eq_oddOnes hd, ← oddOnes_single hc (r = r₀), ← oddOnes_xor]
  rfl

/-- An inverted cell changes the syndrome of its own column (43_pm_check.md section 3). -/
theorem colBad_invertCell {dim r₀ c₀ : Nat} (hr : r₀ < dim) (g : Grid) (c : Nat) :
    colBad dim (invertCell r₀ c₀ g) c = xor (colBad dim g c) (decide (c = c₀)) := by
  have hd : 0 < dim := by omega
  rw [colBad_eq_oddOnes hd, colBad_eq_oddOnes hd, ← oddOnes_single hr (c = c₀), ← oddOnes_xor]
  simp only [invertCell, and_comm]

/-! ### Two inverted cells -/

/-- How many of two marked places lie below `n`, when a place marked twice is not marked. -/
theorem length_filter_range_two (n a b : Nat) :
    ((List.range n).filter fun i => xor (decide (i = a)) (decide (i = b))).length =
      if a = b then 0 else (if a < n then 1 else 0) + (if b < n then 1 else 0) := by
  rw [← List.countP_eq_length_filter]
  induction n with
  | zero => simp
  | succ n ih =>
    rw [List.range_succ, List.countP_append, ih, List.countP_singleton]
    simp only [Bool.xor_iff_ne, ne_eq, decide_eq_decide]
    split_ifs <;> omega

/-- The mismatched data rows after two flips of an encoded matrix (43_pm_check.md R108). -/
theorem length_badRows_two_flips {dim c₁ c₂ : Nat} (x : List Bit) (r₁ r₂ : Nat) (hc₁ : c₁ < dim)
    (hc₂ : c₂ < dim) :
    (badRows dim (invertCell r₂ c₂ (invertCell r₁ c₁ (pmMatrix dim x)))).length =
      if r₁ = r₂ then 0 else (if r₁ < dim - 1 then 1 else 0) + (if r₂ < dim - 1 then 1 else 0) := by
  rw [← length_filter_range_two, badRows]
  congr 1
  refine List.filter_congr fun r hr => ?_
  have hlt := List.mem_range.1 hr
  rw [rowBad_invertCell hc₂, rowBad_invertCell hc₁, rowBad_pmMatrix x (by omega), Bool.false_xor]

/-- The mismatched columns after two flips of an encoded matrix (43_pm_check.md R108). -/
theorem length_badCols_two_flips {dim r₁ r₂ c₁ c₂ : Nat} (x : List Bit) (hr₁ : r₁ < dim)
    (hr₂ : r₂ < dim) (hc₁ : c₁ < dim) (hc₂ : c₂ < dim) :
    (badCols dim (invertCell r₂ c₂ (invertCell r₁ c₁ (pmMatrix dim x)))).length =
      if c₁ = c₂ then 0 else 2 := by
  have htwo := length_filter_range_two dim c₁ c₂
  rw [if_pos hc₁, if_pos hc₂] at htwo
  rw [← htwo, badCols]
  congr 1
  refine List.filter_congr fun c _ => ?_
  rw [colBad_invertCell hr₂, colBad_invertCell hr₁, colBad_pmMatrix x (by omega), Bool.false_xor]

/-- Two flips at different places, at most one of which is at hand. -/
theorem ite_or_not_eq_xor {p q : Prop} [Decidable p] [Decidable q] (b : Bit) (h : ¬ (p ∧ q)) :
    (if p ∨ q then !b else b) = xor (xor b (decide p)) (decide q) := by
  by_cases hp : p <;> by_cases hq : q <;> simp_all

/-- Settles O54: two flips leave none or two columns mismatched, and one of each kind never
(43_pm_check.md R108), so the outcome follows from the numbers (O52). -/
theorem twoFlipsAreNeverMiscorrected : Obligations.TwoFlipsAreNeverMiscorrected := by
  intro dim x r₁ c₁ r₂ c₂ m h2 hr₁ hc₁ hr₂ hc₂ hne hm
  obtain rfl : m = invertCell r₂ c₂ (invertCell r₁ c₁ (pmMatrix dim x)) := by
    funext r c
    simp only [hm, Prod.mk.injEq]
    refine ite_or_not_eq_xor _ ?_
    rintro ⟨⟨rfl, rfl⟩, rfl, rfl⟩
    exact hne rfl
  obtain ⟨hcount, -, hflip, hverdict, -⟩ := outcomeByBadRowsAndColumns dim _ _ _
    (length_badRows_two_flips x r₁ r₂ hc₁ hc₂).symm (length_badCols_two_flips x hr₁ hr₂ hc₁ hc₂).symm
  have hcols : (if c₁ = c₂ then 0 else 2) ≠ 1 := by split <;> decide
  rw [hverdict, hcount, Option.eq_none_iff_forall_ne_some]
  refine ⟨fun rc hrc => hcols (hflip.1 ⟨rc, hrc⟩).2, ?_⟩
  clear hcount hflip hverdict
  by_cases hr : r₁ = r₂
  · simp [hr]
  · by_cases hc : c₁ = c₂
    · simp [hc]
    · rw [if_neg hr, if_neg hc, if_pos (show r₁ ≠ r₂ ∧ c₁ ≠ c₂ from ⟨hr, hc⟩)]
      split_ifs <;> omega

/-! ### Three inverted cells -/

/-- Settles O56: both examples are evaluated. -/
theorem threeFlipsCanBeMiscorrected : Obligations.ThreeFlipsCanBeMiscorrected :=
  ⟨⟨_, _, _, rfl, rfl, rfl, by decide⟩, _, _, _, rfl, rfl, rfl, by decide⟩

end Sys2Proof.Machine
end

section
/-! PROOFS. `CHK.PM` and `CHKALL.PM` with an error, and what `CHK.PM` does to the state without one
(43_pm_check.md R104, R105; 60_exceptions.md R130, R138). -/

namespace Sys2Proof.Machine

open Sys2Proof

/-! ### The matrix checks with an error -/

/-- The word of `CHKALL.PM` (30_encoding.md R54), which an error puts in ERRCMD. -/
theorem encode_chkallPm : encode .chkallPm = 0x31000000#32 := by decide

/-- The error entry of `CHKALL.PM` (60_exceptions.md R131). -/
theorem exec_chkallPm_raise {s : State} (he : s.err = false) {e : ErrorCode}
    (hc : chkallPmCheck s = some e) :
    ∃ t, exec .chkallPm s = .next t ∧ Latched e 0x31000000#32 s t :=
  encode_chkallPm ▸ exec_raise (by decide) he hc

/-- The error entry of `CHK.PM n` (60_exceptions.md R131). -/
theorem exec_chkPm_raise {n : Nat} {s : State} (he : s.err = false) {e : ErrorCode}
    (hc : chkPmCheck n s = some e) :
    ∃ t, exec (.chkPm n) s = .next t ∧ Latched e (encode (.chkPm n)) s t :=
  exec_raise (by simp) he hc

/-- `CHK.PM n` makes the checks of `CHKALL.PM`, then the one of its index (43_pm_check.md R104,
R105). -/
theorem chkPmCheck_eq (n : Nat) (s : State) : chkPmCheck n s =
    (chkallPmCheck s).or (if s.matrices ≤ n then some .outOfRange else none) := by
  unfold chkPmCheck chkallPmCheck
  split
  · rfl
  · split
    · rfl
    · split <;> rfl

/-- Settles O32: an error of `CHKALL.PM` is one of `CHK.PM n` too (`chkPmCheck_eq`), and in each case
the checks before the failing one pass (60_exceptions.md R138). -/
theorem pmChecksRaiseTheirFirstCause : Obligations.PmChecksRaiseTheirFirstCause := by
  intro n s _ he
  simp only [toNat_d, toNat_clen]
  have raised {e : ErrorCode} (h : chkallPmCheck s = some e) :=
    And.intro (exec_chkPm_raise (n := n) he (by rw [chkPmCheck_eq, h, Option.some_or]))
      (exec_chkallPm_raise he h)
  refine ⟨fun hd => raised (if_pos fun hl => hd (pmLegal_iff.1 hl)), fun dim h2 hdim => ?_⟩
  obtain ⟨hd, -⟩ := pmLegal_square h2 hdim.symm
  refine ⟨fun hc => raised ?_, fun hc hm => raised ?_, fun hc hm hn => ?_⟩
  · rw [chkallPmCheck, if_neg (not_not.2 hd), if_pos hc]
  · rw [chkallPmCheck, if_neg (not_not.2 hd), if_neg (by omega), if_pos hm]
  · apply exec_chkPm_raise he
    rw [chkPmCheck_eq, chkallPmCheck_ok hd hc hm, Option.none_or]
    exact if_pos hn

/-! ### The state after a matrix check -/

/-- The state with cell `(r, c)` of matrix `n` inverted in CODE. -/
def State.invert (s : State) (n r c : Nat) : State :=
  { s with code := s.code.write (n * s.dVal + r * s.dim + c) (!matrixGrid s n r c) }

/-- Exactly one bit of CODE is inverted (20_memory.md R42). -/
theorem read_invert {s : State} (hw : s.code.wf = true) (n r c a : Nat) :
    (s.invert n r c).code.read a =
      if a = n * s.dVal + r * s.dim + c then !s.code.read a else s.code.read a := by
  rw [State.invert, Memory.read_write hw]
  split
  · next ha => rw [matrixGrid, ha, Nat.add_assoc]
  · rfl

/-- What a check of matrix `n` answers, the matrix as CODE holds it (43_pm_check.md R103, R104). -/
def State.outcome (s : State) (n : Nat) : PmResult := pmCheck s.dim (matrixGrid s n)

/-- The state after the effect of `CHK.PM n` (43_pm_check.md R104). -/
def State.checked (s : State) (n : Nat) : State := afterCheck n s (s.outcome n)

/-- A check writes STATUS, LOC, NCAND and CODE only (10_state.md R24). -/
theorem checked_frame (s : State) (n : Nat) :
    s.checked n = { s with status := (s.checked n).status, loc := (s.checked n).loc,
                           ncand := (s.checked n).ncand, code := (s.checked n).code } := by
  unfold State.checked afterCheck
  split <;> rfl

theorem checked_dVal (s : State) (n : Nat) : (s.checked n).dVal = s.dVal := by
  rw [checked_frame]; rfl
theorem checked_dim (s : State) (n : Nat) : (s.checked n).dim = s.dim := by
  rw [checked_frame]; rfl
theorem checked_matrices (s : State) (n : Nat) : (s.checked n).matrices = s.matrices := by
  rw [checked_frame]; rfl

/-- A check that locates no cell writes the verdict and the count only (43_pm_check.md R104). -/
theorem checked_of_none {s : State} {n : Nat} (h : (s.outcome n).flip = none) :
    s.checked n = ({ s with ncand := countReg (s.outcome n).count }).setVerdict
      (s.outcome n).verdict false := by
  rw [State.checked, afterCheck, h]

/-- A check that locates a cell inverts it and writes its coordinate (43_pm_check.md R104). -/
theorem checked_of_some {s : State} {n r c : Nat} (h : (s.outcome n).flip = some (r, c)) :
    s.checked n = ({ s.invert n r c with loc := locReg r c, ncand := countReg (s.outcome n).count } :
      State).setVerdict (s.outcome n).verdict true := by
  rw [State.checked, afterCheck, h]
  rfl

/-- What a check writes in STATUS (43_pm_check.md R104). -/
theorem verdict_checked (s : State) (n : Nat) :
    Verdict (s.outcome n).verdict (s.outcome n).flip.isSome s (s.checked n).advance := by
  cases hf : (s.outcome n).flip with
  | none =>
    rw [checked_of_none hf]
    exact { verdict_setVerdict _ false _ with }
  | some rc =>
    rw [checked_of_some hf]
    exact { verdict_setVerdict _ true _ with }

@[simp] theorem checked_valid (s : State) (n : Nat) :
    (s.checked n).valid = (s.outcome n).verdict := (verdict_checked s n).validIs
@[simp] theorem checked_corr (s : State) (n : Nat) :
    (s.checked n).corr = (s.outcome n).flip.isSome := (verdict_checked s n).corrIs
@[simp] theorem checked_err (s : State) (n : Nat) : (s.checked n).err = s.err :=
  (verdict_checked s n).errKept

@[simp] theorem checked_ncand (s : State) (n : Nat) :
    (s.checked n).ncand = countReg (s.outcome n).count := by
  cases hf : (s.outcome n).flip with
  | none => rw [checked_of_none hf]; rfl
  | some rc => rw [checked_of_some hf]; rfl

/-- LOC names the located cell (10_state.md R20, 43_pm_check.md R104). -/
theorem checked_row_col {s : State} {n r c : Nat} (h : (s.outcome n).flip = some (r, c)) :
    (s.checked n).row = r ∧ (s.checked n).col = c := by
  have hbounds := flip_bounds h
  have hside := dim_le s
  rw [checked_of_some h]
  exact ⟨(row_locReg r c).trans (Nat.mod_eq_of_lt (by omega)),
    (col_locReg r c).trans (Nat.mod_eq_of_lt (by omega))⟩

/-- The state of an engine that is not frozen and in which the checks of `CHKALL.PM` pass. -/
structure State.Ready (s : State) : Prop where
  inv    : s.Inv
  clean  : s.err = false
  passes : chkallPmCheck s = none

theorem State.Ready.square {s : State} (h : s.Ready) : s.dim * s.dim = s.dVal :=
  (chkallPmCheck_none h.passes).1.1

/-- The effect of `CHK.PM n` on a matrix of the code (43_pm_check.md R104). -/
theorem State.Ready.checkMatrix {s : State} (h : s.Ready) {n : Nat} (hn : n < s.matrices) :
    checkMatrix n s = .ok (s.checked n) :=
  checkMatrix_ok h.square ((matrix_in_code hn).trans h.inv.clenFits)

/-- After a check of a matrix the next one can follow. -/
theorem State.Ready.checked {s : State} (h : s.Ready) {n : Nat} (hn : n < s.matrices) :
    (s.checked n).Ready where
  inv := h.inv.checkMatrix (h.checkMatrix hn)
  clean := (checked_err s n).trans h.clean
  passes := by rw [checked_frame]; exact h.passes

/-- `CHK.PM n` on a matrix of the code (43_pm_check.md R104). -/
theorem State.Ready.exec_chkPm {s : State} (h : s.Ready) {n : Nat} (hn : n < s.matrices) :
    exec (.chkPm n) s = .next (s.checked n).advance := by
  have hc : chkPmCheck n s = none := by
    rw [chkPmCheck_eq, h.passes, Option.none_or, if_neg (Nat.not_le.2 hn)]
  exact exec_done (by simp) h.clean hc (h.checkMatrix hn)

/-! ### The outcome of `CHK.PM` -/

/-- The mismatched data rows of matrix `n`, counted in CODE (43_pm_check.md R100, R101). -/
theorem badRows_matrixGrid {s : State} (hd : 0 < s.dim) (n : Nat) :
    badRows s.dim (matrixGrid s n) = (List.range (s.dim - 1)).filter fun r =>
      oddOnes s.dim fun c => s.code.read (n * s.dVal + r * s.dim + c) := by
  simp only [Nat.add_assoc]
  exact List.filter_congr fun r _ => rowBad_eq_oddOnes hd (matrixGrid s n) r

/-- The mismatched columns of matrix `n`, counted in CODE (43_pm_check.md R100, R101). -/
theorem badCols_matrixGrid {s : State} (hd : 0 < s.dim) (n : Nat) :
    badCols s.dim (matrixGrid s n) = (List.range s.dim).filter fun c =>
      oddOnes s.dim fun r => s.code.read (n * s.dVal + r * s.dim + c) := by
  simp only [Nat.add_assoc]
  exact List.filter_congr fun c _ => colBad_eq_oddOnes hd (matrixGrid s n) c

/-- The count fits NCAND (10_state.md R21). -/
theorem toNat_countReg_pmCheck (s : State) (g : Grid) :
    (countReg (pmCheck s.dim g).count).toNat =
      (badRows s.dim g).length * (badCols s.dim g).length := by
  have hd := dim_le s
  have hle : (pmCheck s.dim g).count ≤ 4094 * 4095 :=
    (pmCheck_count_le _ _).trans (Nat.mul_le_mul (by omega) hd)
  rw [toNat_countReg (by omega), pmCheck_count, length_candidates]

/-- Settles O29: `CHK.PM n` leaves the state `State.checked`, and its outcome goes by the
mismatched rows and columns (O52). -/
theorem chkPmLocatesAndCorrects : Obligations.ChkPmLocatesAndCorrects := by
  rintro n s dim _ _ hs he h2 hdim hc hm hn rfl rfl
  obtain ⟨hd, hroot⟩ := pmLegal_square h2 hdim
  obtain rfl : s.dim = dim := hroot
  simp only [toNat_d]
  rw [← badRows_matrixGrid (by omega), ← badCols_matrixGrid (by omega)]
  have hready : s.Ready := ⟨hs, he, chkallPmCheck_ok hd hc hm⟩
  have hverdict := verdict_checked s n
  refine ⟨_, hready.exec_chkPm hn, ?_, ?_, fun hno => ?_,
    fun r c hr hc => ?_, fun hr hc h3 => ?_⟩
  · rw [advance_ncand, checked_ncand, State.outcome, toNat_countReg_pmCheck]
  · rw [checked_frame]
    rfl
  · have hres : s.outcome n = _ := pmCheck_of_no_meeting hno
    rw [hres] at hverdict
    rw [checked_of_none (by rw [hres])] at hverdict ⊢
    exact ⟨hverdict, rfl, rfl⟩
  · have hres : s.outcome n = _ := pmCheck_of_one_each hr hc
    have hflip : (s.outcome n).flip = some (r, c) := by rw [hres]
    obtain ⟨hrow, hcol⟩ := checked_row_col hflip
    rw [hres] at hverdict
    refine ⟨hverdict, hrow, hcol, fun a => ?_⟩
    rw [checked_of_some hflip]
    exact read_invert hs.codeWf n r c a
  · have hres : s.outcome n = _ := pmCheck_of_many hr hc h3
    rw [hres] at hverdict
    rw [checked_of_none (by rw [hres])] at hverdict ⊢
    exact ⟨hverdict, rfl, rfl⟩

end Sys2Proof.Machine
end

section
/-! PROOFS. A second matrix check (43_pm_check.md R110): a correction leaves no mismatched data row in
its matrix, and it does not touch another matrix. -/

namespace Sys2Proof.Machine

open Sys2Proof

/-! ### A corrected grid -/

/-- What a check leaves of the grid `g`: the located cell inverted, if there is one (43_pm_check.md
R103). -/
def corrected (dim : Nat) (g : Grid) : Grid :=
  match (pmCheck dim g).flip with
  | none => g
  | some (r, c) => invertCell r c g

/-- Inverting the cell where the only mismatched row and the only mismatched column meet leaves no
mismatched row. -/
theorem badRows_invertCell_of_one_each {dim r c : Nat} {g : Grid} (hr : badRows dim g = [r])
    (hc : c < dim) : badRows dim (invertCell r c g) = [] := by
  refine List.filter_eq_nil_iff.2 fun r' hr' => ?_
  have hbad : rowBad dim g r' = decide (r' = r) := by
    have hmem : r' ∈ badRows dim g ↔ r' = r := by rw [hr, List.mem_singleton]
    rw [badRows, List.mem_filter] at hmem
    rw [Bool.eq_iff_iff, decide_eq_true_iff, ← hmem]
    exact ⟨fun h => ⟨hr', h⟩, And.right⟩
  rw [rowBad_invertCell hc, hbad, Bool.xor_self]
  exact Bool.false_ne_true

/-- A second check of a grid locates nothing and repeats the verdict, and the count too when the first
check located nothing (43_pm_check.md R110). -/
theorem pmCheck_corrected (dim : Nat) (g : Grid) :
    pmCheck dim (corrected dim g) =
      { verdict := (pmCheck dim g).verdict, flip := none,
        count := if (pmCheck dim g).flip.isSome then 0 else (pmCheck dim g).count } := by
  rcases badRows_badCols_cases dim g with hno | ⟨r, c, hr, hc⟩ | ⟨hr, hc, h3⟩
  · have hres := pmCheck_of_no_meeting hno
    simp [corrected, hres]
  · have hres := pmCheck_of_one_each hr hc
    have hbounds := flip_bounds (congrArg PmResult.flip hres)
    have hagain := pmCheck_of_no_meeting (.inl (badRows_invertCell_of_one_each hr hbounds.2))
    simp [corrected, hres, hagain]
  · have hres := pmCheck_of_many hr hc h3
    simp [corrected, hres]

/-! ### The matrices in CODE after a check -/

/-- Two cells of a matrix with one address are one cell (30_encoding.md R63). -/
theorem cell_inj {dim r c r' c' : Nat} (hc : c < dim) (hc' : c' < dim) :
    r' * dim + c' = r * dim + c ↔ r' = r ∧ c' = c := by
  refine ⟨fun h => ?_, fun ⟨hr, hc⟩ => by rw [hr, hc]⟩
  obtain rfl : r' = r := run_disjoint (a := r * dim + c) (d := dim) (by omega) (by omega) (by omega)
    (by omega)
  exact ⟨rfl, by omega⟩

/-- An inverted bit of CODE is an inverted cell of its matrix. -/
theorem matrixGrid_invert {s : State} (hw : s.code.wf = true) {n r c r' c' : Nat} (hc : c < s.dim)
    (hc' : c' < s.dim) :
    matrixGrid (s.invert n r c) n r' c' = invertCell r c (matrixGrid s n) r' c' := by
  have haddr : n * s.dVal + (r' * s.dim + c') = n * s.dVal + r * s.dim + c ↔ r' = r ∧ c' = c := by
    rw [Nat.add_assoc, Nat.add_left_cancel_iff]
    exact cell_inj hc hc'
  change (s.invert n r c).code.read (n * s.dVal + (r' * s.dim + c')) = _
  rw [read_invert hw, invertCell, matrixGrid]
  simp only [haddr]
  split <;> simp [*]

/-- A check leaves its matrix corrected (43_pm_check.md R104). -/
theorem matrixGrid_checked {s : State} (hw : s.code.wf = true) {n r c : Nat} (hc : c < s.dim) :
    matrixGrid (s.checked n) n r c = corrected s.dim (matrixGrid s n) r c := by
  cases hf : (pmCheck s.dim (matrixGrid s n)).flip with
  | none => rw [checked_of_none hf, corrected, hf]; rfl
  | some rc =>
    rw [checked_of_some hf, corrected, hf]
    exact matrixGrid_invert hw (flip_bounds hf).2 hc

/-- The outcome of a second check of one matrix (43_pm_check.md R110). -/
theorem outcome_checked_self {s : State} (hw : s.code.wf = true) (n : Nat) :
    (s.checked n).outcome n =
      { verdict := (s.outcome n).verdict, flip := none,
        count := if (s.outcome n).flip.isSome then 0 else (s.outcome n).count } := by
  rw [State.outcome, checked_dim, pmCheck_congr fun r _ c hc => matrixGrid_checked hw hc]
  exact pmCheck_corrected ..

/-- The check of one matrix leaves the outcome of another (43_pm_check.md R105: matrices do not
overlap). -/
theorem State.Ready.outcome_checked_of_ne {s : State} (h : s.Ready) {m n : Nat}
    (hm : m < s.matrices) (hne : n ≠ m) : (s.checked m).outcome n = s.outcome n := by
  rw [State.outcome, checked_dim, State.outcome]
  refine pmCheck_congr fun r hr c hc => ?_
  have hcell := cell_lt hr hc
  rw [h.square] at hcell
  rw [matrixGrid, checked_dVal, checked_dim, matrixGrid]
  by_contra hx
  obtain ⟨-, -, hlocated⟩ := checkMatrix_code (h.checkMatrix hm) h.inv.codeWf
  obtain ⟨hlo, hhi⟩ := (hlocated _ hx).bounds h.square
  exact hne (run_disjoint (by omega) (by omega) hlo hhi)

/-! ### The loop of `CHKALL.PM` -/

/-- One turn of the loop (43_pm_check.md R105). -/
theorem State.Ready.checkMatrices_cons {s : State} (h : s.Ready) {n : Nat} (hn : n < s.matrices)
    (ns : List Nat) (v k : Bool) :
    checkMatrices (n :: ns) v k s =
      checkMatrices ns (v && (s.checked n).valid) (k || (s.checked n).corr) (s.checked n) := by
  rw [checkMatrices, h.checkMatrix hn]
  rfl

/-- The loop over matrices of the code completes. -/
theorem State.Ready.checkMatrices_total {ns : List Nat} {v k : Bool} {s : State} (h : s.Ready)
    (hns : ∀ n ∈ ns, n < s.matrices) : ∃ u, checkMatrices ns v k s = .ok u := by
  induction ns generalizing v k s with
  | nil => exact ⟨_, rfl⟩
  | cons n ns ih =>
    obtain ⟨hn, hrest⟩ := List.forall_mem_cons.1 hns
    rw [h.checkMatrices_cons hn]
    exact ih (h.checked hn) (by rwa [checked_matrices])

/-- After the loop no check locates a cell in a matrix it went over (43_pm_check.md R110). -/
theorem State.Ready.flip_checkMatrices {ns : List Nat} {v k : Bool} {s u : State} {n : Nat}
    (h : s.Ready) (hns : ∀ m ∈ ns, m < s.matrices) (hu : checkMatrices ns v k s = .ok u)
    (hn : n ∈ ns ∨ (s.outcome n).flip = none) : (u.outcome n).flip = none := by
  induction ns generalizing v k s with
  | nil =>
    cases hu
    exact hn.resolve_left (by simp)
  | cons m ns ih =>
    obtain ⟨hm, hrest⟩ := List.forall_mem_cons.1 hns
    rw [h.checkMatrices_cons hm] at hu
    refine ih (h.checked hm) (by rwa [checked_matrices]) hu ?_
    by_cases hnm : n = m
    · subst hnm
      exact .inr (by rw [outcome_checked_self h.inv.codeWf])
    · rw [h.outcome_checked_of_ne hm hnm]
      exact hn.imp_left fun hmem => (List.mem_cons.1 hmem).resolve_left hnm

/-- The loop corrects nothing when no check locates a cell. -/
theorem State.Ready.checkMatrices_of_no_flip {ns : List Nat} {v k : Bool} {s u : State}
    (h : s.Ready) (hns : ∀ n ∈ ns, n < s.matrices ∧ (s.outcome n).flip = none)
    (hu : checkMatrices ns v k s = .ok u) : u.corr = k ∧ u.code = s.code := by
  induction ns generalizing v k s with
  | nil =>
    cases hu
    exact ⟨setVerdict_corr .., rfl⟩
  | cons m ns ih =>
    obtain ⟨⟨hm, hf⟩, hrest⟩ := List.forall_mem_cons.1 hns
    rw [h.checkMatrices_cons hm] at hu
    have hcode : (s.checked m).code = s.code := by rw [checked_of_none hf]; rfl
    have hns' : ∀ n ∈ ns, n < (s.checked m).matrices ∧ ((s.checked m).outcome n).flip = none := by
      intro n hmem
      obtain ⟨hn, hfn⟩ := hrest n hmem
      rw [checked_matrices]
      refine ⟨hn, ?_⟩
      by_cases hnm : n = m
      · rw [hnm, outcome_checked_self h.inv.codeWf]
      · rwa [h.outcome_checked_of_ne hm hnm]
    obtain ⟨hk, hc⟩ := ih (h.checked hm) hns' hu
    rw [checked_corr, hf] at hk
    exact ⟨by simpa using hk, hc.trans hcode⟩

/-! ### The commands twice -/

/-- A false verdict locates no cell (43_pm_check.md R103). -/
theorem flip_eq_none_of_verdict {dim : Nat} {g : Grid} (h : (pmCheck dim g).verdict = false) :
    (pmCheck dim g).flip = none := by
  obtain ⟨-, -, -, -, hflip⟩ := outcomeByBadRowsAndColumns dim g _ _ rfl rfl
  refine Option.eq_none_iff_forall_ne_some.2 fun rc hrc => ?_
  rw [(hflip rc.1 rc.2 hrc).1] at h
  cases h

/-- `pos` plays no part in a matrix check. -/
theorem State.Ready.advance {s : State} (h : s.Ready) : s.advance.Ready :=
  ⟨h.inv.advance, h.clean, h.passes⟩

@[simp] theorem outcome_advance (s : State) (n : Nat) : s.advance.outcome n = s.outcome n := rfl

/-- A `CHK.PM n` without an error starts in a state that is ready, and checks matrix `n`. -/
theorem exec_chkPm_no_error {n : Nat} {s t : State} (hs : s.Inv) (he : s.err = false)
    (h : exec (.chkPm n) s = .next t) (ht : t.err = false) :
    s.Ready ∧ n < s.matrices ∧ t = (s.checked n).advance := by
  obtain ⟨-, -, hc, -⟩ := performed_of_no_error (by simp) he ht h
  obtain ⟨hd, hpos, hframe, hn⟩ := chkPmCheck_none hc
  have hready : s.Ready := ⟨hs, he, chkallPmCheck_ok hd hpos hframe⟩
  rw [hready.exec_chkPm hn] at h
  cases h
  exact ⟨hready, hn, rfl⟩

/-- A `CHKALL.PM` without an error starts in a state that is ready, runs its loop over the matrices of
the code, and leaves a state that is ready and has as many. -/
theorem exec_chkallPm_no_error {s t : State} (hs : s.Inv) (he : s.err = false)
    (h : exec .chkallPm s = .next t) (ht : t.err = false) :
    s.Ready ∧ t.Ready ∧ t.matrices = s.matrices ∧
      ∃ u, checkMatrices (List.range s.matrices) true false s = .ok u ∧ t = u.advance := by
  obtain ⟨-, -, hc, u, hu, rfl⟩ := performed_of_no_error (by decide) he ht h
  have hframe := checkMatrices_frame hu
  refine ⟨⟨hs, he, hc⟩, ⟨hs.exec h, ht, ?_⟩, ?_, u, hu, rfl⟩
  · rw [hframe]; exact hc
  · rw [hframe]; rfl

/-- Settles O33: the outcome of a second check is known (`outcome_checked_self`), and after the loop of
`CHKALL.PM` no check locates a cell (`State.Ready.flip_checkMatrices`). -/
theorem secondCheckIsStable : Obligations.SecondCheckIsStable := by
  refine ⟨fun n s t hs he h ht => ?_, fun s t hs he h ht => ?_⟩
  · obtain ⟨hready, hn, rfl⟩ := exec_chkPm_no_error hs he h ht
    have hagain := outcome_checked_self hs.codeWf n
    have hnone : ((s.checked n).advance.outcome n).flip = none := by rw [outcome_advance, hagain]
    refine ⟨_, (hready.checked hn).advance.exec_chkPm (by rwa [advance_matrices, checked_matrices]),
      ?_, ?_, ?_, fun hv => ?_⟩
    · simp [hagain]
    · simp [hagain]
    · rw [advance_code, checked_of_none hnone]
      rfl
    · rw [advance_valid, checked_valid] at hv
      have hf : (s.outcome n).flip = none := flip_eq_none_of_verdict hv
      refine ⟨by simp [hagain, hf], ?_⟩
      rw [advance_code, checked_of_none hf]
      rfl
  · obtain ⟨hready, hready', hmat, u, hu, rfl⟩ := exec_chkallPm_no_error hs he h ht
    have hnone (n : Nat) (hn : n ∈ List.range u.advance.matrices) :
        n < u.advance.matrices ∧ (u.advance.outcome n).flip = none := by
      rw [hmat] at hn ⊢
      rw [outcome_advance]
      exact ⟨List.mem_range.1 hn,
        hready.flip_checkMatrices (fun _ => List.mem_range.1) hu (.inl hn)⟩
    obtain ⟨w, hw⟩ := hready'.checkMatrices_total (v := true) (k := false) fun n hn => (hnone n hn).1
    obtain ⟨hk, hc⟩ := hready'.checkMatrices_of_no_flip hnone hw
    exact ⟨_, exec_done (by decide) ht hready'.passes hw, hk, hc⟩

end Sys2Proof.Machine
end

section
/-! PROOFS. `CHKALL.PM` as the sequence of its checks (43_pm_check.md R105). -/

namespace Sys2Proof.Machine

open Sys2Proof

/-! ### The sequence of checks -/

/-- The state of the loop of `CHKALL.PM` after the checks of matrices 0 to `n - 1`. -/
def State.checkedTo (s : State) : Nat → State
  | 0 => s
  | n + 1 => (s.checkedTo n).checked n

/-- The state after the commands `CHK.PM 0` to `CHK.PM (n - 1)`, each of which counts in `pos`. -/
def State.afterChecks (s : State) (n : Nat) : State := { s.checkedTo n with pos := s.pos + n }

@[simp] theorem afterChecks_valid (s : State) (n : Nat) :
    (s.afterChecks n).valid = (s.checkedTo n).valid := rfl
@[simp] theorem afterChecks_corr (s : State) (n : Nat) :
    (s.afterChecks n).corr = (s.checkedTo n).corr := rfl

/-- The checks change neither `pos` nor the number of matrices. -/
theorem checkedTo_pos_matrices (s : State) (n : Nat) :
    (s.checkedTo n).pos = s.pos ∧ (s.checkedTo n).matrices = s.matrices := by
  induction n with
  | zero => exact ⟨rfl, rfl⟩
  | succ n ih =>
    rw [State.checkedTo, checked_frame]
    exact ih

/-- After each check of a matrix of the code the next one can follow. -/
theorem State.Ready.checkedTo {s : State} (h : s.Ready) {n : Nat} (hn : n ≤ s.matrices) :
    (s.checkedTo n).Ready := by
  induction n with
  | zero => exact h
  | succ n ih =>
    obtain ⟨-, hmat⟩ := checkedTo_pos_matrices s n
    exact (ih (by omega)).checked (by omega)

/-- A check does not read `pos`. -/
theorem checked_withPos (s : State) (p n : Nat) :
    ({ s with pos := p } : State).checked n = { s.checked n with pos := p } := by
  change afterCheck n { s with pos := p } (s.outcome n) =
    { afterCheck n s (s.outcome n) with pos := p }
  unfold afterCheck
  split <;> rfl

/-- One command of the sequence (43_pm_check.md R105). -/
theorem State.Ready.exec_chkPm_afterChecks {s : State} (h : s.Ready) {n : Nat}
    (hn : n < s.matrices) :
    exec (.chkPm n) (s.afterChecks n) = .next (s.afterChecks (n + 1)) := by
  obtain ⟨-, hmat⟩ := checkedTo_pos_matrices s n
  have hto := h.checkedTo hn.le
  have hready : (s.afterChecks n).Ready := ⟨{ hto.inv with }, hto.clean, hto.passes⟩
  rw [hready.exec_chkPm (hn.trans_eq hmat.symm), State.afterChecks, checked_withPos]
  rfl

/-! ### The loop -/

/-- The loop from matrix `i` on goes through the states of the sequence, and gathers their verdicts
(43_pm_check.md R105). -/
theorem State.Ready.checkMatrices_range' {s : State} (h : s.Ready) {m i : Nat} (v k : Bool)
    (hm : i + m ≤ s.matrices) :
    checkMatrices (List.range' i m) v k (s.checkedTo i) = .ok ((s.checkedTo (i + m)).setVerdict
      (v && (List.range' i m).all fun n => (s.checkedTo (n + 1)).valid)
      (k || (List.range' i m).any fun n => (s.checkedTo (n + 1)).corr)) := by
  induction m generalizing i v k with
  | zero => simp [checkMatrices]
  | succ m ih =>
    obtain ⟨-, hmat⟩ := checkedTo_pos_matrices s i
    rw [List.range'_succ, (h.checkedTo (by omega)).checkMatrices_cons (by omega)]
    refine (ih _ _ (by omega)).trans ?_
    rw [List.all_cons, List.any_cons, Bool.and_assoc, Bool.or_assoc, Nat.add_right_comm]
    rfl

/-- The effect of `CHKALL.PM` (43_pm_check.md R105). -/
theorem State.Ready.chkallPmEffect {s : State} (h : s.Ready) :
    chkallPmEffect s = .ok ((s.checkedTo s.matrices).setVerdict
      ((List.range s.matrices).all fun n => (s.checkedTo (n + 1)).valid)
      ((List.range s.matrices).any fun n => (s.checkedTo (n + 1)).corr)) := by
  have hloop := h.checkMatrices_range' (i := 0) true false (Nat.zero_add s.matrices).le
  rw [Nat.zero_add, ← List.range_eq_range', Bool.true_and, Bool.false_or] at hloop
  exact hloop

/-- Settles O30: the loop goes through the states of the sequence (`State.Ready.checkMatrices_range'`),
and `CHKALL.PM` overwrites VALID and CORR at its end. -/
theorem chkallPmIsTheSequenceOfChecks : Obligations.ChkallPmIsTheSequenceOfChecks := by
  intro s dim hs he h2 hdim hpos hframe
  obtain ⟨hd, -⟩ := pmLegal_square h2 hdim
  have h : s.Ready := ⟨hs, he, chkallPmCheck_ok hd hpos hframe⟩
  have hloop : effectOf .chkallPm s = .ok _ := h.chkallPmEffect
  obtain ⟨herr, hcode, -⟩ := effectOf_latch (by decide) hloop
  have hres := effectOf_reserved hloop
  obtain ⟨hp, -⟩ := checkedTo_pos_matrices s s.matrices
  refine ⟨s.afterChecks, _, rfl, fun n hn => h.exec_chkPm_afterChecks hn,
    exec_done (by decide) he h.passes hloop, ?_, ⟨rfl, rfl, herr, hcode, hres⟩, ?_, ?_⟩
  · rw [← hp]
    rfl
  · simp [State.matrices, toNat_d, toNat_clen]
  · simp [State.matrices, toNat_d, toNat_clen]

end Sys2Proof.Machine
end

section
/-! PROOFS. One flip of an encoded matrix on the hardware (43_pm_check.md R107): `ENC.PM`, `FLIP`,
`CHK.PM`. -/

namespace Sys2Proof.Machine

open Sys2Proof

/-! ### The outcome after one flip -/

/-- A single marked place below `n`. -/
theorem filter_range_eq_singleton {n i : Nat} (hi : i < n) :
    (List.range n).filter (fun j => decide (j = i)) = [i] := by
  rw [List.filter_eq, List.count_eq_one_of_mem List.nodup_range (List.mem_range.2 hi)]
  rfl

/-- A flip in a data row is located (43_pm_check.md R107, first line). -/
theorem pmCheck_one_flip_data {dim r c : Nat} (x : List Bit) (hr : r < dim - 1) (hc : c < dim) :
    pmCheck dim (invertCell r c (pmMatrix dim x)) =
      { verdict := true, flip := some (r, c), count := 1 } := by
  apply pmCheck_of_one_each
  · rw [← filter_range_eq_singleton hr, badRows]
    refine List.filter_congr fun r' hr' => ?_
    have hlt := List.mem_range.1 hr'
    rw [rowBad_invertCell hc, rowBad_pmMatrix x (by omega), Bool.false_xor]
  · rw [← filter_range_eq_singleton hc, badCols]
    refine List.filter_congr fun c' _ => ?_
    rw [colBad_invertCell (by omega), colBad_pmMatrix x (by omega), Bool.false_xor]

/-- A flip in the parity row is not seen (43_pm_check.md R107, second line). -/
theorem pmCheck_one_flip_parity {dim c : Nat} (x : List Bit) (hc : c < dim) :
    pmCheck dim (invertCell (dim - 1) c (pmMatrix dim x)) =
      { verdict := true, flip := none, count := 0 } := by
  refine pmCheck_of_even_rows fun r hr => ?_
  rw [← rowBad_eq_oddOnes (by omega), rowBad_invertCell hc, rowBad_pmMatrix x (by omega),
    Bool.false_xor, decide_eq_false_iff_not]
  omega

/-! ### Inverting a bit of CODE -/

/-- `FLIP` of a cell of a matrix of the code (44_housekeeping.md R124; 30_encoding.md R63). -/
theorem State.Ready.exec_flip_cell {s : State} (h : s.Ready) {n r c : Nat} (hn : n < s.matrices)
    (hr : r < s.dim) (hc : c < s.dim) :
    exec (.flip (n * s.dVal + r * s.dim + c)) s = .next (s.invert n r c).advance := by
  have hcell := cell_lt hr hc
  rw [h.square] at hcell
  have hlt : n * s.dVal + r * s.dim + c < s.clenVal := by
    have hmat := matrix_in_code hn
    omega
  have hcheck : checkOf s (.flip (n * s.dVal + r * s.dim + c)) = none := if_neg (Nat.not_le.2 hlt)
  rw [exec_done (by simp) h.clean hcheck (flipBit_ok (hlt.trans_le h.inv.clenFits)), State.invert,
    matrixGrid, Nat.add_assoc]

/-- Inverting a cell twice restores CODE. -/
theorem invert_invert_code {s : State} (hw : s.code.wf = true) (n r c : Nat) :
    ((s.invert n r c).invert n r c).code = s.code := by
  have hw' : (s.invert n r c).code.wf = true := Memory.wf_write hw ..
  refine Memory.ext_read (Memory.wf_write hw' ..) hw fun a => ?_
  rw [read_invert hw', read_invert hw]
  change (if a = n * s.dVal + r * s.dim + c then _ else _) = _
  split <;> simp

/-! ### The code that `ENC.PM` leaves -/

/-- The matrix checks can follow an `ENC.PM` without an error (41_pm_encode.md R83). -/
theorem ready_encPm {s t : State} (hs : s.Inv) (he : s.err = false) (h : exec .encPm s = .next t)
    (ht : t.err = false) : t.Ready := by
  obtain ⟨hd, -⟩ := exec_encPm_code hs he h ht
  obtain ⟨hdt, hclen, hpos⟩ := exec_encPm_d_clen hs he h ht
  refine ⟨hs.exec h, ht, chkallPmCheck_ok (by rwa [hdt]) ?_ ?_⟩
  · exact hclen ▸ Nat.mul_pos hpos (pos_of_pmLegal hd)
  · rw [hclen, hdt, encPmLength, Nat.mul_mod_left]

/-- Matrix `n` of the code is the encoded matrix of its data bits (41_pm_encode.md R82). -/
theorem matrixGrid_encPm {s t : State} (hs : s.Inv) (he : s.err = false)
    (h : exec .encPm s = .next t) (ht : t.err = false) {n r c : Nat} (hn : n < t.matrices)
    (hr : r < t.dim) (hc : c < t.dim) :
    matrixGrid t n r c = pmMatrix t.dim (matrixBits s n) r c := by
  obtain ⟨hdt, -, -⟩ := exec_encPm_d_clen hs he h ht
  have hdim : t.dim = s.dim := congrArg isqrt hdt
  rw [matrices_encPm hs he h ht] at hn
  rw [hdim] at hr hc
  rw [matrixGrid, hdt, hdim, ← Nat.add_assoc, read_encPm_cell hs he h ht hn hr hc]

/-- The outcome of a check after one flip of the code that `ENC.PM` left. -/
theorem outcome_invert_encPm {s t : State} (hs : s.Inv) (he : s.err = false)
    (h : exec .encPm s = .next t) (ht : t.err = false) {n r c : Nat} (hn : n < t.matrices)
    (hc : c < t.dim) :
    (t.invert n r c).outcome n =
      pmCheck t.dim (invertCell r c (pmMatrix t.dim (matrixBits s n))) := by
  refine pmCheck_congr (dim := t.dim) fun r' hr' c' hc' => ?_
  rw [matrixGrid_invert (hs.exec h).codeWf hc hc', invertCell, invertCell,
    matrixGrid_encPm hs he h ht hn hr' hc']

/-- Settles O55: the outcome of the check is that of one flip of an encoded matrix
(`outcome_invert_encPm`); where it locates the cell, inverting it again restores CODE. -/
theorem singleFlipIsRestoredInDataRows : Obligations.SingleFlipIsRestoredInDataRows := by
  intro s t dim n r c hs he h ht hdim hn hr hc
  obtain rfl : t.dim = dim := (congrArg isqrt hdim).trans (isqrt_square dim)
  have hready := ready_encPm hs he h ht
  have hflip := hready.exec_flip_cell hn hr hc
  have hready' : (t.invert n r c).advance.Ready := ⟨hready.inv.exec hflip, ht, hready.passes⟩
  have hres : (t.invert n r c).advance.outcome n = _ :=
    outcome_invert_encPm (r := r) hs he h ht hn hc
  have hverdict := verdict_checked (t.invert n r c).advance n
  refine ⟨_, _, hflip, hready'.exec_chkPm hn, fun hdata => ?_, fun hparity => ?_⟩
  · rw [pmCheck_one_flip_data _ hdata hc] at hres
    have hlocated : ((t.invert n r c).advance.outcome n).flip = some (r, c) := by rw [hres]
    obtain ⟨hrow, hcol⟩ := checked_row_col hlocated
    rw [hres] at hverdict
    refine ⟨{ hverdict with }, ?_, hrow, hcol, ?_⟩
    · rw [checked_of_some hlocated]
      exact invert_invert_code hready.inv.codeWf n r c
    · rw [advance_ncand, checked_ncand, hres]
      rfl
  · subst hparity
    rw [pmCheck_one_flip_parity _ hc] at hres
    rw [hres] at hverdict
    rw [checked_of_none (by rw [hres]), hres] at hverdict ⊢
    refine ⟨{ hverdict with }, rfl, rfl, rfl, ?_⟩
    intro (heq : (t.invert n (t.dim - 1) c).code = t.code)
    have hbit := read_invert hready.inv.codeWf n (t.dim - 1) c
      (n * t.dVal + (t.dim - 1) * t.dim + c)
    rw [heq, if_pos rfl] at hbit
    exact Bool.not_ne_self _ hbit.symm

end Sys2Proof.Machine
end

section
/-! PROOFS. The housekeeping commands (44_housekeeping.md R120 to R125). -/

namespace Sys2Proof.Machine

open Sys2Proof

/-! ### The command words -/

/-- The word of an operand that fits is `opcode | imm`, the opcode moved to its place (R58). -/
theorem wordOf_of_fits (op : BitVec 8) {imm : Nat} (h : imm < 2 ^ 24) :
    wordOf op imm = (op.setWidth 32 <<< 24) ||| BitVec.ofNat 32 imm := by
  have hlow : BitVec.setWidth 32 (BitVec.ofNat 24 imm) = BitVec.ofNat 32 imm :=
    BitVec.eq_of_toNat_eq (by simp; omega)
  rw [wordOf, hlow]

/-- The opcode of a command without an operand makes a command of one word only (30_encoding.md
R55). -/
theorem exists_decode_error_of_opcode {w : Word} {i : Instr}
    (hop : w.toNat / 2 ^ 24 = i.opcode.toNat)
    (hi : i.opcode.toNat ∈ [0x00, 0x05, 0x10, 0x11, 0x30, 0x31]) (hne : w ≠ encode i) :
    ∃ e, decode w = .error e := by
  rw [exists_decode_error_iff]
  rintro ⟨j, hj⟩
  have hw : w.toNat % 2 ^ 24 = 0 :=
    (exists_instr_iff.1 ⟨j, decode_eq_ok_iff_toNat.1 hj⟩).2 (hop ▸ hi)
  have himm : i.imm = 0 := (exists_instr_iff.1 ⟨i, rfl, rfl⟩).2 hi
  exact hne (encode_of_decode (decode_eq_ok_iff_toNat.2 ⟨hop, hw.trans himm.symm⟩)).symm

/-- A frozen engine drops an illegal word in the step that takes it (60_exceptions.md R139). -/
theorem step_illegalWord_frozen {s : State} {rest : List HostStep} {w : Word}
    (hp : s.pending = .command w :: rest) (he : s.err = true) (hw : ∃ e, decode w = .error e) :
    step s = .next { s with pending := rest, pos := s.pos + 1 } := by
  obtain ⟨e, hw⟩ := hw
  exact (step_cons hp).trans (commandWord_frozen (s := s.withPending rest) he (by simp [hw]))

/-! ### `NOP` and `SETD` -/

/-- Settles O13: `NOP` has no check and no effect, and its opcode makes no other command
(`exists_decode_error_of_opcode`). -/
theorem nopChangesNothing : Obligations.NopChangesNothing :=
  ⟨fun _ => decode_eq_ok_iff_encode (i := .nop) rfl, rfl,
    fun _ he => exec_done (by simp) he rfl rfl,
    fun _ _ _ he hop hne hp =>
      step_illegalWord hp he (exists_decode_error_of_opcode (i := .nop) hop (by decide) hne)⟩

/-- Settles O14: `SETD` has no check, and a value that fits is kept whole (`toNat_immReg`). -/
theorem setdWritesD : Obligations.SetdWritesD := fun _ _ hd he =>
  ⟨wordOf_of_fits 0x01#8 hd, _, exec_done (by simp) he rfl rfl, toNat_immReg hd, rfl⟩

/-! ### `SETLEN` -/

/-- `SETLEN` of a length that MSG holds (R122). -/
theorem exec_setlen_ok {n : Nat} {s : State} (he : s.err = false) (hn : n ≤ s.config.msgCap) :
    exec (.setlen n) s = .next { s with mlen := immReg n }.advance :=
  exec_done (by simp) he (if_neg (Nat.not_lt.2 hn)) rfl

/-- Settles O15: the check compares with MSG_CAP; after `SETLEN 0` the encoders find MLEN to be 0
(`encPbRaisesItsFirstCause`, `encPmRaisesItsFirstCause`). -/
theorem setlenWritesMlenOrRaises : Obligations.SetlenWritesMlenOrRaises := by
  intro n s hfit he
  have hmlen : (immReg n).toNat = n := toNat_immReg hfit
  refine ⟨wordOf_of_fits 0x02#8 hfit, fun hn => ?_, fun hn => exec_raise (by simp) he (if_pos hn)⟩
  refine ⟨_, exec_setlen_ok he hn, hmlen, rfl, fun hz hd => ?_, fun hz hd => ?_⟩
  · obtain ⟨-, hlength, -⟩ :=
      encPbRaisesItsFirstCause { s with mlen := immReg n }.advance he
    exact hlength hd (hmlen.trans hz)
  · obtain ⟨dim, h2, hdim⟩ := pmLegal_iff.1 hd
    obtain ⟨-, hlegal⟩ := encPmRaisesItsFirstCause { s with mlen := immReg n }.advance he
    exact (hlegal dim h2 hdim).1 (hmlen.trans hz)

/-! ### `SETCLEN` -/

/-- `SETCLEN` of a length that CODE holds (R123). -/
theorem exec_setclen_ok {n : Nat} {s : State} (he : s.err = false) (hn : n ≤ s.config.codeCap) :
    exec (.setclen n) s = .next { s with clen := immReg n }.advance :=
  exec_done (by simp) he (if_neg (Nat.not_lt.2 hn)) rfl

/-- With a legal D the parity-bit checks find an empty code next (42_pb_check.md R91, R93). -/
theorem chkallPbCheck_badLength {s : State} (hd : 2 ≤ s.dVal) (hc : s.clenVal = 0) :
    chkallPbCheck s = some .badLength := by
  rw [chkallPbCheck, if_neg (Nat.not_lt.2 hd), if_pos hc]

/-- With a legal D the matrix checks find an empty code next (43_pm_check.md R104, R105). -/
theorem chkallPmCheck_badLength {s : State} (hd : pmLegal s.dVal) (hc : s.clenVal = 0) :
    chkallPmCheck s = some .badLength := by
  rw [chkallPmCheck, if_neg (not_not.2 hd), if_pos hc]

/-- Every check command raises `BAD_LENGTH` on an empty code when D is legal for its scheme
(60_exceptions.md R134). -/
theorem exec_check_badLength {i : Instr} {s : State} (he : s.err = false) (hc : s.clenVal = 0)
    (hi : (2 ≤ s.dVal ∧ (i = .chkallPb ∨ ∃ k, i = .chkPb k)) ∨
      (pmLegal s.dVal ∧ (i = .chkallPm ∨ ∃ k, i = .chkPm k))) :
    ∃ u, exec i s = .next u ∧ Latched .badLength (encode i) s u := by
  rcases hi with ⟨hd, rfl | ⟨k, rfl⟩⟩ | ⟨hd, rfl | ⟨k, rfl⟩⟩
  · exact exec_raise (by simp) he (chkallPbCheck_badLength hd hc)
  · apply exec_chkPb_raise he
    rw [chkPbCheck_eq, chkallPbCheck_badLength hd hc, Option.some_or]
  · exact exec_raise (by simp) he (chkallPmCheck_badLength hd hc)
  · apply exec_chkPm_raise he
    rw [chkPmCheck_eq, chkallPmCheck_badLength hd hc, Option.some_or]

/-- `FLIP` of an address outside the code (R124). -/
theorem exec_flip_raise {a : Nat} {s : State} (he : s.err = false) (ha : s.clenVal ≤ a) :
    ∃ t, exec (.flip a) s = .next t ∧ Latched .outOfRange (encode (.flip a)) s t :=
  exec_raise (by simp) he (if_pos ha)

/-- Settles O16: the check compares with CODE_CAP; after `SETCLEN 0` the code is empty
(`exec_check_badLength`) and every address lies outside it (`exec_flip_raise`). -/
theorem setclenWritesClenOrRaises : Obligations.SetclenWritesClenOrRaises := by
  intro n s hfit he
  have hclen : (immReg n).toNat = n := toNat_immReg hfit
  refine ⟨wordOf_of_fits 0x03#8 hfit, fun hn => ?_, fun hn => exec_raise (by simp) he (if_pos hn)⟩
  refine ⟨_, exec_setclen_ok he hn, hclen, rfl,
    fun hz i hi => exec_check_badLength he (hclen.trans hz) hi,
    fun hz a => exec_flip_raise he ?_⟩
  exact (hclen.trans hz).le.trans (Nat.zero_le a)

/-! ### `FLIP` -/

/-- A memory with the bit at `a` inverted. -/
def Memory.invert (m : Memory) (a : Nat) : Memory := m.write a (!m.read a)

theorem Memory.read_invert {m : Memory} (hm : m.wf = true) (a x : Nat) :
    (m.invert a).read x = if x = a then !m.read a else m.read x :=
  Memory.read_write hm a _ x

/-- Inverting a bit twice restores the memory. -/
theorem Memory.invert_invert {m : Memory} (hm : m.wf = true) (a : Nat) :
    (m.invert a).invert a = m := by
  have hm' : (m.invert a).wf = true := Memory.wf_write hm ..
  refine Memory.ext_read (Memory.wf_write hm' ..) hm fun x => ?_
  rw [Memory.read_invert hm', Memory.read_invert hm, Memory.read_invert hm, if_pos rfl]
  split
  · next hx => rw [hx, Bool.not_not]
  · rfl

/-- `FLIP` of an address of the code, which lies in CODE (R124). -/
theorem exec_flip_ok {a : Nat} {s : State} (he : s.err = false) (ha : a < s.clenVal)
    (hc : s.clenVal ≤ s.config.codeCap) :
    exec (.flip a) s = .next { s with code := s.code.invert a }.advance :=
  exec_done (by simp) he (if_neg (Nat.not_le.2 ha)) (flipBit_ok (ha.trans_le hc))

/-- The host writing the inverse of the bit it read (20_memory.md R38). -/
theorem hostWriteMem_inverse {a : Nat} {s : State} (hfit : a < 2 ^ 24)
    (ha : a < s.config.codeCap) :
    hostWriteMem .code (BitVec.ofNat 24 a) (!s.code.read a) s =
      .next { s with code := s.code.invert a } := by
  have haddr : (BitVec.ofNat 24 a).toNat = a := toNat_immReg hfit
  rw [hostWriteMem, haddr]
  exact if_pos ha

/-- Settles O17: `FLIP` inverts one bit of CODE (`exec_flip_ok`), as the host's write does
(`hostWriteMem_inverse`), and inverting it again restores CODE. -/
theorem flipInvertsOneCodeBit : Obligations.FlipInvertsOneCodeBit := by
  intro a s hfit hs he
  refine ⟨wordOf_of_fits 0x04#8 hfit, fun ha => ?_, exec_flip_raise he⟩
  have hagain := exec_flip_ok (s := { s with code := s.code.invert a }.advance) he ha hs.clenFits
  exact ⟨_, exec_flip_ok he ha hs.clenFits, rfl, Memory.read_invert hs.codeWf a,
    ⟨_, hagain, Memory.invert_invert hs.codeWf a⟩,
    _, hostWriteMem_inverse hfit (ha.trans_le hs.clenFits), rfl⟩

/-! ### `CLRERR` -/

/-- With no error latched there is nothing to clear (R125, the corner case). -/
theorem clearError_of_clean {s : State} (hs : s.Inv) (he : s.err = false) : clearError s = s := by
  have hstatus : statusWithoutError s.status = s.status :=
    statusWithoutError_of_clear s.status he (hs.errcodeZero.2 he)
  rw [clearError, hstatus, ← hs.errcmdZero.2 he]

/-- Settles O18: the fields of STATUS after `CLRERR` are those of `clearError`, and its opcode makes
no other command (`exists_decode_error_of_opcode`). -/
theorem clrerrClearsTheLatchOnly : Obligations.ClrerrClearsTheLatchOnly := by
  refine ⟨rfl, fun s => ?_, fun s rest w hop hne hp => ?_⟩
  · refine ⟨_, exec_clrerr s, clearError_err s, clearError_errcode s, rfl, clearError_valid s,
      clearError_corr s, reserved_statusWithoutError s.status, rfl, fun hs he => ?_⟩
    rw [clearError_of_clean hs he]
    rfl
  · have hw : ∃ e, decode w = .error e :=
      exists_decode_error_of_opcode (i := .clrerr) hop (by decide) hne
    exact ⟨fun he => step_illegalWord hp he hw, fun he => step_illegalWord_frozen hp he hw⟩

end Sys2Proof.Machine
end

section
/-! PROOFS. The frozen engine and the error entry (60_exceptions.md R131, R139). -/

namespace Sys2Proof.Machine

open Sys2Proof

/-! ### The frozen engine -/

/-- A frozen engine drops every word but that of `CLRERR` in the step that takes it (R139). -/
theorem step_command_frozen {s : State} {rest : List HostStep} {w : Word} (he : s.err = true)
    (hw : w ≠ encode .clrerr) (hp : s.pending = .command w :: rest) :
    step s = .next { s with pending := rest, pos := s.pos + 1 } :=
  (step_cons hp).trans (commandWord_frozen (s := s.withPending rest) he
    (mt (decode_eq_ok_iff_encode (i := .clrerr) rfl).1 hw))

/-- The step that takes the word of `CLRERR` executes it, whether an error is latched or not (R139). -/
theorem step_clrerr {s : State} {rest : List HostStep}
    (hp : s.pending = .command (encode .clrerr) :: rest) :
    step s = exec .clrerr (s.withPending rest) := by
  rw [step_cons hp, hostStep, commandWord, decode_encode (i := .clrerr) rfl]

/-- A host read below the capacity is answered, whatever STATUS holds (20_memory.md R37, R38). -/
theorem step_readMem {s : State} {rest : List HostStep} {sp : Space} {a : BitVec 24}
    (ha : a.toNat < s.cap sp) (hp : s.pending = .readMem sp a :: rest) :
    step s = .next { s with pending := rest,
                            answers := .bit sp a ((s.mem sp).read a.toNat) :: s.answers } := by
  rw [step_cons hp, hostStep, hostReadMem, if_pos (by rwa [withPending_cap]), withPending_mem]
  rfl

/-- A host write replaces a memory and leaves the host's list alone. -/
theorem withPending_setMem (s : State) (l : List HostStep) (sp : Space) (m : Memory) :
    (s.withPending l).setMem sp m = (s.setMem sp m).withPending l := by cases sp <;> rfl

/-- A host write below the capacity is carried out, whatever STATUS holds (20_memory.md R37, R38). -/
theorem step_writeMem {s : State} {rest : List HostStep} {sp : Space} {a : BitVec 24} {b : Bit}
    (ha : a.toNat < s.cap sp) (hp : s.pending = .writeMem sp a b :: rest) :
    step s = .next ((s.setMem sp ((s.mem sp).write a.toNat b)).withPending rest) := by
  rw [step_cons hp, hostStep, hostWriteMem, if_pos (by rwa [withPending_cap]), withPending_mem,
    withPending_setMem]

/-- Settles O34: every word but that of `CLRERR` is dropped (`step_command_frozen`), and a host access
below its capacity is carried out in every state. -/
theorem frozenEngineDropsAllButClrerr : Obligations.FrozenEngineDropsAllButClrerr := by
  intro s rest he
  refine ⟨fun w hw hp => step_command_frozen he hw hp, fun hp => ?_, fun n hp => step_cons hp,
    fun sp a ha hp => step_readMem ha hp, fun sp a b ha hp => step_writeMem ha hp⟩
  have hstep : step s = exec .clrerr (s.withPending rest) := step_clrerr hp
  exact ⟨hstep, _, hstep.trans (exec_clrerr _), clearError_err _⟩

/-! ### The error entry -/

/-- A word that leaves an error where none was has done exactly the error entry, with an error that the
word can raise (R130, R131). -/
theorem commandWord_latched {w : Word} {s t : State} (h : commandWord w s = .next t)
    (hs : s.err = false) (ht : t.err = true) : ∃ e, Latched e w s t ∧ wordRaises w e.code := by
  rcases commandWord_next h with ⟨i, hi, hx⟩ | ⟨⟨e, he⟩, rfl | rfl⟩
  · obtain ⟨e, hmem, hl⟩ := exec_latched hx hs ht
    rw [encode_of_decode hi] at hl
    refine ⟨e, hl, ?_⟩
    rw [wordRaises, hi]
    exact ⟨e, hmem, rfl⟩
  · rw [advance_err, hs] at ht
    cases ht
  · exact ⟨.illegalCommand, latched_raise _ w s, wordRaises_illegal he⟩

/-- Settles O35: the six codes are read off, and a newly latched error is an error entry
(`commandWord_latched`). -/
theorem errorEntryIsPrecise : Obligations.ErrorEntryIsPrecise :=
  ⟨rfl, rfl, rfl, rfl, rfl, rfl, fun _ _ _ hs h ht => commandWord_latched h hs ht⟩

end Sys2Proof.Machine
end

section
/-! PROOFS. The idle step, reset between commands and reset during a command (70_reset_and_hazards.md
R150 to R152). -/

namespace Sys2Proof.Machine

open Sys2Proof

/-- Settles O7: with an empty list the step is the idle step (log 4). -/
theorem stepWithNothingOfferedWaits : Obligations.StepWithNothingOfferedWaits := by
  intro s hp
  rw [step, hp, idleStep]

/-- Settles O10: the step is `State.resetRegisters` on the state without the host step. -/
theorem resetClearsTheRegistersOnly : Obligations.ResetClearsTheRegistersOnly :=
  fun _ _ hp => step_cons hp

/-! ### The run of CODE that a command could write -/

/-- A command whose checks pass could write the whole of its range (R152). -/
theorem writableRun_of_passed {w : Word} {i : Instr} {s : State} (he : s.err = false)
    (hw : decode w = .ok i) (hc : checkOf s i = none) : writableRun w s = codeRange s i := by
  simp [writableRun, he, hw, hc]

/-- The run is that of a command whose checks pass, or it is empty (log 7). -/
theorem writableRun_cases (w : Word) (s : State) :
    (∃ i, s.err = false ∧ decode w = .ok i ∧ checkOf s i = none ∧
      writableRun w s = codeRange s i) ∨ writableRun w s = (0, 0) := by
  unfold writableRun
  split
  · exact .inr rfl
  · next he =>
    split
    · exact .inr rfl
    · next i hi =>
      split
      · next hc => exact .inl ⟨i, by simpa using he, hi, hc, rfl⟩
      · exact .inr rfl

/-- The range of a command whose checks pass lies in CODE (20_memory.md R30). -/
theorem codeRange_fits {i : Instr} {s : State} (hs : s.Inv) (hc : checkOf s i = none) :
    (codeRange s i).1 + (codeRange s i).2 ≤ s.config.codeCap := by
  have hclen := hs.clenFits
  cases i with
  | flip a => exact Nat.lt_of_lt_of_le (flipCheck_none hc) hclen
  | chkPm n =>
    obtain ⟨-, -, -, hn⟩ := chkPmCheck_none hc
    exact (matrix_in_code hn).trans hclen
  | chkallPm => exact (Nat.zero_add _).trans_le hclen
  | encPb | encPm => exact (Nat.zero_add _).le
  | _ => exact Nat.zero_le _

theorem writableRun_fits {w : Word} {s : State} (hs : s.Inv) :
    (writableRun w s).1 + (writableRun w s).2 ≤ s.config.codeCap := by
  rcases writableRun_cases w s with ⟨i, -, -, hc, hrun⟩ | hrun
  · rw [hrun]
    exact codeRange_fits hs hc
  · rw [hrun]
    exact Nat.zero_le _

/-! ### Reset during a command -/

/-- CODE after a reset during the command `w` whose free bits are `bits` (R152). -/
def codeAfterReset (w : Word) (bits : List Bit) (s : State) : Memory :=
  s.code.writeRun (writableRun w s).1 (bits.take (writableRun w s).2)

/-- A reset during a command never faults: the run it writes lies in CODE (R152; log 7). -/
theorem hostResetDuring_ok {s : State} (hs : s.Inv) (w : Word) (bits : List Bit) :
    hostResetDuring w bits s =
      .next ({ s with code := codeAfterReset w bits s } : State).resetRegisters.advance := by
  have hfit := writableRun_fits (w := w) hs
  have hlen := List.length_take_le (writableRun w s).2 bits
  have hstore : storeBits s (writableRun w s).1 (bits.take (writableRun w s).2) = .ok _ :=
    storeBits_ok (by omega)
  rw [hostResetDuring, hstore]
  rfl

/-- The same for the step: `writableRun` does not depend on the host's list. -/
theorem step_resetDuring {s : State} {rest : List HostStep} {w : Word} {bits : List Bit}
    (hs : s.Inv) (hp : s.pending = .resetDuring w bits :: rest) :
    step s = .next
      ({ s with code := codeAfterReset w bits s, pending := rest } : State).resetRegisters.advance :=
  (step_cons hp).trans (hostResetDuring_ok (hs.withPending rest) w bits)

/-- A bit that the reset changes lies in the range of a command whose checks pass (R152; log 7). -/
theorem codeAfterReset_changed {w : Word} {bits : List Bit} {s : State} (hs : s.Inv) {a : Nat}
    (h : (codeAfterReset w bits s).read a ≠ s.code.read a) :
    ∃ i, s.err = false ∧ decode w = .ok i ∧ checkOf s i = none ∧
      (codeRange s i).1 ≤ a ∧ a < (codeRange s i).1 + (codeRange s i).2 := by
  have hlen := List.length_take_le (writableRun w s).2 bits
  rw [codeAfterReset, Memory.read_writeRun hs.codeWf] at h
  split at h
  · next ha =>
    rcases writableRun_cases w s with ⟨i, he, hi, hc, hrun⟩ | hrun
    · rw [hrun] at ha hlen
      exact ⟨i, he, hi, hc, ha.1, by omega⟩
    · rw [hrun] at ha hlen
      omega
  · exact absurd rfl h

/-- Settles O11: a changed bit lies in the range of a command whose checks pass
(`codeAfterReset_changed`), and the checks say the rest for each command that has a range. -/
theorem resetDuringACommandTouchesItsRangeOnly :
    Obligations.ResetDuringACommandTouchesItsRangeOnly := by
  intro s rest w bits hs hp
  refine ⟨_, step_resetDuring hs hp, rfl, fun a hne => ?_⟩
  obtain ⟨i, he, hi, hc, hlo, hhi⟩ := codeAfterReset_changed hs hne
  refine ⟨he, ?_⟩
  cases i with
  | encPb =>
    obtain ⟨hd, hm, hcap⟩ := encPbCheck_none hc
    exact .inl ⟨hi, hd, hm, hcap, hhi.trans_eq (Nat.zero_add _)⟩
  | encPm =>
    obtain ⟨hd, hm, hcap⟩ := encPmCheck_none hc
    exact .inr (.inl ⟨hi, hd, hm, hcap, hhi.trans_eq (Nat.zero_add _)⟩)
  | chkallPm =>
    obtain ⟨hd, -, hframe⟩ := chkallPmCheck_none hc
    exact .inr (.inr (.inl ⟨hi, hd, hframe, hhi.trans_eq (Nat.zero_add _)⟩))
  | chkPm n =>
    obtain ⟨hd, -, hframe, hn⟩ := chkPmCheck_none hc
    exact .inr (.inr (.inr (.inl ⟨n, hi, hd, hframe, hn, hlo, hhi.trans_eq (Nat.succ_mul ..).symm⟩)))
  | flip b =>
    obtain rfl : b = a := Nat.le_antisymm hlo (Nat.le_of_lt_succ hhi)
    exact .inr (.inr (.inr (.inr ⟨hi, flipCheck_none hc⟩)))
  | _ => exact absurd hhi (Nat.not_lt_zero a)

/-- The free bits that fill the run of the command `w` with `content`. -/
def fillingBits (w : Word) (s : State) (content : Nat → Bit) : List Bit :=
  (List.range (writableRun w s).2).map fun i => content ((writableRun w s).1 + i)

/-- With those bits the range of a command whose checks pass holds `content` (R152). -/
theorem read_codeAfterReset_filling {w : Word} {i : Instr} {s : State} (hs : s.Inv)
    (he : s.err = false) (hw : decode w = .ok i) (hc : checkOf s i = none) (content : Nat → Bit)
    {a : Nat} (hlo : (codeRange s i).1 ≤ a) (hhi : a < (codeRange s i).1 + (codeRange s i).2) :
    (codeAfterReset w (fillingBits w s content) s).read a = content a := by
  have hlt : a - (codeRange s i).1 < (codeRange s i).2 := by omega
  rw [codeAfterReset, fillingBits, writableRun_of_passed he hw hc, Memory.read_writeRun hs.codeWf]
  simp [hlo, hhi, hlt]

/-- Settles O12: the bits that fill the run of the word with `content` (`fillingBits`) do it for each
command that has a range, once its checks pass. -/
theorem resetDuringACommandAllowsEveryContent :
    Obligations.ResetDuringACommandAllowsEveryContent := by
  intro s rest w content hs he
  have hfill {i : Instr} (hw : decode w = .ok i) (hc : checkOf s i = none) {a : Nat} :=
    read_codeAfterReset_filling hs he hw hc content (a := a)
  have hzero {a n : Nat} (ha : a < n) : a < 0 + n := ha.trans_eq (Nat.zero_add n).symm
  exact ⟨fillingBits w s content, _, step_resetDuring (hs.withPending _) rfl,
    fun hw hd hm hcap a ha => hfill hw (encPbCheck_ok hd hm hcap) (Nat.zero_le a) (hzero ha),
    fun hw hd hm hcap a ha => hfill hw (encPmCheck_ok hd hm hcap) (Nat.zero_le a) (hzero ha),
    fun hw hd hpos hframe a ha =>
      hfill hw (chkallPmCheck_ok hd hpos hframe) (Nat.zero_le a) (hzero ha),
    fun n hw hd hpos hframe hn a hlo hhi =>
      hfill hw (chkPmCheck_ok hd hpos hframe hn) hlo (hhi.trans_eq (Nat.succ_mul ..)),
    fun a hw ha => hfill hw (if_neg (Nat.not_le.2 ha)) (Nat.le_refl a) (Nat.lt_succ_self a)⟩

end Sys2Proof.Machine
end

section
/-! PROOFS. Encoding again (70_reset_and_hazards.md R158). -/

namespace Sys2Proof.Machine

open Sys2Proof

/-- The code that an encoder writes, whose length CLEN gets, depends on MSG, MLEN and D only
(40_pb_encode.md R71, 41_pm_encode.md R83). -/
theorem encoder_effect {i : Instr} {s : State} (hi : i = .encPb ∨ i = .encPm)
    (hm : s.mlenVal ≤ s.config.msgCap) (hc : checkOf s i = none) :
    ∃ bits : List Bit, ∀ k l p,
      checkOf { s with code := k, clen := l, pos := p } i = none ∧
      effectOf i { s with code := k, clen := l, pos := p } =
        .ok { s with code := k.writeRun 0 bits, clen := countReg bits.length, pos := p } := by
  rcases hi with rfl | rfl
  · obtain ⟨hd, -, hcap⟩ := encPbCheck_none hc
    refine ⟨pbEncode (s.msg.readRun 0 s.mlenVal) s.dVal, fun k l p => ⟨hc, ?_⟩⟩
    rw [length_pbEncode_msg hd]
    exact encPbEffect_ok (s := { s with code := k, clen := l, pos := p }) hd hm hcap
  · obtain ⟨hd, -, hcap⟩ := encPmCheck_none hc
    refine ⟨pmEncode (s.msg.readRun 0 s.mlenVal) s.dVal, fun k l p => ⟨hc, ?_⟩⟩
    rw [length_pmEncode_msg hd]
    exact encPmEffect_ok (s := { s with code := k, clen := l, pos := p }) hd hm hcap

/-- Settles O25: both runs write the same bits from address 0 and their number to CLEN
(`encoder_effect`), so the two codes agree (`sameCode_writeRun`). -/
theorem encodeAgainGivesTheSameCode : Obligations.EncodeAgainGivesTheSameCode := by
  intro i s t k hi hs he h ht hk _
  have hne : i ≠ .clrerr := by rcases hi with rfl | rfl <;> decide
  obtain ⟨-, -, hc, u, hu, rfl⟩ := performed_of_no_error hne he ht h
  obtain ⟨bits, heff⟩ := encoder_effect hi hs.mlenFits hc
  obtain rfl := Except.ok.inj ((heff s.code s.clen s.pos).2.symm.trans hu)
  obtain ⟨hc', heff'⟩ := heff k (countReg bits.length) (s.pos + 1)
  exact ⟨_, exec_done hne (s := { s with code := k, clen := countReg bits.length, pos := s.pos + 1 })
    he hc' heff', rfl, sameCode_writeRun hs.codeWf hk rfl⟩

end Sys2Proof.Machine
end

section
/-! PROOFS. No command stops the machine (70_reset_and_hazards.md R162): with the invariant every effect
whose checks pass lies in the memories, so every command completes; and the states that a run reaches
(10_state.md R28). -/

namespace Sys2Proof.Machine

open Sys2Proof

/-! ### Every command completes -/

/-- Every effect whose checks pass has an answer: the cells it touches exist (00_scope.md R9). -/
theorem effectOf_total {i : Instr} {s : State} (hs : s.Inv) (he : s.err = false)
    (hc : checkOf s i = none) : ∃ u, effectOf i s = .ok u := by
  have hclen := hs.clenFits
  cases i with
  | flip a => exact ⟨_, flipBit_ok ((flipCheck_none hc).trans_le hclen)⟩
  | encPb =>
    obtain ⟨hd, -, hcap⟩ := encPbCheck_none hc
    exact ⟨_, encPbEffect_ok hd hs.mlenFits hcap⟩
  | encPm =>
    obtain ⟨hd, -, hcap⟩ := encPmCheck_none hc
    exact ⟨_, encPmEffect_ok hd hs.mlenFits hcap⟩
  | chkPb n =>
    obtain ⟨-, -, hn⟩ := chkPbCheck_none hc
    exact ⟨_, chkPbEffect_ok hclen hn.le⟩
  | chkPm n =>
    obtain ⟨hd, -, -, hn⟩ := chkPmCheck_none hc
    exact ⟨_, checkMatrix_ok hd.1 ((matrix_in_code hn).trans hclen)⟩
  | chkallPb => exact ⟨_, chkallPbEffect_ok hclen⟩
  | chkallPm =>
    have hready : s.Ready := ⟨hs, he, hc⟩
    exact hready.checkMatrices_total fun _ => List.mem_range.1
  | _ => exact ⟨_, rfl⟩

theorem exec_total {s : State} (hs : s.Inv) (i : Instr) : ∃ t, exec i s = .next t := by
  by_cases hi : i = .clrerr
  · subst hi
    exact ⟨_, exec_clrerr s⟩
  · rw [exec_eq_runCommand hi]
    exact runCommand_total fun he hc => effectOf_total hs he hc

/-- Every command word completes, an illegal one by its error (R162). -/
theorem commandWord_total {s : State} (hs : s.Inv) (w : Word) : ∃ t, commandWord w s = .next t := by
  unfold commandWord
  split
  · next i _ => exact exec_total hs i
  · exact runCommand_total fun _ hc => nomatch hc

/-! ### Every step -/

/-- A host step is answered, or it is an access at or above the capacity of its memory and refused
(20_memory.md R41; log 14). -/
theorem hostStep_outcome {s : State} (hs : s.Inv) (e : HostStep) :
    (∃ t, hostStep e s = .next t) ∨
    ∃ sp a, hostStep e s = .refused (.hostAddress sp a) ∧ s.cap sp ≤ a.toNat ∧
      (e = .readMem sp a ∨ ∃ b, e = .writeMem sp a b) := by
  cases e with
  | command w => exact .inl (commandWord_total hs w)
  | readReg n => exact .inl ⟨_, rfl⟩
  | readMem sp a =>
    by_cases ha : a.toNat < s.cap sp
    · exact .inl ⟨_, if_pos ha⟩
    · rw [Nat.not_lt] at ha
      exact .inr ⟨sp, a, (hostMem_refused ha).1, ha, .inl rfl⟩
  | writeMem sp a b =>
    by_cases ha : a.toNat < s.cap sp
    · exact .inl ⟨_, if_pos ha⟩
    · rw [Nat.not_lt] at ha
      exact .inr ⟨sp, a, (hostMem_refused ha).2 b, ha, .inr ⟨b, rfl⟩⟩
  | reset => exact .inl ⟨_, rfl⟩
  | resetDuring w bits => exact .inl ⟨_, hostResetDuring_ok hs w bits⟩

/-- The same for the step, which waits when nothing is offered. -/
theorem step_outcome {s : State} (hs : s.Inv) :
    (∃ t, step s = .next t) ∨
    ∃ sp a rest, step s = .refused (.hostAddress sp a) ∧ s.cap sp ≤ a.toNat ∧
      (s.pending = .readMem sp a :: rest ∨ ∃ b, s.pending = .writeMem sp a b :: rest) := by
  cases hp : s.pending with
  | nil => exact .inl ⟨s, stepWithNothingOfferedWaits s hp⟩
  | cons e rest =>
    rw [step_cons hp]
    rcases hostStep_outcome (hs.withPending rest) e with h | ⟨sp, a, h, ha, he⟩
    · exact .inl h
    · rw [withPending_cap] at ha
      refine .inr ⟨sp, a, rest, h, ha, ?_⟩
      rcases he with rfl | ⟨b, rfl⟩
      · exact .inl rfl
      · exact .inr ⟨b, rfl⟩

/-- Settles O41: every command word completes (`commandWord_total`), and a step that does not is a
refused host access (`step_outcome`). -/
theorem noCommandStopsTheMachine : Obligations.NoCommandStopsTheMachine := by
  refine fun s hs => ⟨commandWord_total hs, fun f hf => ?_, fun q hq => ?_⟩
  · rcases step_outcome hs with ⟨t, h⟩ | ⟨sp, a, rest, h, -, -⟩ <;> (rw [h] at hf; cases hf)
  · rcases step_outcome hs with ⟨t, h⟩ | ⟨sp, a, rest, h, ha, hp⟩
    · rw [h] at hq
      cases hq
    · rw [h] at hq
      cases hq
      exact ⟨sp, a, rest, rfl, ha, hp⟩

/-! ### Reached states -/

/-- The invariant holds along every run (`stepKeepsTheInvariant`). -/
theorem State.Reached.inv {s : State} (h : s.Reached) : s.Inv := by
  induction h with
  | base s hs => exact startStatesHaveTheInvariant.2 s hs
  | tail s t _ hstep ih => exact stepKeepsTheInvariant s t ih hstep

/-- A latched error is explained along every run (`latchStaysExplained`). -/
theorem State.Reached.latchExplained {s : State} (h : s.Reached) : s.LatchExplained := by
  induction h with
  | base s hs =>
    obtain ⟨c, m, k, l, -, -, -, -, -, rfl⟩ := hs
    exact latchExplained_of_clean (resetRegisters_err ((State.launch c m k).withPending l))
  | tail s t _ hstep ih => exact latchStaysExplained s t ih hstep

/-- Settles O45: both hold along every run, and with the invariant no step faults and a command
completes (`noCommandStopsTheMachine`). -/
theorem reachedStatesAreGoodAndGoOn : Obligations.ReachedStatesAreGoodAndGoOn := by
  intro s h
  obtain ⟨-, hfault, -⟩ := noCommandStopsTheMachine s h.inv
  refine ⟨h.inv, h.latchExplained, hfault, fun w rest hp => ?_⟩
  obtain ⟨t, ht⟩ := commandWord_total (h.inv.withPending rest) w
  have hstep : step s = .next t := (step_cons hp).trans ht
  exact ⟨t, hstep, .tail s t h hstep⟩

end Sys2Proof.Machine
end
